-- ==== Sys2Proof/Word.lean ====
section
/-! DEFINITION. The plain data types of the block's formats (spec/30_encoding.md R80, R81, R85, R86). -/

namespace Sys2Proof

/-- One byte of the flat memory (R53). -/
abbrev Byte := BitVec 8

/-- One 16-bit lane: a raw lane read unsigned, or the two's-complement pattern of a calibrated lane
(R82, R83, R85). -/
abbrev Lane := BitVec 16

/-- The 512-bit wide word (R81). -/
abbrev WideWord := BitVec 512

/-- The bits of one IEEE 754 binary64 value (R86). -/
abbrev Real64 := BitVec 64

/-- Thirty-two lanes, `array[32] of bits16`: no other lane count can be written (R110, R111, D33). -/
abbrev Lanes := Vector Lane 32

/-- Thirty-two lanes of 0x0000. -/
def zeroLanes : Lanes := Vector.replicate 32 0

end Sys2Proof
end

