-- ==== Sys2Proof/Config.lean ====
section
/-! DEFINITION. The parameters the source fixes (spec/00_scope.md R7), the open parameters (R8), and the free
values: constants with no body, of which nothing can be proved. -/

namespace Sys2Proof.Config

/-- LANES of R7. -/
def lanes : Nat := 32

/-- The bytes of one wide word: WORD_BITS / 8, and the alignment R7 and R56 ask of every region base. -/
def wordBytes : Nat := 64

/-- The bytes of one calibration constant (R53). -/
def constBytes : Nat := 8

/-- SENTINEL of R7 and R128: -32676, stored as 0x805C. -/
def sentinel : Lane := 0x805C

/-- The value State.reset gives to the open parameter MEM_SIZE (R8, D37): no number is chosen.
Log 8, DESIGN CHOICE. -/
opaque memSize : Nat

/-- The value State.reset gives to the open parameter CONST_CAPACITY, the size of the local constant storage (R8,
R31, D18): no number is chosen. Log 2, DESIGN CHOICE. -/
opaque constCapacity : Nat

/-- How many workers there are beyond the first (R8, D26): no number is chosen. Log 2, DESIGN CHOICE. -/
opaque extraWorkers : Nat

/-- The value State.reset gives to the open parameter NWORKERS: any number from 1 on (R8, R179). Log 2. -/
def nworkers : Nat := extraWorkers + 1

/-- The open parameter STAGE_LAYOUT (R8, R90, D17): at which place of the linear staging source element j of
CONST[k] stands, the first argument being k. No layout is chosen. Log 2, DESIGN CHOICE. -/
opaque stageLayout : Nat → Nat → Nat

/-- The n-th `draw bits16`: the lane of a non-finite CAL result (R122, D8). Log 5. -/
opaque drawLane : Nat → Lane

/-- The n-th drawn byte: what the host reads of DST while the block is RUNNING (R63, D11). Log 6. -/
opaque drawByte : Nat → Byte

/-- The n-th drawn integer: RNDA of an operand that is not finite, for which R120 states no result.
Log 7, DESIGN CHOICE. -/
opaque drawInt : Nat → Int

/-- The n-th free choice among the packets that may be processed next (R155). Log 4. -/
opaque pick : Nat → Nat

end Sys2Proof.Config
end

