-- ==== Sys2Proof/Machine/Binary64.lean ====
section
/-! DEFINITION. Binary64 as spec/00_scope.md R12 and R13 define it: the fields of a value, its exact value,
and the three operations the transform uses, each rounded by itself to nearest, ties to even.

Every finite binary64 value is a whole number of units of 2^-1074, so exact values are integers here: no
rounding happens before `roundTo64`. -/

namespace Sys2Proof.Binary64

/-- The sign, bits[63] (R12). -/
def sign (x : Real64) : Bool := x.getLsbD 63

/-- The biased exponent e, bits[62:52] (R12). -/
def expField (x : Real64) : Nat := (x.extractLsb' 52 11).toNat

/-- The fraction f, bits[51:0] (R12). -/
def fraction (x : Real64) : Nat := (x.extractLsb' 0 52).toNat

/-- `isFinite` of R12. -/
def isFinite (x : Real64) : Bool := expField x != 2047

/-- A NaN: e = 2047 and f ≠ 0 (R12). -/
def isNaN (x : Real64) : Bool := expField x == 2047 && fraction x != 0

/-- ±infinity: e = 2047 and f = 0 (R12). -/
def isInf (x : Real64) : Bool := expField x == 2047 && fraction x == 0

/-- ±0 (R12). -/
def isZero (x : Real64) : Bool := expField x == 0 && fraction x == 0

/-- `real(x)` of R12, word for word, for a finite x: a normal number (-1)^s × 2^(e-1023) × (1 + f/2^52), a
subnormal number or zero (-1)^s × 2^(-1022) × (f/2^52). -/
def real (x : Real64) : Rat :=
  (if sign x then -1 else 1) *
    (if expField x = 0 then (2 : Rat) ^ (-1022 : Int) * ((fraction x : Rat) / 2 ^ 52)
     else (2 : Rat) ^ ((expField x : Int) - 1023) * (1 + (fraction x : Rat) / 2 ^ 52))

/-- The significand as a whole number: the hidden bit is there for a normal number only (R12). -/
def significand (x : Real64) : Nat :=
  if expField x = 0 then fraction x else 2 ^ 52 + fraction x

/-- |real(x)| in units of 2^-1074. -/
def fixedMag (x : Real64) : Nat := significand x * 2 ^ (expField x - 1)

/-- real(x) in units of 2^-1074. -/
def fixed (x : Real64) : Int := if sign x then -(fixedMag x : Int) else (fixedMag x : Int)

/-- The NaN every invalid operation returns here. R13 says no rule depends on a NaN's payload.
Log 14, DESIGN CHOICE. -/
def quietNaN : Real64 := 0x7FF8000000000000

/-- Infinity with the given sign. -/
def infinity (neg : Bool) : Real64 := if neg then 0xFFF0000000000000 else 0x7FF0000000000000

/-- x with its sign turned. -/
def negate (x : Real64) : Real64 := x ^^^ 0x8000000000000000#64

/-- m / 2^q rounded to the nearest whole number, a tie to the even one (R13). -/
def divPow2Even (m q : Nat) : Nat :=
  let t := m / 2 ^ q
  let r := m % 2 ^ q
  if 2 ^ q < 2 * r ∨ (2 * r = 2 ^ q ∧ t % 2 = 1) then t + 1 else t

/-- The exponent, in units of 2^-scale, of the last place of the binary64 values around m / 2^scale: 52 places
below the leading bit of m, and never below 2^-1074 (R12, R13). -/
def lastPlace (m scale : Nat) : Nat := max (Nat.log2 m - 52) (scale - 1074)

/-- The exact magnitude m / 2^scale (scale at least 1074), with the given sign, rounded to the nearest
binary64 value, ties to the even fraction; from 2^1024 - 2^970 on, infinity (R13). Significand and exponent
field add up, so that a carry out of the fraction goes into the exponent by itself. -/
def roundTo64 (neg : Bool) (m scale : Nat) : Real64 :=
  let q := lastPlace m scale
  let bits := (q - (scale - 1074)) * 2 ^ 52 + divPow2Even m q
  BitVec.ofNat 64 ((if neg then 2 ^ 63 else 0) + min bits (2047 * 2 ^ 52))

/-- `to64(n)` of R13, for 0 ≤ n ≤ 65535: exact. -/
def to64 (n : Nat) : Real64 := roundTo64 false (n * 2 ^ 1074) 1074

/-- `sub64(x, y)` of R13. An exact zero is +0. -/
def sub64 (x y : Real64) : Real64 :=
  if isNaN x || isNaN y then quietNaN
  else if isInf x then
    if isInf y && sign x == sign y then quietNaN else x
  else if isInf y then negate y
  else
    let n := fixed x - fixed y
    roundTo64 (decide (n < 0)) n.natAbs 1074

/-- `mul64(x, y)` of R13. An exact zero has the exclusive or of the operands' signs. -/
def mul64 (x y : Real64) : Real64 :=
  let neg := sign x != sign y
  if isNaN x || isNaN y then quietNaN
  else if isInf x || isInf y then
    if isZero x || isZero y then quietNaN else infinity neg
  else roundTo64 neg (fixedMag x * fixedMag y) 2148

/-- RNDA of R120 on the exact value q = real(v): floor(q + 1/2) for q ≥ 0, ceil(q - 1/2) otherwise, with
q = fixed v / 2^1074 and exact additions (C1, D6). -/
def roundHalfAway (v : Real64) : Int :=
  let n := fixed v
  if 0 ≤ n then (2 * n + 2 ^ 1074) / 2 ^ 1075
  else -((2 * -n + 2 ^ 1074) / 2 ^ 1075)

/-- NARROW16 of R121: k mod 2^16, for every integer k. -/
def narrow16 (k : Int) : Lane := BitVec.ofInt 16 k

end Sys2Proof.Binary64
end

