-- ==== Sys2Proof/Machine/RawLane.lean ====
section
/-! DEFINITION. The fields of a multi-mode raw lane (spec/30_encoding.md R83). -/

namespace Sys2Proof

/-- mode = raw[15:14] (R83). -/
def rawMode (raw : Lane) : BitVec 2 := raw.extractLsb' 14 2

/-- magnitude = raw[13:0], as the unsigned 16-bit operand of CAL (R83, R122). -/
def magnitude14 (raw : Lane) : Lane := (raw.extractLsb' 0 14).setWidth 16

end Sys2Proof
end

