-- ==== Sys2Proof/Syntax.lean ====
section
/-! DEFINITION. The eleven operations of spec/opcode_table.json with the operands of R99, and the two
formats a decoder of this block distinguishes: KEY (R95) and INVOKE (R91). -/

namespace Sys2Proof

/-- POLICY (R3, R23). -/
inductive Policy where
  | single
  | multi
  deriving DecidableEq, Repr

/-- A region of the flat memory: base byte offset and length, in words for SRC and DST, in elements for
CONST[k] (R23). The spec gives neither a width (N20), so both are natural numbers (log 24). -/
structure Region where
  base : Nat
  length : Nat
  deriving DecidableEq, Repr

/-- One constructor per row of the opcode table, operands as R99 writes them. -/
inductive Instr where
  /-- UNPACK w (R110). -/
  | unpack (w : WideWord)
  /-- PACK l[0..31] (R111). -/
  | pack (lanes : Lanes)
  /-- RNDA v (R120). -/
  | rnda (v : Real64)
  /-- NARROW16 k (R121). -/
  | narrow16 (k : Int)
  /-- XFORM.S a, p, g (R123). -/
  | xformS (raw : Lane) (p g : Real64)
  /-- XFORM.M0 raw, p0, g0 (R125). -/
  | xformM0 (raw : Lane) (p g : Real64)
  /-- XFORM.M1 raw, p1, g1 (R126). -/
  | xformM1 (raw : Lane) (p g : Real64)
  /-- XFORM.INV raw (R128). -/
  | xformInv (raw : Lane)
  /-- XFORM.M3 raw, p2, g2 (R127). -/
  | xformM3 (raw : Lane) (p g : Real64)
  /-- BATCH.S n src dst p g (R151). -/
  | batchS (npackets : BitVec 64) (src dst p g : Region)
  /-- BATCH.M n src dst p0 g0 p1 g1 p2 g2 (R152). -/
  | batchM (npackets : BitVec 64) (src dst p0 g0 p1 g1 p2 g2 : Region)
  deriving DecidableEq, Repr

/-- The labels of the opcode table's format column (R80, R96). -/
inductive Format where
  | internal
  | key
  | invoke
  deriving DecidableEq, Repr

/-- The format of an operation's row. -/
def Instr.format : Instr → Format
  | .unpack _ => .internal
  | .pack _ => .internal
  | .rnda _ => .internal
  | .narrow16 _ => .internal
  | .xformS _ _ _ => .key
  | .xformM0 _ _ _ => .key
  | .xformM1 _ _ _ => .key
  | .xformInv _ => .key
  | .xformM3 _ _ _ => .key
  | .batchS _ _ _ _ _ => .invoke
  | .batchM _ _ _ _ _ _ _ _ _ => .invoke

/-- A pedestal and a gain, the constants of one lane (R87). -/
structure ConstPair where
  p : Real64
  g : Real64
  deriving DecidableEq, Repr

/-- The invocation record as the host delivers it with START (R23, R91): POLICY is its only coded field, and
the constant regions are a plain list, whose count the decoder holds against K (D33). -/
structure InvokeRecord where
  policy : BitVec 1
  npackets : BitVec 64
  src : Region
  dst : Region
  consts : List Region
  deriving DecidableEq, Repr

/-- What a decoder of this block is given. A KEY stands with the lane's constants where its operation reads
some (R87); an INVOKE record stands by itself. The INTERNAL operations have no selector (R96), so nothing
here encodes them. -/
inductive Encoded where
  | key (key : BitVec 17) (pair : Option ConstPair)
  | invoke (record : InvokeRecord)
  deriving DecidableEq, Repr

/-- The format of an encoded operation. -/
def Encoded.format : Encoded → Format
  | .key _ _ => .key
  | .invoke _ => .invoke

end Sys2Proof
end

