-- ==== Sys2Proof/WellFormed.lean ====
section
/-! DEFINITION. The checks on operands that the types leave: RNDA takes a finite value (R120), and a multi-mode
transform takes a raw lane whose mode bits are its own (R125 to R128). -/

namespace Sys2Proof

/-- The operands are those the operation's rule admits. -/
def Instr.wellFormed : Instr → Bool
  | .unpack _ => true
  | .pack _ => true
  | .rnda v => Binary64.isFinite v
  | .narrow16 _ => true
  | .xformS _ _ _ => true
  | .xformM0 raw _ _ => rawMode raw == 0b00#2
  | .xformM1 raw _ _ => rawMode raw == 0b01#2
  | .xformInv raw => rawMode raw == 0b10#2
  | .xformM3 raw _ _ => rawMode raw == 0b11#2
  | .batchS _ _ _ _ _ => true
  | .batchM _ _ _ _ _ _ _ _ _ => true

end Sys2Proof
end

