-- ==== Sys2Proof/Decode.lean ====
section
/-! DEFINITION. The decoder of the two dispatch keys (spec/30_encoding.md R91, R95), the encoder of the same
tables, and the bit numbering of spec/opcode_table.json. -/

namespace Sys2Proof

/-- Why an encoded operation is refused: its shape is none the block has (D33). -/
inductive DecodeError where
  /-- A key no row matches; the key table is complete, so this does not arise (R95). -/
  | noSuchKey
  /-- The key's operation reads a constant pair and none stands with it (R87). -/
  | missingConstants
  /-- The key is XFORM.INV's, which reads no constant, and a pair stands with it (R87, R128). -/
  | unexpectedConstants
  /-- The number of constant regions is not K, 2 or 6 as POLICY says (R23, D33). -/
  | arrayCount
  deriving DecidableEq, Repr

/-- The operations a KEY selects (R95). -/
inductive KeyOp where
  | s
  | m0
  | m1
  | inv
  | m3
  deriving DecidableEq, Repr

/-- One row of the decode table of R95. -/
structure KeyRow where
  op : KeyOp
  pattern : BitVec 17
  mask : BitVec 17
  deriving DecidableEq, Repr

/-- The decode table of R95, in the spec's order. -/
def keyTable : List KeyRow :=
  [⟨.s, 0x00000, 0x10000⟩, ⟨.m0, 0x10000, 0x1C000⟩, ⟨.m1, 0x14000, 0x1C000⟩,
   ⟨.inv, 0x18000, 0x1C000⟩, ⟨.m3, 0x1C000, 0x1C000⟩]

/-- A key matches a row when (key AND mask) = match (R95). -/
def KeyRow.matchesKey (r : KeyRow) (key : BitVec 17) : Bool := key &&& r.mask == r.pattern

/-- The operation a key selects. -/
def selectKey (key : BitVec 17) : Option KeyOp :=
  (keyTable.find? fun r => r.matchesKey key).map KeyRow.op

/-- key[15:0] = raw (R95). -/
def keyRaw (key : BitVec 17) : Lane := key.extractLsb' 0 16

/-- POLICY as one bit: 0 SINGLE, 1 MULTI (R23, R91). -/
def Policy.bit : Policy → BitVec 1
  | .single => 0
  | .multi => 1

/-- key = {POLICY, raw} (R95). -/
def laneKey (policy : Policy) (raw : Lane) : BitVec 17 := policy.bit ++ raw

/-- A KEY with the constants of its lane (R87, R95). -/
def decodeKey (key : BitVec 17) (pair : Option ConstPair) : Except DecodeError Instr :=
  match selectKey key, pair with
  | none, _ => .error .noSuchKey
  | some .inv, none => .ok (.xformInv (keyRaw key))
  | some .inv, some _ => .error .unexpectedConstants
  | some .s, some c => .ok (.xformS (keyRaw key) c.p c.g)
  | some .m0, some c => .ok (.xformM0 (keyRaw key) c.p c.g)
  | some .m1, some c => .ok (.xformM1 (keyRaw key) c.p c.g)
  | some .m3, some c => .ok (.xformM3 (keyRaw key) c.p c.g)
  | some .s, none => .error .missingConstants
  | some .m0, none => .error .missingConstants
  | some .m1, none => .error .missingConstants
  | some .m3, none => .error .missingConstants

/-- An INVOKE record: POLICY selects the batch kind, which has K = 2 or K = 6 arrays numbered as R24 numbers
them; any other count is refused (R91, D33, log 16). -/
def decodeInvoke (r : InvokeRecord) : Except DecodeError Instr :=
  if r.policy = Policy.single.bit then
    match r.consts with
    | [p, g] => .ok (.batchS r.npackets r.src r.dst p g)
    | _ => .error .arrayCount
  else
    match r.consts with
    | [p0, g0, p1, g1, p2, g2] => .ok (.batchM r.npackets r.src r.dst p0 g0 p1 g1 p2 g2)
    | _ => .error .arrayCount

/-- The block's decoder. -/
def decode : Encoded → Except DecodeError Instr
  | .key key pair => decodeKey key pair
  | .invoke r => decodeInvoke r

/-- The encoder, from the tables of R91 and R95. The INTERNAL operations have no encoding (R96). -/
def encode : Instr → Option Encoded
  | .unpack _ => none
  | .pack _ => none
  | .rnda _ => none
  | .narrow16 _ => none
  | .xformS raw p g => some (.key (laneKey .single raw) (some ⟨p, g⟩))
  | .xformM0 raw p g => some (.key (laneKey .multi raw) (some ⟨p, g⟩))
  | .xformM1 raw p g => some (.key (laneKey .multi raw) (some ⟨p, g⟩))
  | .xformInv raw => some (.key (laneKey .multi raw) none)
  | .xformM3 raw p g => some (.key (laneKey .multi raw) (some ⟨p, g⟩))
  | .batchS n src dst p g => some (.invoke ⟨Policy.single.bit, n, src, dst, [p, g]⟩)
  | .batchM n src dst p0 g0 p1 g1 p2 g2 =>
    some (.invoke ⟨Policy.multi.bit, n, src, dst, [p0, g0, p1, g1, p2, g2]⟩)

/-- A constant pair of zero words (+0.0, +0.0). -/
def zeroPair : ConstPair := ⟨0, 0⟩

/-- A region of zero words. -/
def zeroRegion : Region := ⟨0, 0⟩

/-- What stands with a key whose operand words are all zero: the pair its operation reads, none for XFORM.INV. -/
def zeroOperands (key : BitVec 17) : Option ConstPair :=
  if selectKey key = some .inv then none else some zeroPair

/-- The record with the given POLICY and every other word zero. -/
def zeroRecord (policy : BitVec 1) : InvokeRecord :=
  ⟨policy, 0, zeroRegion, zeroRegion, List.replicate (if policy = 0 then 2 else 6) zeroRegion⟩

/-- The encoded operation whose bits, numbered as spec/opcode_table.json numbers them, are w. An INVOKE row
has its one bit POLICY in one byte; a KEY row has its 17 bits in three bytes. No other width, and no set bit
above those, is a form of the block (log 11). -/
def tableEncoded (nbits w : Nat) : Option Encoded :=
  if 1 ≤ nbits ∧ nbits ≤ 8 then
    if w < 2 then some (.invoke (zeroRecord (BitVec.ofNat 1 w))) else none
  else if 17 ≤ nbits ∧ nbits ≤ 24 then
    if w < 2 ^ 17 then some (.key (BitVec.ofNat 17 w) (zeroOperands (BitVec.ofNat 17 w))) else none
  else none

/-- What the decoder reads from the bits w of an opcode-table row of nbits bits. -/
def decodeTableWord (nbits w : Nat) : Option Instr :=
  (tableEncoded nbits w).bind fun e => (decode e).toOption

end Sys2Proof
end

