-- ==== Sys2Proof/Machine/State.lean ====
section
/-! DEFINITION. The state of the block (spec/10_state.md R32), the flat memory it works on, the transient
values of a PROCESS step, and the model's own fields, as plain data; and the state after reset. -/

namespace Sys2Proof.Machine

/-- `phase` (R22). -/
inductive Phase where
  /-- No batch has been started since reset. -/
  | idle
  /-- A batch is started and at least one of its packets is unprocessed. -/
  | running
  /-- The last started batch has processed every packet. -/
  | done
  /-- A contract violation was detected. -/
  | fault
  deriving DecidableEq, Repr

/-- The fault reasons of R173: what the block records in FAULTS. They stop no run: fault entry is a next
state. -/
inductive Reason where
  | misaligned
  | srcExtent
  | dstExtent
  | constExtent
  | overlap
  | outOfRange
  | busy
  | hostWrite
  deriving DecidableEq, Repr

/-- The constant arrays of a batch, with the names of R24: two under SINGLE, six under MULTI. -/
inductive Arrays where
  | single (p g : Region)
  | multi (p0 g0 p1 g1 p2 g2 : Region)
  deriving DecidableEq, Repr

/-- PARAMS, the latched invocation record (R23). POLICY is the shape of `arrays`, so that K always agrees with
it. -/
structure Params where
  npackets : BitVec 64
  src : Region
  dst : Region
  arrays : Arrays
  deriving DecidableEq, Repr

/-- How far the PROCESS step of a packet in hand has come (R153, log 1): the operation it takes next. -/
inductive Stage where
  /-- UNPACK(SrcRead(i)). -/
  | unpack
  /-- The transform of lane l. -/
  | lane (l : Fin 32)
  /-- PACK(lanes_out). -/
  | pack
  /-- DstWrite(i, word), DONESET and completion. -/
  | write
  deriving DecidableEq, Repr

/-- A packet some worker has in hand: a PROCESS step under way, with its two lane vectors (R30, R153, R179). It
is there only while the PROCESS step is. -/
structure Hand where
  /-- Which packet: the i of PROCESS(i). -/
  index : Nat
  stage : Stage
  /-- lanes_in, the output of UNPACK (R30). -/
  lanesIn : Lanes
  /-- lanes_out, the input of PACK (R30). -/
  lanesOut : Lanes
  /-- The packed word, once PACK has run. -/
  word : WideWord
  deriving DecidableEq, Repr

/-- Where the operations leave their results (log 10). A step of the machine takes the result over into the packet
it works on, so that no result outlives the step. -/
structure Datapath where
  /-- The result of UNPACK. -/
  lanesIn : Lanes
  /-- The result of PACK. -/
  word : WideWord
  /-- The result of RNDA. -/
  rounded : Int
  /-- The result of NARROW16 and of every transform. -/
  lane : Lane
  deriving DecidableEq, Repr

/-- No result (log 10). -/
def Datapath.zero : Datapath := ⟨zeroLanes, 0, 0, 0⟩

/-- The flat memory: (address, byte) pairs, addresses strictly rising, no pair listing the byte an unlisted
address reads as. -/
abbrev Memory := List Host.Cell

/-- What an address that is not listed reads as. Power-on contents are unspecified (R191): a launch state
lists what it holds, and the rest reads 0. Log 9, DESIGN CHOICE. -/
def Memory.unlisted : Byte := 0

/-- What the host can do to the block (R184). -/
inductive HostAction where
  | reset
  | start (record : InvokeRecord)
  | readPhase
  | readFaults
  | readMem (addr n : Nat)
  | writeMem (addr : Nat) (bytes : List Byte)
  deriving DecidableEq, Repr

/-- One coming move (log 3): the host acts, or a worker goes on with packet i, taking it up if no worker has it in
hand. -/
inductive Move where
  | host (a : HostAction)
  | worker (i : Nat)
  deriving DecidableEq, Repr

/-- What a host read answered (R63, R184). -/
inductive Reply where
  | phase (p : Phase)
  | faults (fs : List Reason)
  | bytes (bs : List Byte)
  deriving DecidableEq, Repr

/-- What stops the machine: nothing does. The faults of the block are `Reason`s and lead to a next state (R174),
and the host's accesses have an effect at every address (R184, log 15). -/
inductive Fault
  deriving DecidableEq, Repr

/-- What the model gives no run. -/
inductive Refusal where
  /-- Raised by no arm of this model: every instruction has its meaning. Safe. -/
  | notModelled (mnemonic : String)
  /-- Raised by the host's START when its record is not a shape the block has, which the spec calls a refusal
  at the model's boundary (D33, I5). Safe. Log 16. -/
  | undecodable (e : DecodeError)
  deriving DecidableEq, Repr

/-- The machine's state. -/
structure State where
  /-- R22. -/
  phase : Phase
  /-- PARAMS; none is "unset" (R25). -/
  params : Option Params
  /-- DONESET, strictly rising (R27, log 27). -/
  doneSet : List Nat
  /-- FAULTS, in code order (R28, log 27). -/
  faults : List Reason
  /-- The flat memory (R53); not state of the block (R32). -/
  mem : Memory
  /-- MEM_SIZE (R8, R60, D37): read by the OUT_OF_RANGE check alone; no step writes it. Log 8. -/
  memSize : Nat
  /-- CONST_CAPACITY (R8, R31, D18): nothing reads it; no step writes it. Log 2. -/
  constCapacity : Nat
  /-- NWORKERS (R8, R179, D26): how many packets may be in hand at a time; no step writes it. Log 2. -/
  nworkers : Nat
  /-- The packets whose PROCESS steps are under way, in the order they were taken (R153, R179, log 1). -/
  hands : List Hand
  /-- The result of the last operation run by itself (log 10). -/
  dp : Datapath
  /-- The model's own: how many free values have been taken (log 5). -/
  draws : Nat
  /-- The model's own: the coming moves of the host and the workers (log 3). -/
  agenda : List Move
  /-- The model's own: the answer of the last host read (log 20). -/
  reply : Option Reply
  deriving DecidableEq, Repr

/-- The state after reset, the columns "reset value" of R32 and R190. -/
def State.reset : State where
  phase := .idle
  params := none
  doneSet := []
  faults := []
  mem := []
  memSize := Config.memSize
  constCapacity := Config.constCapacity
  nworkers := Config.nworkers
  hands := []
  dp := Datapath.zero
  draws := 0
  agenda := []
  reply := none

end Sys2Proof.Machine
end

