-- ==== Sys2Proof/Machine/Ops.lean ====
section
/-! DEFINITION. The named operations over the state: bytes and little-endian values in memory
(spec/20_memory.md R53), the set DONESET (R27), free values (R11), fault entry (R174), reset (R190), and the
START checks (R172). -/

namespace Sys2Proof.Machine

/-! ### Memory -/

/-- The canonical form: addresses strictly rising, no byte listed that an unlisted address reads as. -/
def Memory.wf : Memory → Bool
  | [] => true
  | [c] => c.2 != Memory.unlisted
  | c :: d :: m => c.2 != Memory.unlisted && decide (c.1 < d.1) && Memory.wf (d :: m)

/-- The byte at an address. -/
def Memory.read : Memory → Nat → Byte
  | [], _ => Memory.unlisted
  | c :: m, a => if a = c.1 then c.2 else Memory.read m a

/-- c in front of m, unless its byte is what an unlisted address reads as. -/
def Memory.list (c : Host.Cell) (m : Memory) : Memory :=
  if c.2 = Memory.unlisted then m else c :: m

/-- Write one byte, keeping the canonical form. -/
def Memory.write : Memory → Nat → Byte → Memory
  | [], a, v => Memory.list (a, v) []
  | c :: m, a, v =>
    if a < c.1 then Memory.list (a, v) (c :: m)
    else if a = c.1 then Memory.list (a, v) m
    else c :: Memory.write m a v

/-- The n bytes from an address up. -/
def Memory.readBytes (m : Memory) : Nat → Nat → List Byte
  | _, 0 => []
  | a, n + 1 => m.read a :: Memory.readBytes m (a + 1) n

/-- Write bytes from an address up. -/
def Memory.writeBytes : Memory → Nat → List Byte → Memory
  | m, _, [] => m
  | m, a, b :: bs => Memory.writeBytes (m.write a b) (a + 1) bs

/-- The number whose bytes are given, least significant first (R53, D15). -/
def leValue : List Byte → Nat
  | [] => 0
  | b :: bs => b.toNat + 256 * leValue bs

/-- The n low bytes of a number, least significant first (R53, D15). -/
def leBytes : Nat → Nat → List Byte
  | 0, _ => []
  | n + 1, v => BitVec.ofNat 8 v :: leBytes n (v / 256)

/-- The wide word at a byte address (R53). -/
def Memory.readWord (m : Memory) (a : Nat) : WideWord :=
  BitVec.ofNat 512 (leValue (m.readBytes a Config.wordBytes))

/-- Write a wide word at a byte address (R53, R58). -/
def Memory.writeWord (m : Memory) (a : Nat) (w : WideWord) : Memory :=
  m.writeBytes a (leBytes Config.wordBytes w.toNat)

/-- The binary64 value at a byte address (R53). -/
def Memory.readConst (m : Memory) (a : Nat) : Real64 :=
  BitVec.ofNat 64 (leValue (m.readBytes a Config.constBytes))

/-- Write a binary64 value at a byte address: what the host or the staging copy does to a constant. -/
def Memory.writeConst (m : Memory) (a : Nat) (x : Real64) : Memory :=
  m.writeBytes a (leBytes Config.constBytes x.toNat)

/-! ### DONESET -/

/-- DONESET ∪ {i} (R153), kept strictly rising. -/
def insertIndex (i : Nat) : List Nat → List Nat
  | [] => [i]
  | x :: xs => if i < x then i :: x :: xs else if i = x then x :: xs else x :: insertIndex i xs

/-- The j-th natural number from k on that a strictly rising list lacks, counting from 0. -/
def nthMissing : Nat → List Nat → Nat → Nat
  | k, [], j => k + j
  | k, x :: xs, j =>
    if x < k then nthMissing k xs j
    else if j < x - k then k + j
    else nthMissing (x + 1) xs (j - (x - k))

/-- How many packets of [0, n) are not in DONESET. -/
def remaining (n : Nat) (doneSet : List Nat) : Nat :=
  n - (doneSet.filter fun i => decide (i < n)).length

/-- DONESET = [0, n), for a DONESET that holds no index from n on (R27): no packet is missing. -/
def complete (n : Nat) (doneSet : List Nat) : Bool := decide (n ≤ nthMissing 0 doneSet 0)

/-! ### PARAMS -/

/-- POLICY (R23). -/
def Arrays.policy : Arrays → Policy
  | .single _ _ => .single
  | .multi _ _ _ _ _ _ => .multi

/-- POLICY of PARAMS (R23). -/
def Params.policy (p : Params) : Policy := p.arrays.policy

/-- CONST[0], CONST[1], ... in the numbering of R24. -/
def Arrays.regions : Arrays → List Region
  | .single p g => [p, g]
  | .multi p0 g0 p1 g1 p2 g2 => [p0, g0, p1, g1, p2, g2]

/-- NPACKETS as a number. -/
def Params.count (p : Params) : Nat := p.npackets.toNat

/-- A byte range of the flat memory. -/
structure Range where
  start : Nat
  size : Nat
  deriving DecidableEq, Repr

/-- a is an address of the range. -/
def Range.covers (r : Range) (a : Nat) : Bool := decide (r.start ≤ a) && decide (a < r.start + r.size)

/-- Two ranges share an address. An empty range shares none (R158). -/
def Range.overlaps (r q : Range) : Bool :=
  r.size != 0 && q.size != 0 && decide (r.start < q.start + q.size) && decide (q.start < r.start + r.size)

/-- The bytes of words [0, n) of a region of wide words (R53, R61). -/
def wordRange (r : Region) (n : Nat) : Range := ⟨r.base, Config.wordBytes * n⟩

/-- The bytes of elements [0, 32 n) of a constant array (R53, R61). -/
def constRange (r : Region) (n : Nat) : Range := ⟨r.base, Config.constBytes * (Config.lanes * n)⟩

/-- The used byte ranges of R61: SRC, DST and each CONST[k]. -/
def Params.ranges (p : Params) : List Range :=
  wordRange p.src p.count :: wordRange p.dst p.count ::
    p.arrays.regions.map fun r => constRange r p.count

/-- a lies in a used range (R61, R64, R176). -/
def Params.uses (p : Params) (a : Nat) : Bool := p.ranges.any fun r => r.covers a

/-- a lies in DST[0 .. NPACKETS). -/
def Params.inDst (p : Params) (a : Nat) : Bool := (wordRange p.dst p.count).covers a

/-! ### START checks -/

/-- A region base that is not a multiple of 64 bytes (R56, R172). -/
def Region.misaligned (r : Region) : Bool := r.base % Config.wordBytes != 0

/-- Some two ranges of the list overlap (R61). -/
def anyOverlap : List Range → Bool
  | [] => false
  | r :: rs => rs.any (fun q => r.overlaps q) || anyOverlap rs

/-- A range that is not empty and reaches beyond the flat memory (R60, R172; log 13). -/
def Range.outside (r : Range) (memSize : Nat) : Bool :=
  r.size != 0 && !decide (r.start + r.size ≤ memSize)

/-- Which checks of R172 fail, each by itself, in exact arithmetic (D21). BUSY and HOST_WRITE are no START
checks. -/
def checkFails (p : Params) (memSize : Nat) : Reason → Bool
  | .misaligned => (p.src :: p.dst :: p.arrays.regions).any Region.misaligned
  | .srcExtent => decide (p.src.length < p.count)
  | .dstExtent => decide (p.dst.length < p.count)
  | .constExtent => p.arrays.regions.any fun r => decide (r.length < Config.lanes * p.count)
  | .overlap => anyOverlap p.ranges
  | .outOfRange => p.ranges.any fun r => r.outside memSize
  | .busy => false
  | .hostWrite => false

/-- The START checks in the order of their codes (R173). -/
def startChecks : List Reason :=
  [.misaligned, .srcExtent, .dstExtent, .constExtent, .overlap, .outOfRange]

/-- The reason codes of R173. -/
def Reason.code : Reason → Nat
  | .misaligned => 1
  | .srcExtent => 2
  | .dstExtent => 3
  | .constExtent => 4
  | .overlap => 5
  | .outOfRange => 6
  | .busy => 7
  | .hostWrite => 8

/-- The reasons of every failing check at START (R172). -/
def failingChecks (p : Params) (memSize : Nat) : List Reason :=
  startChecks.filter fun r => checkFails p memSize r

/-! ### Shared effects -/

/-- What is transient in a PROCESS step is gone: no packet in hand, no lane vector, no result (R30, log 18). -/
def State.dropTransient (s : State) : State := { s with hands := [], dp := Datapath.zero }

/-- FAULT ENTRY, the one way into FAULT (R174): of the block's state FAULTS and `phase` change, nothing else. The
PROCESS steps under way end there, and with them their transient values (R30). There is no return but reset
(R175). -/
def State.enterFault (s : State) (reasons : List Reason) : State :=
  { s.dropTransient with phase := .fault, faults := reasons }

/-- RESET, the one way out of FAULT (R175, R190): `phase`, PARAMS, DONESET and FAULTS, and with them the
transient values of the packets in hand; memory stays (R191), and so do the model's own fields (log 22). -/
def State.resetBlock (s : State) : State :=
  { s.dropTransient with phase := .idle, params := none, doneSet := [], faults := [] }

/-- An accepted START: PARAMS latched, DONESET empty, RUNNING, or DONE for an empty batch (R33, R158). No
packet is in hand yet. -/
def State.latch (s : State) (p : Params) : State :=
  { s.dropTransient with
    phase := if p.count = 0 then .done else .running
    params := some p
    doneSet := [] }

/-- START(params), by phase (R33): checked in IDLE and DONE (R172), BUSY while RUNNING (R173), ignored in
FAULT (R175). -/
def State.start (s : State) (p : Params) : State :=
  match s.phase with
  | .running => s.enterFault [.busy]
  | .fault => s
  | .idle | .done =>
    match failingChecks p s.memSize with
    | [] => s.latch p
    | reasons => s.enterFault reasons

/-- Result of UNPACK. -/
def State.setLanesIn (s : State) (L : Lanes) : State := { s with dp := { s.dp with lanesIn := L } }

/-- Result of PACK. -/
def State.setWord (s : State) (w : WideWord) : State := { s with dp := { s.dp with word := w } }

/-- Result of RNDA. -/
def State.setRounded (s : State) (k : Int) : State := { s with dp := { s.dp with rounded := k } }

/-- Result of NARROW16 and of a transform. -/
def State.setLane (s : State) (c : Lane) : State := { s with dp := { s.dp with lane := c } }

/-- n free values have been taken (R11). -/
def State.useDraws (s : State) (n : Nat) : State := { s with draws := s.draws + n }

end Sys2Proof.Machine
end

