-- ==== Sys2Proof/Machine/Operands.lean ====
section
/-! DEFINITION. The formats of spec/30_encoding.md as operands: lanes of a word (R81), the reads and the
write of a packet (spec/20_memory.md R51, R52, R54), the constants a lane uses (R87), and the staging format
(R89, R90). -/

namespace Sys2Proof.Machine

/-- Lane i of a word, w[16i+15 : 16i] (R81). -/
def wordLane (w : WideWord) (i : Nat) : Lane := w.extractLsb' (16 * i) 16

/-- The word with w[16i+15 : 16i] = x (R81, R111). -/
def setWordLane (w : WideWord) (i : Nat) (x : Lane) : WideWord :=
  (w &&& ~~~((BitVec.allOnes 16).setWidth 512 <<< (16 * i))) ||| (x.setWidth 512 <<< (16 * i))

/-- UNPACK of R110. -/
def unpackLanes (w : WideWord) : Lanes := Vector.ofFn fun i => wordLane w i.val

/-- PACK of R111: every lane into a word of zeros. -/
def packLanes (L : Lanes) : WideWord :=
  (List.finRange 32).foldl (fun w i => setWordLane w i.val (L[i.val]'i.isLt)) 0

/-- The absolute lane index, 32 i + l, exact (R87, D21). -/
def absIndex (i l : Nat) : Nat := Config.lanes * i + l

/-- SrcRead(i) (R51). -/
def srcRead (p : Params) (m : Memory) (i : Nat) : WideWord :=
  m.readWord (p.src.base + Config.wordBytes * i)

/-- The address DstWrite(i, ·) stores to (R52, R53). -/
def dstAddr (p : Params) (i : Nat) : Nat := p.dst.base + Config.wordBytes * i

/-- DstWrite(i, w) (R52). -/
def dstWrite (p : Params) (m : Memory) (i : Nat) (w : WideWord) : Memory := m.writeWord (dstAddr p i) w

/-- ConstRead(k, j), for the region of array k (R54). -/
def constRead (m : Memory) (r : Region) (j : Nat) : Real64 := m.readConst (r.base + Config.constBytes * j)

/-- The pair of elements j of a pedestal and a gain array. -/
def pairRead (m : Memory) (p g : Region) (j : Nat) : ConstPair := ⟨constRead m p j, constRead m g j⟩

/-- The constants a lane uses, as POLICY and its mode code select them; none for mode code 2, which reads no
constant (R84, R87). -/
def lanePair (p : Params) (m : Memory) (raw : Lane) (j : Nat) : Option ConstPair :=
  match p.arrays with
  | .single P G => some (pairRead m P G j)
  | .multi p0 g0 p1 g1 p2 g2 =>
    if rawMode raw = 0 then some (pairRead m p0 g0 j)
    else if rawMode raw = 1 then some (pairRead m p1 g1 j)
    else if rawMode raw = 3 then some (pairRead m p2 g2 j)
    else none

/-- The dispatch key of a lane, with the constants that stand with it (R87, R95). -/
def laneEncoded (p : Params) (m : Memory) (raw : Lane) (j : Nat) : Encoded :=
  .key (laneKey p.policy raw) (lanePair p m raw j)

/-- Field n of a staging word, bits reinterpreted as binary64 (R89). -/
def stageField (s : WideWord) (n : Nat) : Real64 := s.extractLsb' (64 * n) 64

/-- The eight fields of a staging word in order (R89). -/
def stageFields (s : WideWord) : List Real64 := (List.range 8).map (stageField s)

/-- The N values staged from a list of words: field m of word q is element 8 q + m, and the fields beyond element
N - 1 are ignored (R89, R90). -/
def stagedArray (words : List WideWord) (n : Nat) : List Real64 := (words.flatMap stageFields).take n

/-- Element j of CONST[k] out of N values staged from a linear source that lies as STAGE_LAYOUT says (R8, R90,
D17). The layout's form, one place of one source for each element, is the model's (log 2, DESIGN CHOICE).
`Config.stageLayout` is the platform's. -/
def stagedConst (layout : Nat → Nat → Nat) (source : List WideWord) (n k j : Nat) : Option Real64 :=
  (stagedArray source n)[layout k j]?

/-- How many staging words N values take: ceil(N / 8) (R90). -/
def stagingWords (n : Nat) : Nat := (n + 7) / 8

end Sys2Proof.Machine
end

