-- ==== Sys2Proof/Machine/Batch.lean ====
section
/-! DEFINITION. The two batch operations (spec/42_batch.md R151, R152): each is the host's START with the
POLICY its name says (R33, R172). The packets it starts are processed by Machine/Sequencer.lean. -/

namespace Sys2Proof.Machine

/-- BATCH.S n src dst p g (R151). -/
def execBatchS (n : BitVec 64) (src dst p g : Region) (s : State) : Host.Outcome State Fault Refusal :=
  .next (s.start ⟨n, src, dst, .single p g⟩)

/-- BATCH.M n src dst p0 g0 p1 g1 p2 g2 (R152). -/
def execBatchM (n : BitVec 64) (src dst p0 g0 p1 g1 p2 g2 : Region) (s : State) :
    Host.Outcome State Fault Refusal :=
  .next (s.start ⟨n, src, dst, .multi p0 g0 p1 g1 p2 g2⟩)

end Sys2Proof.Machine
end

