-- ==== Sys2Proof/Machine/Codec.lean ====
section
/-! DEFINITION. The packed-word codec (spec/40_codec.md): UNPACK and PACK. Both are pure (R114): only the
result is written, and no memory is touched. -/

namespace Sys2Proof.Machine

/-- UNPACK w (R110). -/
def execUnpack (w : WideWord) (s : State) : Host.Outcome State Fault Refusal :=
  .next (s.setLanesIn (unpackLanes w))

/-- PACK l[0..31] (R111). -/
def execPack (L : Lanes) (s : State) : Host.Outcome State Fault Refusal :=
  .next (s.setWord (packLanes L))

end Sys2Proof.Machine
end

