-- ==== Sys2Proof/Machine/Transform.lean ====
section
/-! DEFINITION. The calibration transform (spec/41_transform.md): RNDA, NARROW16, the shared core CAL and the
five transforms of the dispatch table. -/

namespace Sys2Proof.Machine

/-- RNDA v (R120). For a v that is not finite, outside the operands R120 admits, the integer is a free value
(log 7). -/
def execRnda (v : Real64) (s : State) : Host.Outcome State Fault Refusal :=
  if Binary64.isFinite v then .next (s.setRounded (Binary64.roundHalfAway v))
  else .next ((s.setRounded (Config.drawInt s.draws)).useDraws 1)

/-- NARROW16 k (R121). -/
def execNarrow16 (k : Int) (s : State) : Host.Outcome State Fault Refusal :=
  .next (s.setLane (Binary64.narrow16 k))

/-- v of CAL: (a - p) × g in two separately rounded binary64 operations (R122, D4, D5). -/
def calProduct (a : Lane) (p g : Real64) : Real64 :=
  Binary64.mul64 (Binary64.sub64 (Binary64.to64 a.toNat) p) g

/-- CAL(a, p, g) (R122): the narrowed rounding of a finite v, any 16 bits for a v that is not (D8, log 5). -/
def calibrate (a : Lane) (p g : Real64) (s : State) : State :=
  let v := calProduct a p g
  if Binary64.isFinite v then s.setLane (Binary64.narrow16 (Binary64.roundHalfAway v))
  else (s.setLane (Config.drawLane s.draws)).useDraws 1

/-- XFORM.S raw, p, g (R123): the whole lane is the magnitude. -/
def execXformS (raw : Lane) (p g : Real64) (s : State) : Host.Outcome State Fault Refusal :=
  .next (calibrate raw p g s)

/-- XFORM.M0 raw, p0, g0 (R125). -/
def execXformM0 (raw : Lane) (p g : Real64) (s : State) : Host.Outcome State Fault Refusal :=
  .next (calibrate (magnitude14 raw) p g s)

/-- XFORM.M1 raw, p1, g1 (R126). -/
def execXformM1 (raw : Lane) (p g : Real64) (s : State) : Host.Outcome State Fault Refusal :=
  .next (calibrate (magnitude14 raw) p g s)

/-- XFORM.INV raw (R128): SENTINEL, whatever the magnitude bits and the constants hold. -/
def execXformInv (_raw : Lane) (s : State) : Host.Outcome State Fault Refusal :=
  .next (s.setLane Config.sentinel)

/-- XFORM.M3 raw, p2, g2 (R127). -/
def execXformM3 (raw : Lane) (p g : Real64) (s : State) : Host.Outcome State Fault Refusal :=
  .next (calibrate (magnitude14 raw) p g s)

end Sys2Proof.Machine
end

