-- ==== Sys2Proof/Machine/Dispatch.lean ====
section
/-! DEFINITION. One arm per operation of the opcode table. -/

namespace Sys2Proof.Machine

def exec (i : Instr) (s : State) : Host.Outcome State Fault Refusal :=
  match i with
  | .unpack w => Sys2Proof.Machine.execUnpack w s
  | .pack lanes => Sys2Proof.Machine.execPack lanes s
  | .rnda v => Sys2Proof.Machine.execRnda v s
  | .narrow16 k => Sys2Proof.Machine.execNarrow16 k s
  | .xformS raw p g => Sys2Proof.Machine.execXformS raw p g s
  | .xformM0 raw p g => Sys2Proof.Machine.execXformM0 raw p g s
  | .xformM1 raw p g => Sys2Proof.Machine.execXformM1 raw p g s
  | .xformInv raw => Sys2Proof.Machine.execXformInv raw s
  | .xformM3 raw p g => Sys2Proof.Machine.execXformM3 raw p g s
  | .batchS n src dst p g => Sys2Proof.Machine.execBatchS n src dst p g s
  | .batchM n src dst p0 g0 p1 g1 p2 g2 => Sys2Proof.Machine.execBatchM n src dst p0 g0 p1 g1 p2 g2 s

end Sys2Proof.Machine
end

