-- ==== Sys2Proof/Machine/HostPort.lean ====
section
/-! DEFINITION. The host's actions (spec/60_exceptions.md R184): reset, START, the reads and the writes. -/

namespace Sys2Proof.Machine

/-- The host cannot see this byte: it lies in DST[0 .. NPACKETS) of the batch that is RUNNING (R63). Of DST in FAULT,
and in IDLE after a reset in mid-batch, the spec does not say what a host read answers (R27, R63, R191 and R195 speak
of RUNNING and of DONE): here it answers the contents. Log 28, DESIGN CHOICE, unsafe. -/
def State.hides (s : State) (a : Nat) : Bool :=
  decide (s.phase = .running) && (match s.params with | none => false | some p => p.inDst a)

/-- The n bytes the host reads from an address up: contents, and drawn bytes for what it cannot see. The first
two numbers are the address and which draw comes next. -/
def State.seenBytes (s : State) : Nat → Nat → Nat → List Byte
  | _, _, 0 => []
  | a, d, n + 1 =>
    (if s.hides a then Config.drawByte d else s.mem.read a) :: s.seenBytes (a + 1) (d + 1) n

/-- The answer of a host read, which changes nothing of the block (R22, R28, R59). -/
def State.answer (s : State) (r : Reply) : State := { s with reply := some r }

/-- Some byte of the n from addr up lies in a used range of the batch that is RUNNING (R64). -/
def State.disturbs (s : State) (addr n : Nat) : Bool :=
  decide (s.phase = .running) &&
    (match s.params with
      | none => false
      | some p => p.ranges.any fun r => r.overlaps ⟨addr, n⟩)

/-- A host write: it lands, and into a used range while RUNNING it is a fault as well (R176, R184). -/
def State.hostWrite (s : State) (addr : Nat) (bytes : List Byte) : State :=
  if s.disturbs addr bytes.length then
    State.enterFault { s with mem := s.mem.writeBytes addr bytes } [.hostWrite]
  else { s with mem := s.mem.writeBytes addr bytes }

/-- One action of the host. A read or a write has its effect at every address: MEM_SIZE decides the START check
alone (R8, R184, log 15). -/
def hostAct (a : HostAction) (s : State) : Host.Outcome State Fault Refusal :=
  match a with
  | .reset => .next s.resetBlock
  | .start record =>
    match decode (.invoke record) with
    | .ok i => exec i s
    | .error e => .refused (.undecodable e)
  | .readPhase => .next (s.answer (.phase s.phase))
  | .readFaults => .next (s.answer (.faults s.faults))
  | .readMem addr n => .next ((s.answer (.bytes (s.seenBytes addr s.draws n))).useDraws n)
  | .writeMem addr bytes => .next (s.hostWrite addr bytes)

end Sys2Proof.Machine
end

