-- ==== Sys2Proof/Machine/Launch.lean ====
section
/-! DEFINITION. Placing an encoded operation where the next step takes its operation from (log 12). No step of
the machine uses it. -/

namespace Sys2Proof.Machine

/-- A batch of one packet that withFetchWord places a KEY in: SRC at 0, DST at 64, CONST[k] at 128 + 256 k. -/
def fetchParams (policy : BitVec 1) : Params where
  npackets := 1
  src := ⟨0, 1⟩
  dst := ⟨64, 1⟩
  arrays :=
    if policy = 0 then .single ⟨128, 32⟩ ⟨384, 32⟩
    else .multi ⟨128, 32⟩ ⟨384, 32⟩ ⟨640, 32⟩ ⟨896, 32⟩ ⟨1152, 32⟩ ⟨1408, 32⟩

/-- Operand words of zero: element 0 of every constant array of the batch. -/
def zeroConstants (m : Memory) : List Region → Memory
  | [] => m
  | r :: rs => zeroConstants (m.writeConst r.base 0) rs

/-- s with an encoded operation where the next step takes its operation from: a START at the head of the
agenda, or a KEY as lane 0 of a packet in hand, the next move being a worker's (log 12). -/
def State.placeEncoded (s : State) : Encoded → State
  | .invoke r => { s with agenda := .host (.start r) :: s.agenda }
  | .key key _ =>
    { s with
      phase := .running
      params := some (fetchParams (key.extractLsb' 16 1))
      hands := [⟨0, .lane 0, zeroLanes.set 0 (keyRaw key), zeroLanes, 0⟩]
      mem := zeroConstants s.mem (fetchParams (key.extractLsb' 16 1)).arrays.regions
      agenda := .worker 0 :: s.agenda }

end Sys2Proof.Machine
end

