-- ==== Sys2Proof/Machine/Sequencer.lean ====
section
/-! DEFINITION. What the workers do (spec/42_batch.md R153 to R156, R179): take up an enabled packet, then UNPACK,
one transform per lane, PACK, and the word write with DONESET and completion. R153 lets a model split PROCESS(i)
so, because the lanes are independent (R129); log 1. As many packets may be in hand as there are workers, and
their parts interleave in any way (R155); log 2. -/

namespace Sys2Proof.Machine

/-- f after an operation that completes. -/
def mapNext (f : State → State) : Host.Outcome State Fault Refusal → Host.Outcome State Fault Refusal
  | .next s => .next (f s)
  | .fault r => .fault r
  | .refused r => .refused r

/-- The packet in hand with index i, if some worker has it. -/
def State.inHand (s : State) (i : Nat) : Option Hand := s.hands.find? fun h => h.index == i

/-- h in the place of the packet in hand of its index; the result it was made from is taken over (log 10). -/
def State.putBack (s : State) (h : Hand) : State :=
  { s with hands := s.hands.map fun g => if g.index = h.index then h else g, dp := Datapath.zero }

/-- After UNPACK: L is its result, lane 0 is next (R153). -/
def State.retireUnpack (h : Hand) (s : State) : State :=
  s.putBack { h with stage := .lane 0, lanesIn := s.dp.lanesIn }

/-- The stage after lane l: the next lane, or PACK after lane 31. -/
def Stage.afterLane (l : Fin 32) : Stage :=
  if h : l.val + 1 < 32 then .lane ⟨l.val + 1, h⟩ else .pack

/-- After the transform of lane l: O[l] is its result (R153). -/
def State.retireLane (h : Hand) (l : Fin 32) (s : State) : State :=
  s.putBack { h with stage := Stage.afterLane l, lanesOut := h.lanesOut.set l.val s.dp.lane l.isLt }

/-- After PACK: the word write is next. -/
def State.retirePack (h : Hand) (s : State) : State := s.putBack { h with stage := .write, word := s.dp.word }

/-- The end of PROCESS(i): DstWrite(i, PACK(O)), DONESET ∪ {i}, and DONE with the last packet, in one step
(R153, R154). Of the packet in hand nothing survives it (R30). -/
def State.finishPacket (s : State) (p : Params) (h : Hand) : State :=
  { s with
    mem := dstWrite p s.mem h.index h.word
    doneSet := insertIndex h.index s.doneSet
    phase := if complete p.count (insertIndex h.index s.doneSet) then .done else s.phase
    hands := s.hands.filter fun g => g.index != h.index
    dp := Datapath.zero }

/-- The guard of PROCESS(i) while RUNNING: i < NPACKETS and i ∉ DONESET (R153). -/
def enabled (p : Params) (s : State) (i : Nat) : Bool := decide (i < p.count) && !s.doneSet.contains i

/-- Packet i as a worker takes it up: nothing of its PROCESS step is done. -/
def Hand.fresh (i : Nat) : Hand := ⟨i, .unpack, zeroLanes, zeroLanes, 0⟩

/-- A worker takes up packet i, if its guard holds and a worker is free (R153, R179, log 3). -/
def State.takePacket (s : State) (p : Params) (i : Nat) : State :=
  if enabled p s i && decide (s.hands.length < s.nworkers) then { s with hands := s.hands ++ [Hand.fresh i] }
  else s

/-- The next part of the PROCESS step of a packet in hand. A lane goes through the decoder by its key (R95,
R124). -/
def processStep (p : Params) (h : Hand) (s : State) : Host.Outcome State Fault Refusal :=
  match h.stage with
  | .unpack => mapNext (State.retireUnpack h) (exec (.unpack (srcRead p s.mem h.index)) s)
  | .lane l =>
    match decode (laneEncoded p s.mem (h.lanesIn[l.val]'l.isLt) (absIndex h.index l.val)) with
    | .ok i => mapNext (State.retireLane h l) (exec i s)
    | .error e => .refused (.undecodable e)
  | .pack => mapNext (State.retirePack h) (exec (.pack h.lanesOut) s)
  | .write => .next (s.finishPacket p h)

/-- A worker goes on with packet i, or takes it up. -/
def workOn (p : Params) (i : Nat) (s : State) : Host.Outcome State Fault Refusal :=
  match s.inHand i with
  | some h => processStep p h s
  | none => .next (s.takePacket p i)

/-! Which packet a worker goes on with where no move is named: any one (R155, log 4). -/

/-- The packets done or in hand, strictly rising. -/
def State.taken (s : State) : List Nat := s.hands.foldr (fun h l => insertIndex h.index l) s.doneSet

/-- How many packets may be taken up: none unless a worker is free (R179). -/
def State.untaken (s : State) (p : Params) : Nat :=
  if s.hands.length < s.nworkers then remaining p.count s.taken else 0

/-- The k-th packet to go on with: those in hand, then those that may be taken up. -/
def State.candidate (s : State) (k : Nat) : Nat :=
  match s.hands[k]? with
  | some h => h.index
  | none => nthMissing 0 s.taken (k - s.hands.length)

/-- A worker goes on with any packet: the only one, or one of a free choice (R155, log 4). -/
def workAny (p : Params) (s : State) : Host.Outcome State Fault Refusal :=
  match s.hands.length + s.untaken p with
  | 0 => .next s
  | 1 => workOn p (s.candidate 0) s
  | n + 2 => workOn p (s.candidate (Config.pick s.draws % (n + 2))) (s.useDraws 1)

/-- A worker's move: enabled only while RUNNING (R153); in every other phase nothing happens (R183). -/
def workerMove (choice : Option Nat) (s : State) : Host.Outcome State Fault Refusal :=
  if s.phase = .running then
    match s.params with
    | none => .next s
    | some p =>
      match choice with
      | some i => workOn p i s
      | none => workAny p s
  else .next s

end Sys2Proof.Machine
end

