-- ==== Sys2Proof/Machine/Step.lean ====
section
/-! DEFINITION. One step: the next move of the agenda, a worker's once it is used up (log 3); and the placing
of an operation for the very next step. -/

namespace Sys2Proof.Machine

/-- One step of the machine. -/
def step (s : State) : Host.Outcome State Fault Refusal :=
  match s.agenda with
  | [] => workerMove none s
  | .worker i :: rest => workerMove (some i) { s with agenda := rest }
  | .host a :: rest => hostAct a { s with agenda := rest }

/-- s with the operation whose bits are w stored where step fetches it (log 11, log 12). -/
def State.withFetchWord (s : State) (nbits w : Nat) : State :=
  match tableEncoded nbits w with
  | none => s
  | some e => s.placeEncoded e

end Sys2Proof.Machine
end

