-- ==== Sys2Proof/Safety.lean ====
section
/-! DEFINITION. The terms claims use: what a sound state is, when a START is clean, what a correctly rounded
binary64 result is, and the lane values a batch defines (spec/42_batch.md R150). Nothing here is used by the
machine. -/

namespace Sys2Proof.Safety

open Sys2Proof.Machine

/-! ### START -/

/-- The batch operation that carries a record: BATCH.S or BATCH.M, as its arrays are two or six (R91). -/
def batchOf (p : Params) : Instr :=
  match p.arrays with
  | .single P G => .batchS p.npackets p.src p.dst P G
  | .multi p0 g0 p1 g1 p2 g2 => .batchM p.npackets p.src p.dst p0 g0 p1 g1 p2 g2

/-- a is one of the `size` addresses from a base up. -/
def InBytes (x : Nat × Nat) (a : Nat) : Prop := x.1 ≤ a ∧ a < x.1 + x.2

/-- The used bytes of R61, of SRC, DST and each CONST[k]: base and size. -/
def usedBytes (p : Params) : List (Nat × Nat) :=
  (p.src.base, 64 * p.npackets.toNat) :: (p.dst.base, 64 * p.npackets.toNat) ::
    p.arrays.regions.map fun r => (r.base, 8 * (32 * p.npackets.toNat))

/-- The bytes of DST[0 .. NPACKETS). -/
def dstBytes (p : Params) : Nat × Nat := (p.dst.base, 64 * p.npackets.toNat)

/-- The contract violation each reason of R172 stands for, said of addresses and exact numbers. BUSY and
HOST_WRITE are no violation of a record. -/
def Violates (p : Params) (memSize : Nat) : Reason → Prop
  | .misaligned => ∃ r ∈ p.src :: p.dst :: p.arrays.regions, ¬ 64 ∣ r.base
  | .srcExtent => p.src.length < p.npackets.toNat
  | .dstExtent => p.dst.length < p.npackets.toNat
  | .constExtent => ∃ r ∈ p.arrays.regions, r.length < 32 * p.npackets.toNat
  | .overlap => ¬ (usedBytes p).Pairwise fun x y => ∀ a, InBytes x a → ¬ InBytes y a
  | .outOfRange => ∃ x ∈ usedBytes p, ∃ a, InBytes x a ∧ memSize ≤ a
  | .busy => False
  | .hostWrite => False

/-- Every check of R172 passes. -/
def Clean (p : Params) (memSize : Nat) : Prop := ∀ r, ¬ Violates p memSize r

/-! ### Sound states -/

/-- What holds of the state at reset and is kept by every step. -/
structure Inv (s : State) : Prop where
  /-- Memory is in its canonical form. -/
  memCanonical : s.mem.wf = true
  /-- DONESET is strictly rising (R27). -/
  doneRising : s.doneSet.Pairwise (· < ·)
  /-- FAULTS is in code order. -/
  faultsRising : s.faults.Pairwise fun a b => a.code < b.code
  /-- FAULTS is non-empty exactly in FAULT (R28). -/
  faultsExact : s.faults ≠ [] ↔ s.phase = .fault
  /-- IDLE: PARAMS unset, DONESET empty (R22, R32). -/
  idleUnset : s.phase = .idle → s.params = none ∧ s.doneSet = []
  /-- RUNNING: an accepted PARAMS, DONESET below NPACKETS, some packet unprocessed (R22, R27). -/
  runningAccepted : s.phase = .running → ∃ p, s.params = some p ∧ Clean p s.memSize ∧
    (∀ i ∈ s.doneSet, i < p.npackets.toNat) ∧ ∃ i, i < p.npackets.toNat ∧ i ∉ s.doneSet
  /-- DONE: DONESET = [0, NPACKETS) (R22, R27). -/
  doneFull : s.phase = .done → ∃ p, s.params = some p ∧ ∀ i, i ∈ s.doneSet ↔ i < p.npackets.toNat
  /-- There is a worker (R8). -/
  workers : 0 < s.nworkers
  /-- No more packets are in hand than there are workers (R179). -/
  handsFit : s.hands.length ≤ s.nworkers
  /-- No two workers have one packet in hand (R156). -/
  handsDistinct : (s.hands.map Hand.index).Nodup
  /-- Outside RUNNING no packet is in hand (R153). -/
  handsNone : s.phase ≠ .running → s.hands = []
  /-- While RUNNING every packet in hand is an unprocessed one (R153). -/
  handsRunning : s.phase = .running → ∀ p, s.params = some p → ∀ h ∈ s.hands,
    h.index < p.npackets.toNat ∧ h.index ∉ s.doneSet
  /-- No result outlives the step it belongs to (R30). -/
  dpClear : s.dp = Datapath.zero

/-! ### Arithmetic -/

/-- Round half away from zero, on an exact value (R120). -/
def awayFromZero (q : Rat) : Int := if 0 ≤ q then ⌊q + 1 / 2⌋ else ⌈q - 1 / 2⌉

/-- r is the exact value q rounded to binary64, to nearest with ties to the even fraction, from
2^1024 - 2^970 on to infinity with q's sign (R13). -/
def RoundsTo (q : Rat) (r : Real64) : Prop :=
  if (2 : Rat) ^ 1024 - 2 ^ 970 ≤ |q| then
    Binary64.isInf r = true ∧ (Binary64.sign r = true ↔ q < 0)
  else
    Binary64.isFinite r = true ∧
      ∀ y, Binary64.isFinite y = true →
        |Binary64.real r - q| ≤ |Binary64.real y - q| ∧
          (|Binary64.real r - q| = |Binary64.real y - q| → Binary64.real y ≠ Binary64.real r →
            Binary64.fraction r % 2 = 0)

/-- What CAL(a, p, g) leaves (R122): only the lane result changes, and for a product that is not finite the
counter of free values; a finite product is rounded half away from zero and wraps. -/
def Calibrated (a : Nat) (p g : Real64) (s t : State) : Prop :=
  let v := Binary64.mul64 (Binary64.sub64 (Binary64.to64 a) p) g
  if Binary64.isFinite v = true then
    (t.dp.lane.toNat : Int) = awayFromZero (Binary64.real v) % 65536 ∧
      t = { s with dp := { s.dp with lane := t.dp.lane } }
  else
    t = { s with dp := { s.dp with lane := Config.drawLane s.draws }, draws := s.draws + 1 }

/-! ### The result of a batch -/

/-- CAL's 16 bits, or none where they are a draw (R122). -/
def calValue (a : Lane) (c : ConstPair) : Option Lane :=
  let v := Binary64.mul64 (Binary64.sub64 (Binary64.to64 a.toNat) c.p) c.g
  if Binary64.isFinite v then some (BitVec.ofInt 16 (awayFromZero (Binary64.real v))) else none

/-- T(L[l], 32 i + l) of R150 to R152: lane l of word i of the batch's result, or none where it is a draw. -/
def batchLane (p : Params) (m : Memory) (i l : Nat) : Option Lane :=
  let raw : Lane := (srcRead p m i).extractLsb' (16 * l) 16
  let pair (P G : Region) : ConstPair := ⟨constRead m P (32 * i + l), constRead m G (32 * i + l)⟩
  match p.arrays with
  | .single P G => calValue raw (pair P G)
  | .multi p0 g0 p1 g1 p2 g2 =>
    match (raw >>> 14).toNat with
    | 0 => calValue (raw &&& 0x3FFF#16) (pair p0 g0)
    | 1 => calValue (raw &&& 0x3FFF#16) (pair p1 g1)
    | 2 => some (BitVec.ofInt 16 (-32676))
    | _ => calValue (raw &&& 0x3FFF#16) (pair p2 g2)

/-- Lane l of the word at DST[i]. -/
def dstLane (p : Params) (m : Memory) (i l : Nat) : Lane :=
  (m.readWord (p.dst.base + 64 * i)).extractLsb' (16 * l) 16

/-- The next move is a worker's: the agenda is used up or names a worker. `rest` is what is left of it. -/
def WorkersTurn (s : State) (rest : List Move) : Prop :=
  (s.agenda = [] ∧ rest = []) ∨ ∃ i, s.agenda = .worker i :: rest

/-- An order of the 72 moves that process packets i and j: one packet after the other or, where there are two workers,
any interleaving (R62, R155). -/
def OrderOfTwo (nworkers i j : Nat) (order : List Nat) : Prop :=
  order = List.replicate 36 i ++ List.replicate 36 j ∨ order = List.replicate 36 j ++ List.replicate 36 i ∨
    (2 ≤ nworkers ∧ order.Perm (List.replicate 36 i ++ List.replicate 36 j))

end Sys2Proof.Safety
end

