-- ==== Sys2Proof/Certificates/Slice0/Obligations.lean ====
section
/-! DEFINITION. The statements for the provers, each with the rule of spec/ it formalises. -/

open Sys2Proof Sys2Proof.Machine Sys2Proof.Safety

/-! ### The codec -/

/-- R110. UNPACK completes in every state; lane i of its result is bits [16i+15 : 16i] of w, unsigned; nothing
else of the state changes, memory and control state included; nothing encodes it. -/
def Obligations.UnpackSplitsWordIntoLanes : Prop :=
  ∀ (w : WideWord) (s : State), ∃ t, exec (.unpack w) s = .next t ∧
    (∀ i : Fin 32, (t.dp.lanesIn[i.val]'i.isLt).toNat = w.toNat / 2 ^ (16 * i.val) % 2 ^ 16) ∧
    t = { s with dp := { s.dp with lanesIn := t.dp.lanesIn } } ∧ encode (.unpack w) = none

/-- R111. PACK completes in every state; bit b of lane i is bit 16i+b of its result, and every bit of the
result is one of these; nothing else of the state changes; nothing encodes it. -/
def Obligations.PackPlacesEveryLane : Prop :=
  ∀ (L : Lanes) (s : State), ∃ t, exec (.pack L) s = .next t ∧
    (∀ (i : Fin 32) (b : Nat), b < 16 →
      t.dp.word.getLsbD (16 * i.val + b) = (L[i.val]'i.isLt).getLsbD b) ∧
    t = { s with dp := { s.dp with word := t.dp.word } } ∧ encode (.pack L) = none

/-- R112. PACK(UNPACK(w)) = w, run as two operations. -/
def Obligations.PackUndoesUnpack : Prop :=
  ∀ (w : WideWord) (s : State), ∃ t u, exec (.unpack w) s = .next t ∧
    exec (.pack t.dp.lanesIn) t = .next u ∧ u.dp.word = w

/-- R113. UNPACK(PACK(L)) = L, run as two operations. -/
def Obligations.UnpackUndoesPack : Prop :=
  ∀ (L : Lanes) (s : State), ∃ t u, exec (.pack L) s = .next t ∧
    exec (.unpack t.dp.word) t = .next u ∧ u.dp.lanesIn = L

/-! ### Rounding and narrowing -/

/-- R120. RNDA of a finite value completes with floor(q + 1/2) for q ≥ 0 and ceil(q - 1/2) for q < 0, on the
exact value q, an integer of magnitude at most 2^1024; nothing else changes; nothing encodes it. -/
def Obligations.RndaRoundsExactly : Prop :=
  ∀ (v : Real64) (s : State), Binary64.isFinite v = true → ∃ k : Int,
    exec (.rnda v) s = .next { s with dp := { s.dp with rounded := k } } ∧
    k = (if 0 ≤ Binary64.real v then ⌊Binary64.real v + 1 / 2⌋ else ⌈Binary64.real v - 1 / 2⌉) ∧
    k.natAbs ≤ 2 ^ 1024 ∧ encode (.rnda v) = none

/-- The law R120 quotes, as C6 reads it: the result is within 1/2 of the exact value, and at a midpoint it is
the integer of larger magnitude. -/
def Obligations.RndaIsNearestAwayAtTies : Prop :=
  ∀ (v : Real64) (s : State), Binary64.isFinite v = true → ∃ t, exec (.rnda v) s = .next t ∧
    |Binary64.real v - (t.dp.rounded : Rat)| ≤ 1 / 2 ∧
    (|Binary64.real v - (t.dp.rounded : Rat)| = 1 / 2 → |Binary64.real v| < |(t.dp.rounded : Rat)|)

/-- The model's choice of log 7 (DESIGN CHOICE): R120 states no result for an operand that is not finite; RNDA
runs, its integer is a free value, and one free value has been taken. -/
def Obligations.RndaOfNonFiniteIsFree : Prop :=
  ∀ (v : Real64) (s : State), Binary64.isFinite v = false →
    exec (.rnda v) s = .next { s with
      dp := { s.dp with rounded := Config.drawInt s.draws }, draws := s.draws + 1 }

/-- R121. NARROW16 of every integer completes with k mod 2^16, read in two's complement; nothing else changes;
nothing encodes it. -/
def Obligations.Narrow16Wraps : Prop :=
  ∀ (k : Int) (s : State), ∃ t, exec (.narrow16 k) s = .next t ∧
    (t.dp.lane.toNat : Int) = k % 65536 ∧
    t.dp.lane.toInt = (if k % 65536 < 32768 then k % 65536 else k % 65536 - 65536) ∧
    t = { s with dp := { s.dp with lane := t.dp.lane } } ∧ encode (.narrow16 k) = none

/-! ### Binary64 -/

/-- R13. The difference of finite values is the exact difference rounded once; an exact zero is +0. -/
def Obligations.SubtractionRoundsOnce : Prop :=
  ∀ x y : Real64, Binary64.isFinite x = true → Binary64.isFinite y = true →
    RoundsTo (Binary64.real x - Binary64.real y) (Binary64.sub64 x y) ∧
    (Binary64.real x = Binary64.real y → Binary64.sub64 x y = 0)

/-- R13. The product of finite values is the exact product rounded once; an exact zero has the exclusive or of
the operands' signs. -/
def Obligations.MultiplicationRoundsOnce : Prop :=
  ∀ x y : Real64, Binary64.isFinite x = true → Binary64.isFinite y = true →
    RoundsTo (Binary64.real x * Binary64.real y) (Binary64.mul64 x y) ∧
    (Binary64.real x * Binary64.real y = 0 →
      Binary64.mul64 x y =
        if Binary64.sign x = Binary64.sign y then 0 else 0x8000000000000000)

/-- R13. The conversion of every integer in [0, 65535] is exact. -/
def Obligations.ConversionIsExact : Prop :=
  ∀ n : Nat, n ≤ 65535 →
    Binary64.isFinite (Binary64.to64 n) = true ∧ Binary64.real (Binary64.to64 n) = (n : Rat)

/-- R13. Operands that are not finite: a NaN operand, infinity minus infinity of one sign and zero times
infinity give a NaN; the other operations on an infinity give the infinity IEEE 754 gives. -/
def Obligations.NonFiniteArithmetic : Prop :=
  ∀ x y : Real64,
    (Binary64.isNaN x = true ∨ Binary64.isNaN y = true →
      Binary64.isNaN (Binary64.sub64 x y) = true ∧ Binary64.isNaN (Binary64.mul64 x y) = true) ∧
    (Binary64.isInf x = true → Binary64.isInf y = true →
      (if Binary64.sign x = Binary64.sign y then Binary64.isNaN (Binary64.sub64 x y) = true
       else Binary64.sub64 x y = x) ∧
      Binary64.mul64 x y = Binary64.infinity (Binary64.sign x != Binary64.sign y)) ∧
    (Binary64.isInf x = true → Binary64.isFinite y = true →
      Binary64.sub64 x y = x ∧ Binary64.sub64 y x = Binary64.infinity (!Binary64.sign x) ∧
      (if Binary64.real y = 0 then
        Binary64.isNaN (Binary64.mul64 x y) = true ∧ Binary64.isNaN (Binary64.mul64 y x) = true
       else
        Binary64.mul64 x y = Binary64.infinity (Binary64.sign x != Binary64.sign y) ∧
        Binary64.mul64 y x = Binary64.infinity (Binary64.sign x != Binary64.sign y)))

/-! ### The transforms -/

/-- R122, R123. XFORM.S completes in every state for every raw lane and all constants; its lane is CAL of the
whole 16 bits; nothing else changes (but the counter of free values where the product is not finite, log 5). It
is what every key with key AND 0x10000 = 0x00000 decodes to. -/
def Obligations.XformSCalibratesWholeLane : Prop :=
  ∀ (raw : Lane) (p g : Real64) (s : State), ∃ t, exec (.xformS raw p g) s = .next t ∧
    Calibrated raw.toNat p g s t ∧
    ∀ (key : BitVec 17) (c : ConstPair), key &&& 0x10000 = 0x00000 →
      decode (.key key (some c)) = .ok (.xformS (keyRaw key) c.p c.g)

/-- R122, R125. XFORM.M0 completes; its lane is CAL of bits 13:0 with the pair it is given. It is what every
key with key AND 0x1C000 = 0x10000 decodes to. -/
def Obligations.XformM0CalibratesMagnitude : Prop :=
  ∀ (raw : Lane) (p g : Real64) (s : State), ∃ t, exec (.xformM0 raw p g) s = .next t ∧
    Calibrated (raw.toNat % 16384) p g s t ∧
    ∀ (key : BitVec 17) (c : ConstPair), key &&& 0x1C000 = 0x10000 →
      decode (.key key (some c)) = .ok (.xformM0 (keyRaw key) c.p c.g)

/-- R122, R126. XFORM.M1 completes; its lane is CAL of bits 13:0 with the pair it is given. It is what every
key with key AND 0x1C000 = 0x14000 decodes to. -/
def Obligations.XformM1CalibratesMagnitude : Prop :=
  ∀ (raw : Lane) (p g : Real64) (s : State), ∃ t, exec (.xformM1 raw p g) s = .next t ∧
    Calibrated (raw.toNat % 16384) p g s t ∧
    ∀ (key : BitVec 17) (c : ConstPair), key &&& 0x1C000 = 0x14000 →
      decode (.key key (some c)) = .ok (.xformM1 (keyRaw key) c.p c.g)

/-- R122, R127. XFORM.M3 completes; its lane is CAL of bits 13:0 with the pair it is given. It is what every
key with key AND 0x1C000 = 0x1C000 decodes to. -/
def Obligations.XformM3CalibratesMagnitude : Prop :=
  ∀ (raw : Lane) (p g : Real64) (s : State), ∃ t, exec (.xformM3 raw p g) s = .next t ∧
    Calibrated (raw.toNat % 16384) p g s t ∧
    ∀ (key : BitVec 17) (c : ConstPair), key &&& 0x1C000 = 0x1C000 →
      decode (.key key (some c)) = .ok (.xformM3 (keyRaw key) c.p c.g)

/-- R128. XFORM.INV completes with 0x805C, which reads as -32676, whatever the raw lane; nothing else changes. It
is what every key with key AND 0x1C000 = 0x18000 decodes to, with no constants. -/
def Obligations.XformInvGivesSentinel : Prop :=
  ∀ (raw : Lane) (s : State), ∃ t, exec (.xformInv raw) s = .next t ∧
    t.dp.lane = 0x805C ∧ t.dp.lane.toInt = -32676 ∧ t = { s with dp := { s.dp with lane := 0x805C } } ∧
    ∀ key : BitVec 17, key &&& 0x1C000 = 0x18000 → decode (.key key none) = .ok (.xformInv (keyRaw key))

/-- R129. A transform depends on its operands alone: in any two states it either takes a free value in both, or
in neither, and then the lane is the same; it touches nothing but the lane and the counter of free values. -/
def Obligations.TransformsAreFunctionsOfOperands : Prop :=
  ∀ i : Instr, i.format = .key → ∃ (free : Bool) (c : Lane), ∀ s : State,
    exec i s =
      if free then .next { s with
        dp := { s.dp with lane := Config.drawLane s.draws }, draws := s.draws + 1 }
      else .next { s with dp := { s.dp with lane := c } }

/-- R122, a corner case: with a pedestal in [0, 16384] and a gain of magnitude at most 2 (R88) the product is
finite, so the lane is no draw. -/
def Obligations.DocumentedConstantsNeverDraw : Prop :=
  ∀ (raw : Lane) (p g : Real64), Binary64.isFinite p = true → Binary64.isFinite g = true →
    0 ≤ Binary64.real p → Binary64.real p ≤ 16384 → |Binary64.real g| ≤ 2 →
    ∀ s : State, ∃ c : Lane,
      exec (.xformS raw p g) s = .next { s with dp := { s.dp with lane := c } } ∧
      exec (.xformM0 raw p g) s = exec (.xformM1 raw p g) s ∧
      exec (.xformM1 raw p g) s = exec (.xformM3 raw p g) s ∧
      ∃ d : Lane, exec (.xformM0 raw p g) s = .next { s with dp := { s.dp with lane := d } }

/-- R123, a corner case: with p = 0.0 and g = 1.0, XFORM.S returns its raw lane bit for bit. -/
def Obligations.XformSIdentityConstants : Prop :=
  ∀ (raw : Lane) (s : State),
    exec (.xformS raw 0x0000000000000000 0x3FF0000000000000) s =
      .next { s with dp := { s.dp with lane := raw } }

/-! ### Encoding -/

/-- R95. Every one of the 2^17 keys matches exactly one row of the decode table, and the row is the one the
table's condition names. -/
def Obligations.KeyTableIsComplete : Prop :=
  (∀ key : BitVec 17, ∃! r, r ∈ keyTable ∧ key &&& r.mask = r.pattern) ∧
  (∀ raw : Lane, selectKey (laneKey .single raw) = some .s) ∧
  (∀ raw : Lane, selectKey (laneKey .multi raw) =
    match (raw >>> 14).toNat with
    | 0 => some .m0
    | 1 => some .m1
    | 2 => some .inv
    | _ => some .m3)

/-- R91, R95, R96. Decode and encode agree: a well-formed operation of format KEY or INVOKE has an encoding,
with every operand at every value, and decoding it gives the operation back; an INTERNAL one has none. -/
def Obligations.DecodeOfEncodeIsIdentity : Prop :=
  ∀ i : Instr, i.wellFormed = true →
    if i.format = .internal then encode i = none
    else ∃ e, encode i = some e ∧ e.format = i.format ∧ decode e = .ok i

/-- R91, R95, R97. The other way: what the decoder accepts is well-formed and is the encoding of what it gives,
so that no two operations share an encoding; every key is accepted with the constants its operation reads, and
every record with K arrays. -/
def Obligations.EncodeOfDecodeIsIdentity : Prop :=
  (∀ (e : Encoded) (i : Instr), decode e = .ok i → i.wellFormed = true ∧ encode i = some e) ∧
  (∀ (key : BitVec 17) (c : ConstPair), ∃ i,
    decode (.key key (if selectKey key = some .inv then none else some c)) = .ok i) ∧
  (∀ r : InvokeRecord, r.consts.length = (if r.policy = 0 then 2 else 6) → ∃ i, decode (.invoke r) = .ok i) ∧
  (∀ r : InvokeRecord, r.consts.length ≠ (if r.policy = 0 then 2 else 6) →
    decode (.invoke r) = .error .arrayCount)

/-- R91, R95. A few words written out from the tables, in the bit numbering of the opcode table. -/
def Obligations.WrittenOutWordsDecode : Prop :=
  decodeTableWord 24 0b0_1000000000000001 = some (.xformS 0x8001 0 0) ∧
  decodeTableWord 24 0b1_00_11111111111111 = some (.xformM0 0x3FFF 0 0) ∧
  decodeTableWord 24 0b1_01_00000000110010 = some (.xformM1 0x4032 0 0) ∧
  decodeTableWord 24 0b1_10_00000100100011 = some (.xformInv 0x8123) ∧
  decodeTableWord 24 0b1_11_00001111101000 = some (.xformM3 0xC3E8 0 0) ∧
  decodeTableWord 8 0 = some (.batchS 0 ⟨0, 0⟩ ⟨0, 0⟩ ⟨0, 0⟩ ⟨0, 0⟩) ∧
  decodeTableWord 8 1 =
    some (.batchM 0 ⟨0, 0⟩ ⟨0, 0⟩ ⟨0, 0⟩ ⟨0, 0⟩ ⟨0, 0⟩ ⟨0, 0⟩ ⟨0, 0⟩ ⟨0, 0⟩)

/-! ### Operands and memory -/

/-- R53. In a canonical memory, a wide word written at an address is 64 bytes, byte b holding bits [8b+7 : 8b],
reads back as itself, and leaves every other address alone; and reading a word or a constant takes its bytes in the same order. -/
def Obligations.WordsAndConstantsAreLittleEndian : Prop :=
  ∀ (m : Memory) (a : Nat) (w : WideWord), m.wf = true →
    (∀ b, b < 64 → (m.writeWord a w).read (a + b) = w.extractLsb' (8 * b) 8) ∧
    (∀ x, x < a ∨ a + 64 ≤ x → (m.writeWord a w).read x = m.read x) ∧
    (m.writeWord a w).readWord a = w ∧
    (∀ b, b < 64 → (m.readWord a).extractLsb' (8 * b) 8 = m.read (a + b)) ∧
    (∀ b, b < 8 → (m.readConst a).extractLsb' (8 * b) 8 = m.read (a + b))

/-- R55. Lane l of word i of SRC is the two bytes at offset 64 i + 2 l, the low byte at the lower address; and a
staging word in a constant region is its eight fields, field n at offset 8 n. -/
def Obligations.LanesAndFieldsInMemory : Prop :=
  (∀ (p : Params) (m : Memory) (i : Nat) (l : Fin 32),
    ((srcRead p m i).extractLsb' (16 * l.val) 16).toNat =
      (m.read (p.src.base + 64 * i + 2 * l.val)).toNat +
        256 * (m.read (p.src.base + 64 * i + 2 * l.val + 1)).toNat) ∧
  (∀ (m : Memory) (r : Region) (q : Nat) (s : WideWord) (n : Fin 8),
    m.wf = true → constRead (m.writeWord (r.base + 64 * q) s) r (8 * q + n.val) = s.extractLsb' (64 * n.val) 64)

/-- R89, R90. Of N values staged from a list of words, element j is field j mod 8 of word j / 8, bits unchanged;
there is none from N on, whatever the last word holds there; ceil(N / 8) words hold N values, and 32 NPACKETS values
fill 4 NPACKETS words exactly. The model's choice in the last clause: R8 and R90 leave STAGE_LAYOUT open, and the
model takes it in the form of log 2 (DESIGN CHOICE), one place of one linear source for each element j of CONST[k];
the clause holds for every layout of that form. -/
def Obligations.StagingFormat : Prop :=
  (∀ (words : List WideWord) (n q : Nat) (m : Fin 8) (s : WideWord), words[q]? = some s →
    (stagedArray words n)[8 * q + m.val]? =
      if 8 * q + m.val < n then some (s.extractLsb' (64 * m.val) 64) else none) ∧
  (∀ (words : List WideWord) (n : Nat), words.length = stagingWords n → (stagedArray words n).length = n) ∧
  (∀ n : Nat, n ≤ 8 * stagingWords n ∧ 8 * stagingWords n < n + 8) ∧
  (∀ n : Nat, stagingWords (32 * n) = 4 * n) ∧
  (∀ (layout : Nat → Nat → Nat) (source : List WideWord) (n k j : Nat) (s : WideWord),
    layout k j < n → source[layout k j / 8]? = some s →
    stagedConst layout source n k j = some (s.extractLsb' (64 * (layout k j % 8)) 64))

/-- R87, R124. The operation a lane is handed to, with its constants: under SINGLE always XFORM.S with elements
abs of P and G, under MULTI the one its top two bits name, with that mode's pair, and no constant for code 2. -/
def Obligations.LaneDispatchAndOperands : Prop :=
  ∀ (n : BitVec 64) (src dst : Region) (m : Memory) (raw : Lane) (i : Nat) (l : Fin 32),
    (∀ P G : Region,
      decode (laneEncoded ⟨n, src, dst, .single P G⟩ m raw (absIndex i l.val)) =
        .ok (.xformS raw (m.readConst (P.base + 8 * (32 * i + l.val)))
          (m.readConst (G.base + 8 * (32 * i + l.val))))) ∧
    (∀ p0 g0 p1 g1 p2 g2 : Region,
      decode (laneEncoded ⟨n, src, dst, .multi p0 g0 p1 g1 p2 g2⟩ m raw (absIndex i l.val)) =
        match (raw >>> 14).toNat with
        | 0 => .ok (.xformM0 raw (m.readConst (p0.base + 8 * (32 * i + l.val)))
            (m.readConst (g0.base + 8 * (32 * i + l.val))))
        | 1 => .ok (.xformM1 raw (m.readConst (p1.base + 8 * (32 * i + l.val)))
            (m.readConst (g1.base + 8 * (32 * i + l.val))))
        | 2 => .ok (.xformInv raw)
        | _ => .ok (.xformM3 raw (m.readConst (p2.base + 8 * (32 * i + l.val)))
            (m.readConst (g2.base + 8 * (32 * i + l.val)))))

/-- The model's memory form: two canonical memories that read the same everywhere are equal data, and every
write keeps the form. -/
def Obligations.CanonicalMemoryIsUnique : Prop :=
  (∀ m k : Memory, m.wf = true → k.wf = true → (∀ a, m.read a = k.read a) → m = k) ∧
  (∀ (m : Memory) (a : Nat) (bs : List Byte), m.wf = true → (m.writeBytes a bs).wf = true)

/-! ### Batches -/

/-- R33, R151, R152. START in IDLE or DONE with every check of R172 passed: BATCH.S and BATCH.M complete, PARAMS
is latched, DONESET is empty, the phase is RUNNING, or DONE for an empty batch; nothing else of the block or of
memory changes. The model's reading: Clean takes OUT_OF_RANGE on the used ranges (log 13, DEDUCED, unsafe), and no
packet is in hand and no transient value left (log 18). -/
def Obligations.CleanStartIsAccepted : Prop :=
  ∀ (p : Params) (s : State), s.phase = .idle ∨ s.phase = .done → Clean p s.memSize →
    exec (batchOf p) s = .next { s with
      phase := if p.npackets = 0 then .done else .running
      params := some p
      doneSet := []
      hands := []
      dp := Datapath.zero }

/-- R172, R174. START in IDLE or DONE with some check failed: FAULTS holds exactly the reasons of the failing
checks, the phase is FAULT, and nothing else of the block or of memory changes. The model's reading: OUT_OF_RANGE
is taken on the used ranges (log 13, DEDUCED, unsafe), and no transient value is left (log 18). -/
def Obligations.FailedStartRecordsEveryReason : Prop :=
  ∀ (p : Params) (s : State), s.phase = .idle ∨ s.phase = .done → ¬ Clean p s.memSize →
    ∃ t, exec (batchOf p) s = .next t ∧ (∀ r, r ∈ t.faults ↔ Violates p s.memSize r) ∧
      t = { s with phase := .fault, faults := t.faults, hands := [], dp := Datapath.zero }

/-- R33, R173, R175. START while RUNNING is the BUSY fault, code 7, and changes nothing else of the block or of
memory (packets in hand are dropped with their transient values, log 18); START in FAULT is ignored. Both batch
operations. -/
def Obligations.StartWhileRunningOrFaulted : Prop :=
  ∀ (p : Params) (s : State),
    (s.phase = .running →
      exec (batchOf p) s = .next { s with
        phase := .fault, faults := [.busy], hands := [], dp := Datapath.zero } ∧ Reason.busy.code = 7) ∧
    (s.phase = .fault → exec (batchOf p) s = .next s)

/-- R158. An empty batch goes straight to DONE with no byte of memory written; of the checks only MISALIGNED
can fail. -/
def Obligations.EmptyBatchIsDoneAtOnce : Prop :=
  ∀ (p : Params) (s : State), p.npackets = 0 → s.phase = .idle ∨ s.phase = .done →
    ∃ t, exec (batchOf p) s = .next t ∧ t.mem = s.mem ∧
      if ∀ r ∈ p.src :: p.dst :: p.arrays.regions, 64 ∣ r.base then
        t.phase = .done ∧ t.faults = s.faults ∧ t.params = some p
      else t.phase = .fault ∧ t.faults = [.misaligned]

/-! ### Reset and the host -/

/-- R32, R190. The state after reset. -/
def Obligations.ResetValues : Prop :=
  State.reset.phase = .idle ∧ State.reset.params = none ∧ State.reset.doneSet = [] ∧ State.reset.faults = []

/-- R190, R191. Reset from any phase: IDLE, PARAMS unset, DONESET and FAULTS empty, no byte of memory changed. The
model's reading: the packets in hand and the results go, and MEM_SIZE, CONST_CAPACITY, NWORKERS, the counter of free
values, the last reply and the rest of the agenda stay (log 22, DEDUCED). -/
def Obligations.ResetLeavesMemory : Prop :=
  ∀ (s : State) (rest : List Move), s.agenda = .host .reset :: rest →
    step s = .next { s with
      phase := .idle, params := none, doneSet := [], faults := [], hands := [], dp := Datapath.zero,
      agenda := rest }

/-- R64, R176. A host write that touches a used byte while RUNNING lands, FAULTS becomes {HOST_WRITE}, the phase
becomes FAULT; nothing else of the block or of memory changes (packets in hand are dropped with their
transient values, log 18). -/
def Obligations.HostWriteWhileRunningFaults : Prop :=
  ∀ (s : State) (p : Params) (addr : Nat) (bytes : List Byte) (rest : List Move),
    s.mem.wf = true → s.phase = .running → s.params = some p →
    s.agenda = .host (.writeMem addr bytes) :: rest →
    (∃ x ∈ usedBytes p, ∃ a, InBytes x a ∧ InBytes (addr, bytes.length) a) →
    ∃ t, step s = .next t ∧ t.phase = .fault ∧ t.faults = [.hostWrite] ∧
      (∀ k (h : k < bytes.length), t.mem.read (addr + k) = bytes[k]) ∧
      (∀ a, ¬ InBytes (addr, bytes.length) a → t.mem.read a = s.mem.read a) ∧
      t = { s with
        phase := .fault, faults := [.hostWrite], mem := t.mem, hands := [], dp := Datapath.zero,
        agenda := rest }

/-- R184. A host write outside the used bytes while RUNNING, and any host write in the other phases, lands with
no other effect, at every address (log 15). -/
def Obligations.OtherHostWritesJustLand : Prop :=
  ∀ (s : State) (addr : Nat) (bytes : List Byte) (rest : List Move),
    s.mem.wf = true →
    s.agenda = .host (.writeMem addr bytes) :: rest →
    (s.phase = .running → ∀ p, s.params = some p →
      ∀ x ∈ usedBytes p, ∀ a, InBytes x a → ¬ InBytes (addr, bytes.length) a) →
    ∃ t, step s = .next t ∧
      (∀ k (h : k < bytes.length), t.mem.read (addr + k) = bytes[k]) ∧
      (∀ a, ¬ InBytes (addr, bytes.length) a → t.mem.read a = s.mem.read a) ∧
      t = { s with mem := t.mem, agenda := rest }

/-- R63. A host read of memory: the contents, but for the bytes of DST[0 .. NPACKETS) while RUNNING, each of
which is the free value of a number of its own, never drawn before. It changes nothing of the block and no memory
(the reply, the counter of free values and the agenda are the model's own, log 3, log 6, log 20). That DST is seen as
it is in FAULT, and in IDLE after a reset in mid-batch, is the model's choice (log 28). -/
def Obligations.HostReadSeesContentsOrDraws : Prop :=
  ∀ (s : State) (addr n : Nat) (rest : List Move), s.agenda = .host (.readMem addr n) :: rest →
    ∃ bs : List Byte,
      step s = .next { s with reply := some (.bytes bs), draws := s.draws + n, agenda := rest } ∧
      bs.length = n ∧
      ∀ k, k < n →
        (s.phase = .running ∧ (∃ p, s.params = some p ∧ InBytes (dstBytes p) (addr + k)) →
          bs[k]? = some (Config.drawByte (s.draws + k))) ∧
        (¬ (s.phase = .running ∧ ∃ p, s.params = some p ∧ InBytes (dstBytes p) (addr + k)) →
          bs[k]? = some (s.mem.read (addr + k)))

/-- R22, R28. Reading `phase` or FAULTS answers it, in any phase, without a side effect. -/
def Obligations.ReadingControlStateHasNoSideEffect : Prop :=
  ∀ (s : State) (rest : List Move),
    (s.agenda = .host .readPhase :: rest →
      step s = .next { s with reply := some (.phase s.phase), agenda := rest }) ∧
    (s.agenda = .host .readFaults :: rest →
      step s = .next { s with reply := some (.faults s.faults), agenda := rest })

/-! ### A step runs the decoded operation -/

/-- A worker's step on a lane of a packet in hand runs the operation its key decodes to, and stores the result as
O[l] (R124, R153; the split of PROCESS is log 1). -/
def Obligations.StepRunsDecodedTransform : Prop :=
  ∀ (s : State) (p : Params) (h : Hand) (l : Fin 32) (rest : List Move) (op : Instr),
    s.phase = .running → s.params = some p → s.agenda = .worker h.index :: rest →
    s.inHand h.index = some h → h.stage = .lane l →
    decode (laneEncoded p s.mem (h.lanesIn[l.val]'l.isLt) (absIndex h.index l.val)) = .ok op →
    ∃ t, exec op { s with agenda := rest } = .next t ∧
      step s = .next { t with
        dp := Datapath.zero
        hands := s.hands.map fun g =>
          if g.index = h.index then { h with
            stage := if h : l.val + 1 < 32 then .lane ⟨l.val + 1, h⟩ else .pack
            lanesOut := h.lanesOut.set l.val t.dp.lane l.isLt }
          else g }

/-- A worker's step on a packet just taken up runs UNPACK of SrcRead(i), and on a packet whose lanes are done PACK
of lanes_out (R96, R153; the split of PROCESS is log 1). -/
def Obligations.StepRunsUnpackAndPack : Prop :=
  ∀ (s : State) (p : Params) (h : Hand) (rest : List Move),
    s.phase = .running → s.params = some p → s.agenda = .worker h.index :: rest → s.inHand h.index = some h →
    (h.stage = .unpack → ∃ t,
      exec (.unpack (s.mem.readWord (p.src.base + 64 * h.index))) { s with agenda := rest } = .next t ∧
      step s = .next { t with
        dp := Datapath.zero
        hands := s.hands.map fun g =>
          if g.index = h.index then { h with stage := .lane 0, lanesIn := t.dp.lanesIn } else g }) ∧
    (h.stage = .pack → ∃ t,
      exec (.pack h.lanesOut) { s with agenda := rest } = .next t ∧
      step s = .next { t with
        dp := Datapath.zero
        hands := s.hands.map fun g =>
          if g.index = h.index then { h with stage := .write, word := t.dp.word } else g })

/-- The host's START runs the batch operation its record decodes to, and a record of another shape has no run
(R91, D33; log 16). -/
def Obligations.StepRunsDecodedStart : Prop :=
  ∀ (s : State) (r : InvokeRecord) (rest : List Move), s.agenda = .host (.start r) :: rest →
    (∀ op, decode (.invoke r) = .ok op → step s = exec op { s with agenda := rest }) ∧
    (∀ e, decode (.invoke r) = .error e → step s = .refused (.undecodable e))

/-- withFetchWord places what the decoder reads: the very next step runs exactly that operation, a START by
itself, a KEY as lane 0 of the one packet in hand, whose raw lane is the key's low 16 bits (log 12). -/
def Obligations.FetchedWordRunsNext : Prop :=
  ∀ (s : State) (w : Nat) (op : Instr),
    (decodeTableWord 8 w = some op → step (s.withFetchWord 8 w) = exec op s) ∧
    (s.mem.wf = true → decodeTableWord 24 w = some op →
      ∃ u, exec op { s.withFetchWord 24 w with agenda := s.agenda } = .next u ∧
        step (s.withFetchWord 24 w) = .next { u with
          dp := Datapath.zero
          hands := [⟨0, .lane 1, zeroLanes.set 0 (BitVec.ofNat 16 w), zeroLanes.set 0 u.dp.lane, 0⟩] })

/-! ### PROCESS -/

/-- R153, R154. The last part of PROCESS(i): DST[i] is the packed word, DONESET gains i, and the phase is DONE
exactly when no packet is missing; no other byte of memory, no other packet in hand and nothing else changes, and of
the packet itself nothing survives (R30). -/
def Obligations.PacketWriteCompletes : Prop :=
  ∀ (s : State) (p : Params) (h : Hand) (rest : List Move), Inv s →
    s.phase = .running → s.params = some p → h ∈ s.hands → h.stage = .write →
    s.agenda = .worker h.index :: rest →
    ∃ t, step s = .next t ∧ t.mem.readWord (p.dst.base + 64 * h.index) = h.word ∧
      (∀ a, ¬ InBytes (p.dst.base + 64 * h.index, 64) a → t.mem.read a = s.mem.read a) ∧
      (∀ j, j ∈ t.doneSet ↔ j = h.index ∨ j ∈ s.doneSet) ∧
      (t.phase = if ∀ j, j < p.npackets.toNat → j ∈ t.doneSet then .done else .running) ∧
      (∀ g, g ∈ t.hands ↔ g ∈ s.hands ∧ g ≠ h) ∧
      t = { s with
        mem := t.mem, doneSet := t.doneSet, phase := t.phase, hands := t.hands, dp := Datapath.zero,
        agenda := rest }

/-- R153, R155, R179. Any enabled packet may be taken up next: a worker told to go on with a packet that is in no
worker's hand takes it up exactly when i < NPACKETS, i is not in DONESET and fewer than NWORKERS packets are in hand,
and otherwise does nothing. -/
def Obligations.AnyEnabledPacketMayBeNext : Prop :=
  ∀ (s : State) (p : Params) (i : Nat) (rest : List Move),
    s.phase = .running → s.params = some p → (∀ h ∈ s.hands, h.index ≠ i) → s.agenda = .worker i :: rest →
    step s = .next { s with
      agenda := rest
      hands :=
        if i < p.npackets.toNat ∧ i ∉ s.doneSet ∧ s.hands.length < s.nworkers then
          s.hands ++ [⟨i, .unpack, zeroLanes, zeroLanes, 0⟩]
        else s.hands }

/-- R155, R160. While RUNNING there is always a packet to go on with: with no move named, the step is that of a
worker told to go on with some packet that is in hand, or that is enabled with a worker free to take it up (which one
is the free value of log 4, so that at most one free value is used up). -/
def Obligations.SomePacketIsAlwaysWorkedOn : Prop :=
  ∀ (s : State) (p : Params), Inv s → s.phase = .running → s.params = some p → s.agenda = [] →
    ∃ i d, d ≤ 1 ∧ step s = step { s with agenda := [.worker i], draws := s.draws + d } ∧
      ((∃ h ∈ s.hands, h.index = i) ∨
        (i < p.npackets.toNat ∧ i ∉ s.doneSet ∧ (∀ h ∈ s.hands, h.index ≠ i) ∧ s.hands.length < s.nworkers))

/-- R153. PROCESS(i) as a whole: with a worker free for it, 36 steps on packet i later its word is in DST[i], every
lane whose product is finite as R150 says, every other byte of memory and every other packet in hand is unchanged,
DONESET has gained i, and the phase is DONE exactly when no packet is missing; of packet i nothing else survives
(R30). -/
def Obligations.ProcessPacketWritesItsWord : Prop :=
  ∀ (s : State) (p : Params) (i : Nat), Inv s → s.phase = .running → s.params = some p →
    i < p.npackets.toNat → i ∉ s.doneSet → (∀ h ∈ s.hands, h.index ≠ i) → s.hands.length < s.nworkers →
    s.agenda = List.replicate 36 (.worker i) →
    ∃ t, Host.Core.run core 36 s = .next t ∧
      (∀ (l : Fin 32) (c : Lane), batchLane p s.mem i l.val = some c → dstLane p t.mem i l.val = c) ∧
      (∀ a, ¬ InBytes (p.dst.base + 64 * i, 64) a → t.mem.read a = s.mem.read a) ∧
      (∀ j, j ∈ t.doneSet ↔ j = i ∨ j ∈ s.doneSet) ∧
      (t.phase = if ∀ j, j < p.npackets.toNat → j ∈ t.doneSet then .done else .running) ∧
      t.params = some p ∧ t.faults = s.faults ∧ t.hands = s.hands ∧ t.dp = Datapath.zero ∧ t.agenda = []

/-- R62, R155, R159. Two packets may be processed in either order, and where there are two workers in any
interleaving: in every order of their moves every lane whose product is finite has R150's value, every byte outside
the two slots is unchanged, DONESET and phase are the same, and where every lane is finite all of memory is the same
data. -/
def Obligations.PacketOrderDoesNotMatter : Prop :=
  ∀ (s : State) (p : Params) (i j : Nat), Inv s → s.phase = .running → s.params = some p → s.hands = [] →
    i < p.npackets.toNat → j < p.npackets.toNat → i ∉ s.doneSet → j ∉ s.doneSet → i ≠ j →
    ∀ order order' : List Nat, OrderOfTwo s.nworkers i j order → OrderOfTwo s.nworkers i j order' →
    ∃ t u,
      Host.Core.run core 72 { s with agenda := order.map .worker } = .next t ∧
      Host.Core.run core 72 { s with agenda := order'.map .worker } = .next u ∧
      t.doneSet = u.doneSet ∧ t.phase = u.phase ∧ t.params = u.params ∧ t.faults = u.faults ∧
      t.hands = [] ∧ u.hands = [] ∧
      (∀ k, k = i ∨ k = j → ∀ (l : Fin 32) (c : Lane), batchLane p s.mem k l.val = some c →
        dstLane p t.mem k l.val = c ∧ dstLane p u.mem k l.val = c) ∧
      (∀ a, ¬ InBytes (p.dst.base + 64 * i, 64) a → ¬ InBytes (p.dst.base + 64 * j, 64) a →
        t.mem.read a = s.mem.read a ∧ u.mem.read a = s.mem.read a) ∧
      ((∀ l : Fin 32, (batchLane p s.mem i l.val).isSome ∧ (batchLane p s.mem j l.val).isSome) →
        t.mem = u.mem)

/-- R150, R151, R152, R159, R160. A batch started clean and left to the workers reaches DONE after exactly
NPACKETS packets of 36 steps; then every lane of DST[0 .. NPACKETS) whose product is finite is BatchResult's,
and every byte outside DST[0 .. NPACKETS) is what it was. The model's reading: Clean takes OUT_OF_RANGE on the used
ranges (log 13, DEDUCED, unsafe). -/
def Obligations.CleanBatchReachesItsResult : Prop :=
  ∀ (s : State) (r : InvokeRecord) (p : Params), Inv s → s.phase = .idle ∨ s.phase = .done →
    decode (.invoke r) = .ok (batchOf p) → Clean p s.memSize → s.agenda = [.host (.start r)] →
    ∃ t, Host.Core.run core (1 + 36 * p.npackets.toNat) s = .next t ∧ t.phase = .done ∧
      t.params = some p ∧ t.faults = [] ∧
      (∀ i, i < p.npackets.toNat → ∀ (l : Fin 32) (c : Lane),
        batchLane p s.mem i l.val = some c → dstLane p t.mem i l.val = c) ∧
      (∀ a, ¬ InBytes (dstBytes p) a → t.mem.read a = s.mem.read a)

/-! ### Rules of the whole machine -/

/-- The invariant holds at reset. -/
def Obligations.InvariantHoldsAtReset : Prop := Inv State.reset

/-- R22, R27, R28, R30. The invariant is kept by every step, from every state that has it. -/
def Obligations.EveryStepKeepsInvariant : Prop :=
  ∀ s t : State, Inv s → step s = .next t → Inv t

/-- R170, R151. Every operation answers a next state, for every operand, in every state; no operation of the codec
or of the transform raises a fault (R11), for it leaves phase and FAULTS as they were; and no worker's step raises
one, so that a batch raises none but at its START. -/
def Obligations.NoOperationStops : Prop :=
  (∀ (i : Instr) (s : State), ∃ t, exec i s = .next t ∧
    (i.format ≠ .invoke → t.phase = s.phase ∧ t.faults = s.faults)) ∧
  (∀ (s : State) (rest : List Move), WorkersTurn s rest → ∃ t, step s = .next t ∧ t.faults = s.faults ∧
    (t.phase = .fault ↔ s.phase = .fault))

/-- Where the machine stops: a step is refused, by the name arrayCount, where the host starts a record whose number
of constant arrays is not K (log 16), and every other step answers a next state. -/
def Obligations.OnlyTheHostStopsTheMachine : Prop :=
  (∀ (s : State) (r : InvokeRecord) (rest : List Move), s.agenda = .host (.start r) :: rest →
    r.consts.length ≠ (if r.policy = 0 then 2 else 6) → step s = .refused (.undecodable .arrayCount)) ∧
  (∀ s : State,
    (∀ r rest, s.agenda = .host (.start r) :: rest → r.consts.length = if r.policy = 0 then 2 else 6) →
    ∃ t, step s = .next t)

/-- R8. The open parameters: no step changes NWORKERS, MEM_SIZE or CONST_CAPACITY; no step's effect depends on
CONST_CAPACITY; MEM_SIZE is read at a START only, and there by the OUT_OF_RANGE check only; NWORKERS is read by a
worker's step only, and by none on a packet named and in hand. -/
def Obligations.OpenParametersDecideNoValue : Prop :=
  (∀ s t : State, step s = .next t →
    t.nworkers = s.nworkers ∧ t.memSize = s.memSize ∧ t.constCapacity = s.constCapacity) ∧
  (∀ (s : State) (c : Nat),
    step { s with constCapacity := c } = mapNext (fun t => { t with constCapacity := c }) (step s)) ∧
  (∀ (s : State) (m : Nat), (∀ r rest, s.agenda ≠ .host (.start r) :: rest) →
    step { s with memSize := m } = mapNext (fun t => { t with memSize := m }) (step s)) ∧
  (∀ (p : Params) (s : State) (m : Nat), (Violates p s.memSize .outOfRange ↔ Violates p m .outOfRange) →
    exec (batchOf p) { s with memSize := m } =
      mapNext (fun t => { t with memSize := m }) (exec (batchOf p) s)) ∧
  (∀ (s : State) (n : Nat),
    (∃ a rest, s.agenda = .host a :: rest) ∨ (∃ h ∈ s.hands, ∃ rest, s.agenda = .worker h.index :: rest) →
    step { s with nworkers := n } = mapNext (fun t => { t with nworkers := n }) (step s))

/-- R33. `phase` changes only by the table's transitions. -/
def Obligations.PhaseChangesOnlyByTable : Prop :=
  ∀ s t : State, step s = .next t → t.phase ≠ s.phase →
    (∃ rest, s.agenda = .host .reset :: rest ∧ t.phase = .idle) ∨
    (∃ r rest, s.agenda = .host (.start r) :: rest ∧ (s.phase = .idle ∨ s.phase = .done) ∧
      (t.phase = .running ∨ t.phase = .done ∨ t.phase = .fault)) ∨
    (∃ r rest, s.agenda = .host (.start r) :: rest ∧ s.phase = .running ∧ t.phase = .fault ∧
      t.faults = [.busy]) ∨
    (∃ addr bs rest, s.agenda = .host (.writeMem addr bs) :: rest ∧ s.phase = .running ∧
      t.phase = .fault ∧ t.faults = [.hostWrite]) ∨
    (∃ h ∈ s.hands, h.stage = .write ∧ s.phase = .running ∧ t.phase = .done)

/-- R25. PARAMS changes only by a START in IDLE or DONE that ends in RUNNING or DONE, or by reset. -/
def Obligations.ParamsChangeOnlyByStartOrReset : Prop :=
  ∀ s t : State, step s = .next t → t.params ≠ s.params →
    (∃ rest, s.agenda = .host .reset :: rest ∧ t.params = none) ∨
    (∃ r rest p, s.agenda = .host (.start r) :: rest ∧ decode (.invoke r) = .ok (batchOf p) ∧
      t.params = some p ∧ (s.phase = .idle ∨ s.phase = .done) ∧
      (t.phase = .running ∨ t.phase = .done) ∧ t.doneSet = [])

/-- R175. FAULT is sticky: no step but a reset leaves it, clears FAULTS or adds to it, or changes PARAMS or
DONESET. -/
def Obligations.FaultIsSticky : Prop :=
  ∀ s t : State, s.phase = .fault → (∀ rest, s.agenda ≠ .host .reset :: rest) → step s = .next t →
    t.phase = .fault ∧ t.faults = s.faults ∧ t.params = s.params ∧ t.doneSet = s.doneSet

/-- R70. A worker's step writes no byte outside DST[0 .. NPACKETS), and so none at or above MEM_SIZE (R60). -/
def Obligations.WorkersWriteOnlyDestination : Prop :=
  ∀ (s t : State) (rest : List Move), Inv s → WorkersTurn s rest → step s = .next t →
    (∀ a, (∀ p, s.params = some p → ¬ InBytes (dstBytes p) a) → t.mem.read a = s.mem.read a) ∧
    ∀ a, s.memSize ≤ a → t.mem.read a = s.mem.read a

/-- R156, R153, R183. A destination slot is written once per batch: in every phase, no worker's step changes a slot
in DONESET, and DONESET loses no packet; and outside RUNNING no packet is enabled, so that a worker's step changes
nothing but the agenda (log 19). -/
def Obligations.DestinationSlotWrittenOnce : Prop :=
  (∀ (s t : State) (rest : List Move), Inv s → WorkersTurn s rest → step s = .next t →
    ∀ i ∈ s.doneSet, i ∈ t.doneSet ∧ ∀ p, s.params = some p →
      ∀ a, InBytes (p.dst.base + 64 * i, 64) a → t.mem.read a = s.mem.read a) ∧
  (∀ (s : State) (rest : List Move), WorkersTurn s rest → s.phase ≠ .running →
    step s = .next { s with agenda := rest })
end

