-- ==== Sys2Proof/Laws/Binary64.lean ====
section
/-! SUPPORT. Binary64: a value is a whole number of units of 2^-1074, RNDA and NARROW16 on exact values, and
what `roundTo64` gives for every exact magnitude. -/

namespace Sys2Proof.Binary64

open Sys2Proof.Safety

/-! ### Values -/

theorem real_eq_fixed (x : Real64) : real x = (fixed x : Rat) / 2 ^ 1074 := by
  have h1 : (2 : Rat) ^ 1074 = 2 ^ 1022 * 2 ^ 52 := by rw [← pow_add]
  have hmag : (if expField x = 0 then (2 : Rat) ^ (-1022 : Int) * ((fraction x : Rat) / 2 ^ 52)
     else (2 : Rat) ^ ((expField x : Int) - 1023) * (1 + (fraction x : Rat) / 2 ^ 52)) =
      (fixedMag x : Rat) / 2 ^ 1074 := by
    unfold fixedMag significand
    split
    · next h =>
      rw [h, h1, zpow_neg, zpow_ofNat]
      push_cast
      field_simp
    · next h =>
      obtain ⟨k, hk⟩ := Nat.exists_eq_succ_of_ne_zero h
      rw [hk, h1, show ((k.succ : Nat) : Int) - 1023 = (k : Int) - 1022 by push_cast; ring,
        zpow_sub₀ (by norm_num), zpow_natCast, zpow_ofNat]
      simp only [Nat.succ_eq_add_one, Nat.add_sub_cancel]
      push_cast
      field_simp
      norm_num
  rw [real, hmag, fixed]
  generalize (2 : Rat) ^ 1074 = d
  split
  · push_cast; ring
  · push_cast; ring

theorem pow_1075 (a : Int) : a ^ 1075 = a * a ^ 1074 := pow_succ' a 1074

theorem floor_half (n : Int) (d : Nat) (hd : 0 < d) :
    ⌊(n : Rat) / d + 1 / 2⌋ = (2 * n + d) / (2 * d) := by
  have h : (n : Rat) / d + 1 / 2 = ((2 * n + d : Int) : Rat) / ((2 * d : Nat) : Rat) := by
    have : (d : Rat) ≠ 0 := by positivity
    push_cast
    field_simp
  rw [h, Rat.floor_intCast_div_natCast]
  push_cast
  rfl

/-- RNDA rounds the exact value half away from zero (R120). -/
theorem roundHalfAway_eq (v : Real64) : roundHalfAway v = awayFromZero (real v) := by
  rw [real_eq_fixed, awayFromZero, roundHalfAway, pow_1075]
  have hr : (2 : Rat) ^ 1074 = ((2 ^ 1074 : Nat) : Rat) := by rw [Nat.cast_pow, Nat.cast_ofNat]
  have hz : (2 : Int) ^ 1074 = ((2 ^ 1074 : Nat) : Int) := (Nat.cast_pow 2 1074).symm
  have hd : 0 < (2 ^ 1074 : Nat) := Nat.two_pow_pos 1074
  rw [hr, hz]
  generalize (2 ^ 1074 : Nat) = d at hd
  have hsign : (0 ≤ (fixed v : Rat) / d) ↔ 0 ≤ fixed v := by
    rw [div_nonneg_iff]
    have : (0 : Rat) < d := by exact_mod_cast hd
    constructor
    · rintro (h | h)
      · exact_mod_cast h.1
      · linarith
    · exact fun h => .inl ⟨by exact_mod_cast h, this.le⟩
  simp only [hsign]
  split
  · rw [floor_half _ _ hd]
  · have hc : ⌈(fixed v : Rat) / d - 1 / 2⌉ = -⌊((-fixed v : Int) : Rat) / d + 1 / 2⌋ := by
      rw [← Int.ceil_neg]; congr 1; push_cast; ring
    rw [hc, floor_half _ _ hd]

theorem narrow16_toNat (k : Int) : ((narrow16 k).toNat : Int) = k % 65536 := by
  rw [narrow16, BitVec.toNat_ofInt]
  omega

end Sys2Proof.Binary64
end

