-- ==== Sys2Proof/Laws/Codec.lean ====
section
/-! SUPPORT. The lanes of a word, bit by bit. -/

namespace Sys2Proof.Machine

@[simp] theorem getLsbD_wordLane (w : WideWord) (i b : Nat) :
    (wordLane w i).getLsbD b = (decide (b < 16) && w.getLsbD (16 * i + b)) := by
  simp [wordLane, BitVec.getLsbD_extractLsb']

@[simp] theorem getElem_unpackLanes (w : WideWord) (i : Nat) (h : i < 32) :
    (unpackLanes w)[i] = wordLane w i := by
  simp [unpackLanes]

/-- Writing lane i sets the sixteen bits from 16 i on and no other. -/
theorem getLsbD_setWordLane (w : WideWord) (i : Nat) (x : Lane) {j : Nat} (hj : j < 512) :
    (setWordLane w i x).getLsbD j =
      if 16 * i ≤ j ∧ j < 16 * i + 16 then x.getLsbD (j - 16 * i) else w.getLsbD j := by
  have hm : ((BitVec.allOnes 16).setWidth 512 <<< (16 * i)).getLsbD j =
      decide (16 * i ≤ j ∧ j < 16 * i + 16) := by
    rw [BitVec.getLsbD_shiftLeft, BitVec.getLsbD_setWidth, BitVec.getLsbD_allOnes]
    by_cases h1 : j < 16 * i
    · simp [h1]
    · rw [Bool.eq_iff_iff]; simp [h1, hj]; omega
  rw [setWordLane, BitVec.getLsbD_or, BitVec.getLsbD_and, BitVec.getLsbD_not, hm, BitVec.getLsbD_shiftLeft,
    BitVec.getLsbD_setWidth]
  split
  · next h => simp [hj, h, Nat.not_lt.2 h.1]; omega
  · next h =>
    rw [decide_eq_false h]
    by_cases h1 : j < 16 * i
    · simp [h1, hj]
    · have : x.getLsbD (j - 16 * i) = false := BitVec.getLsbD_of_ge _ _ (by omega)
      simp [this, hj]

/-- Lanes packed into a word one after the other: the lanes of the list hold theirs, the rest is as before. -/
theorem getLsbD_foldl_setWordLane (L : Lanes) (l : List (Fin 32)) (hl : l.Nodup) (w : WideWord) (i : Fin 32)
    {b : Nat} (hb : b < 16) :
    (l.foldl (fun w i => setWordLane w i.val (L[i.val]'i.isLt)) w).getLsbD (16 * i.val + b) =
      if i ∈ l then (L[i.val]'i.isLt).getLsbD b else w.getLsbD (16 * i.val + b) := by
  have hi := i.isLt
  induction l generalizing w with
  | nil => simp
  | cons k l ih =>
    obtain ⟨hk, hl⟩ := List.nodup_cons.1 hl
    rw [List.foldl_cons, ih hl, getLsbD_setWordLane w k.val _ (by omega)]
    by_cases hik : i = k
    · subst hik
      rw [if_neg hk, if_pos ⟨by omega, by omega⟩, if_pos List.mem_cons_self]
      congr 1; omega
    · have : i.val ≠ k.val := fun h => hik (Fin.ext h)
      have hn : ¬ (16 * k.val ≤ 16 * i.val + b ∧ 16 * i.val + b < 16 * k.val + 16) := by omega
      simp [hik, hn]

theorem getLsbD_packLanes (L : Lanes) (i : Fin 32) {b : Nat} (hb : b < 16) :
    (packLanes L).getLsbD (16 * i.val + b) = (L[i.val]'i.isLt).getLsbD b := by
  rw [packLanes, getLsbD_foldl_setWordLane L _ (List.nodup_finRange 32) _ i hb, if_pos (List.mem_finRange i)]

/-- A word is known by its lanes. -/
theorem word_ext {w v : WideWord}
    (h : ∀ (i : Fin 32) (b : Nat), b < 16 → w.getLsbD (16 * i.val + b) = v.getLsbD (16 * i.val + b)) : w = v := by
  apply BitVec.eq_of_getLsbD_eq
  intro j hj
  have := h ⟨j / 16, by omega⟩ (j % 16) (Nat.mod_lt _ (by norm_num))
  simpa [Nat.div_add_mod] using this

theorem wordLane_packLanes (L : Lanes) (i : Fin 32) : wordLane (packLanes L) i.val = L[i.val]'i.isLt := by
  apply BitVec.eq_of_getLsbD_eq
  intro b hb
  rw [getLsbD_wordLane, decide_eq_true hb, Bool.true_and, getLsbD_packLanes L i hb]

theorem packLanes_unpackLanes (w : WideWord) : packLanes (unpackLanes w) = w :=
  word_ext fun i b hb => by
    rw [getLsbD_packLanes _ i hb, getElem_unpackLanes, getLsbD_wordLane, decide_eq_true hb, Bool.true_and]

end Sys2Proof.Machine
end

