-- ==== Sys2Proof/Laws/DoneSet.lean ====
section
/-! SUPPORT. DONESET as a set: what insertion adds, that it stays strictly rising, and that the missing indices
are found. -/

namespace Sys2Proof.Machine

theorem mem_insertIndex (i j : Nat) (l : List Nat) : j ∈ insertIndex i l ↔ j = i ∨ j ∈ l := by
  induction l with
  | nil => simp [insertIndex]
  | cons x xs ih =>
    unfold insertIndex
    split
    · simp
    split
    · next h => simp [h]
    · simp only [List.mem_cons, ih]; tauto

theorem insertIndex_rising (i : Nat) {l : List Nat} (h : l.Pairwise (· < ·)) :
    (insertIndex i l).Pairwise (· < ·) := by
  induction l with
  | nil => simp [insertIndex]
  | cons x xs ih =>
    obtain ⟨h1, h2⟩ := List.pairwise_cons.1 h
    unfold insertIndex
    split
    · next hlt =>
      refine List.pairwise_cons.2 ⟨fun y hy => ?_, h⟩
      rcases List.mem_cons.1 hy with rfl | hy
      · exact hlt
      · exact hlt.trans (h1 y hy)
    split
    · exact h
    · next hlt hne =>
      refine List.pairwise_cons.2 ⟨fun y hy => ?_, ih h2⟩
      rcases (mem_insertIndex i y xs).1 hy with rfl | hy
      · omega
      · exact h1 y hy

theorem length_insertIndex {i : Nat} {l : List Nat} (h : i ∉ l) : (insertIndex i l).length = l.length + 1 := by
  induction l with
  | nil => rfl
  | cons x xs ih =>
    obtain ⟨hx, hxs⟩ := not_or.1 (mt List.mem_cons.2 h)
    unfold insertIndex
    split
    · rfl
    rw [List.length_cons, ih hxs, List.length_cons]

/-- Strictly rising lists with the same members are the same list. -/
theorem rising_ext {l k : List Nat} (hl : l.Pairwise (· < ·)) (hk : k.Pairwise (· < ·))
    (h : ∀ i, i ∈ l ↔ i ∈ k) : l = k :=
  ((List.perm_ext_iff_of_nodup (hl.imp fun h => Nat.ne_of_lt h) (hk.imp fun h => Nat.ne_of_lt h)).2
    h).eq_of_pairwise (fun a _ _ _ h1 h2 => absurd (h1.trans h2) (lt_irrefl a)) hl hk

theorem nthMissing_ge (k j : Nat) (l : List Nat) : k ≤ nthMissing k l j := by
  induction l generalizing k j with
  | nil => simp [nthMissing]
  | cons x xs ih =>
    unfold nthMissing
    split
    · exact ih k j
    split
    · omega
    · have := ih (x + 1) (j - (x - k)); omega

theorem nthMissing_not_mem (k j : Nat) {l : List Nat} (h : l.Pairwise (· < ·)) : nthMissing k l j ∉ l := by
  induction l generalizing k j with
  | nil => simp
  | cons x xs ih =>
    obtain ⟨h1, h2⟩ := List.pairwise_cons.1 h
    unfold nthMissing
    rw [List.mem_cons, not_or]
    split
    · have := nthMissing_ge k j xs
      exact ⟨by omega, ih k j h2⟩
    split
    · exact ⟨by omega, fun hm => by have := h1 _ hm; omega⟩
    · have := nthMissing_ge (x + 1) (j - (x - k)) xs
      exact ⟨by omega, ih _ _ h2⟩

/-- Below the first missing index, from k on, nothing is missing. -/
theorem mem_of_lt_nthMissing {k i : Nat} {l : List Nat} (h : l.Pairwise (· < ·)) (hk : k ≤ i)
    (hi : i < nthMissing k l 0) : i ∈ l := by
  induction l generalizing k with
  | nil => simp [nthMissing] at hi; omega
  | cons x xs ih =>
    obtain ⟨-, h2⟩ := List.pairwise_cons.1 h
    unfold nthMissing at hi
    split at hi
    · exact List.mem_cons_of_mem _ (ih h2 hk hi)
    split at hi
    · omega
    · rcases Nat.eq_or_lt_of_le (show x ≤ i by omega) with rfl | hlt
      · exact List.mem_cons_self
      · exact List.mem_cons_of_mem _ (ih h2 hlt (by rwa [show 0 - (x - k) = 0 by omega] at hi))

theorem complete_iff (n : Nat) {l : List Nat} (h : l.Pairwise (· < ·)) :
    complete n l = true ↔ ∀ i, i < n → i ∈ l := by
  rw [complete, decide_eq_true_eq]
  constructor
  · exact fun hn i hi => mem_of_lt_nthMissing h (Nat.zero_le i) (hi.trans_le hn)
  · exact fun hn => Nat.le_of_not_lt fun hlt => nthMissing_not_mem 0 0 h (hn _ hlt)

theorem nthMissing_lt_of_count {k n j : Nat} {l : List Nat} (h : l.Pairwise (· < ·))
    (hj : j + (l.filter fun i => decide (k ≤ i) && decide (i < n)).length + k < n) :
    nthMissing k l j < n := by
  induction l generalizing k j with
  | nil => simp [nthMissing] at *; omega
  | cons x xs ih =>
    obtain ⟨h1, h2⟩ := List.pairwise_cons.1 h
    unfold nthMissing
    split
    · next hx =>
      rw [List.filter_cons_of_neg (by simp; omega)] at hj
      exact ih h2 hj
    split
    · omega
    · next hx hg =>
      by_cases hxn : x < n
      · rw [List.filter_cons_of_pos (by simp; omega), List.length_cons] at hj
        have hc : (xs.filter fun i => decide (x + 1 ≤ i) && decide (i < n)) =
            xs.filter fun i => decide (k ≤ i) && decide (i < n) := by
          refine List.filter_congr fun i hi => ?_
          have := h1 i hi
          rw [decide_eq_true (show x + 1 ≤ i by omega), decide_eq_true (show k ≤ i by omega)]
        exact ih h2 (by rw [hc]; omega)
      · omega

theorem nthMissing_lt_of_remaining {n j : Nat} {l : List Nat} (h : l.Pairwise (· < ·))
    (hj : j < remaining n l) : nthMissing 0 l j < n := by
  refine nthMissing_lt_of_count h ?_
  simp only [remaining] at hj
  simp only [Nat.zero_le, decide_true, Bool.true_and]
  omega

/-- No packet remains exactly when none is missing. -/
theorem remaining_pos_of_missing {n i : Nat} {l : List Nat} (h : l.Pairwise (· < ·)) (hi : i < n)
    (hm : i ∉ l) : 0 < remaining n l := by
  rw [remaining]
  have hsub : (l.filter fun j => decide (j < n)) ⊆ (List.range n).filter fun j => decide (j ≠ i) := by
    intro j hj
    simp only [List.mem_filter, decide_eq_true_eq, List.mem_range] at hj ⊢
    exact ⟨hj.2, fun hji => hm (hji ▸ hj.1)⟩
  have hnd : (l.filter fun j => decide (j < n)).Nodup := (h.imp fun h => Nat.ne_of_lt h).filter _
  have hle := (hnd.subperm hsub).length_le
  have hlt : ((List.range n).filter fun j => decide (j ≠ i)).length < (List.range n).length :=
    List.length_filter_lt_length_iff_exists.2 ⟨i, List.mem_range.2 hi, by simp⟩
  rw [List.length_range] at hlt
  omega

end Sys2Proof.Machine
end

