-- ==== Sys2Proof/Laws/Key.lean ====
section
/-! SUPPORT. The decode table of R95 looks at the top three bits of a key and nothing else. -/

namespace Sys2Proof

/-- POLICY and the mode field, key[16:14]. -/
def keyTop (key : BitVec 17) : BitVec 3 := key.extractLsb' 14 3

theorem and_mask_multi (key : BitVec 17) : key &&& 0x1C000#17 = (keyTop key).setWidth 17 <<< 14 := by
  apply BitVec.eq_of_getLsbD_eq
  intro i hi
  interval_cases i <;> simp [keyTop]

theorem and_mask_single (key : BitVec 17) : key &&& 0x10000#17 = (keyTop key &&& 4#3).setWidth 17 <<< 14 := by
  apply BitVec.eq_of_getLsbD_eq
  intro i hi
  interval_cases i <;> simp [keyTop]

/-- The operation of R95's table, by the condition column. -/
def topOp (t : BitVec 3) : KeyOp :=
  match t.toNat with
  | 4 => .m0
  | 5 => .m1
  | 6 => .inv
  | 7 => .m3
  | _ => .s

/-- key AND mask, for the two masks of the table, as a function of the top three bits. -/
def maskedTop (mask : BitVec 17) (t : BitVec 3) : BitVec 17 :=
  if mask = 0x10000#17 then (t &&& 4#3).setWidth 17 <<< 14 else t.setWidth 17 <<< 14

theorem maskedTop_single (t : BitVec 3) : maskedTop 0x10000#17 t = (t &&& 4#3).setWidth 17 <<< 14 := if_pos rfl

theorem maskedTop_multi (t : BitVec 3) : maskedTop 0x1C000#17 t = t.setWidth 17 <<< 14 :=
  if_neg (by decide)

theorem and_mask {mask : BitVec 17} (h : mask = 0x10000#17 ∨ mask = 0x1C000#17) (key : BitVec 17) :
    key &&& mask = maskedTop mask (keyTop key) := by
  rcases h with rfl | rfl
  · rw [and_mask_single, maskedTop_single]
  · rw [and_mask_multi, maskedTop_multi]

theorem table_masks {r : KeyRow} (hr : r ∈ keyTable) : r.mask = 0x10000#17 ∨ r.mask = 0x1C000#17 := by
  revert r; decide

theorem matchesKey_eq {r : KeyRow} (hr : r ∈ keyTable) (key : BitVec 17) :
    r.matchesKey key = (maskedTop r.mask (keyTop key) == r.pattern) := by
  rw [KeyRow.matchesKey, and_mask (table_masks hr)]

theorem selectKey_eq (key : BitVec 17) : selectKey key = some (topOp (keyTop key)) := by
  have h : ∀ t : BitVec 3,
      (keyTable.find? fun r => maskedTop r.mask t == r.pattern).map KeyRow.op = some (topOp t) := by decide
  have hc : keyTable.find? (fun r => r.matchesKey key) =
      keyTable.find? fun r => maskedTop r.mask (keyTop key) == r.pattern := by
    simp only [keyTable, List.find?_cons, List.find?_nil]
    rw [matchesKey_eq, matchesKey_eq, matchesKey_eq, matchesKey_eq, matchesKey_eq] <;> simp [keyTable]
  rw [selectKey, hc, h (keyTop key)]

theorem keyTop_laneKey_single (raw : Lane) : topOp (keyTop (laneKey .single raw)) = .s := by
  have h : ∀ t : BitVec 3, t.getLsbD 2 = false → topOp t = .s := by decide
  apply h
  have : (laneKey .single raw).getLsbD 16 = ((0#1) ++ raw).getLsbD 16 := rfl
  rw [keyTop, BitVec.getLsbD_extractLsb', this, BitVec.getLsbD_append]
  rfl

theorem keyTop_laneKey_multi (raw : Lane) : keyTop (laneKey .multi raw) = 1#1 ++ rawMode raw := by
  apply BitVec.eq_of_getLsbD_eq
  intro i hi
  have hk : ∀ j, (laneKey .multi raw).getLsbD j = ((1#1) ++ raw).getLsbD j := fun _ => rfl
  rw [keyTop, BitVec.getLsbD_extractLsb', hk, BitVec.getLsbD_append, BitVec.getLsbD_append, rawMode,
    BitVec.getLsbD_extractLsb']
  interval_cases i <;> simp

@[simp] theorem keyRaw_laneKey (policy : Policy) (raw : Lane) : keyRaw (laneKey policy raw) = raw := by
  apply BitVec.eq_of_getLsbD_eq
  intro i hi
  rw [keyRaw, laneKey, BitVec.getLsbD_extractLsb', BitVec.getLsbD_append]
  simp [hi]

/-- The operation a lane's key selects: XFORM.S under SINGLE, the mode's under MULTI. -/
theorem selectKey_single (raw : Lane) : selectKey (laneKey .single raw) = some .s := by
  rw [selectKey_eq, keyTop_laneKey_single]

theorem selectKey_multi (raw : Lane) :
    selectKey (laneKey .multi raw) = some (topOp (1#1 ++ rawMode raw)) := by
  rw [selectKey_eq, keyTop_laneKey_multi]

/-- A key is its POLICY bit and its raw lane. -/
theorem key_eq (key : BitVec 17) : key = key.extractLsb' 16 1 ++ keyRaw key := by
  apply BitVec.eq_of_getLsbD_eq
  intro i hi
  have : keyRaw key = key.extractLsb' 0 16 := rfl
  rw [this, BitVec.getLsbD_append, BitVec.getLsbD_extractLsb', BitVec.getLsbD_extractLsb']
  by_cases h : i < 16
  · simp [h]
  · have : i = 16 := by omega
    subst this; simp

end Sys2Proof
end

