-- ==== Sys2Proof/Laws/Memory.lean ====
section
/-! SUPPORT. What the memory operations do: each write keeps the canonical form, reads what it wrote and leaves
the rest alone; canonical memories that read the same are equal; multi-byte values are little-endian. -/

namespace Sys2Proof.Machine

/-! ### The canonical form -/

theorem Memory.wf_cons_iff (c : Host.Cell) (m : Memory) :
    Memory.wf (c :: m) = true ↔
      c.2 ≠ Memory.unlisted ∧ (∀ d ∈ m, c.1 < d.1) ∧ Memory.wf m = true := by
  induction m generalizing c with
  | nil => simp [Memory.wf]
  | cons d m ih =>
    simp only [Memory.wf, Bool.and_eq_true, bne_iff_ne, decide_eq_true_eq, ih d, List.mem_cons,
      forall_eq_or_imp]
    constructor
    · rintro ⟨⟨h1, h2⟩, h3, h4, h5⟩
      exact ⟨h1, ⟨h2, fun e he => h2.trans (h4 e he)⟩, h3, h4, h5⟩
    · rintro ⟨h1, ⟨h2, -⟩, h3, h4, h5⟩
      exact ⟨⟨h1, h2⟩, h3, h4, h5⟩

theorem Memory.read_of_not_listed {m : Memory} {a : Nat} (h : ∀ d ∈ m, d.1 ≠ a) :
    m.read a = Memory.unlisted := by
  induction m with
  | nil => rfl
  | cons c m ih =>
    simp only [List.mem_cons, forall_eq_or_imp] at h
    rw [Memory.read, if_neg (Ne.symm h.1), ih h.2]

theorem Memory.mem_list {c d : Host.Cell} {m : Memory} (h : d ∈ Memory.list c m) : d = c ∨ d ∈ m := by
  unfold Memory.list at h
  split at h
  · exact .inr h
  · simpa using h

theorem Memory.mem_write {m : Memory} {a : Nat} {v : Byte} {d : Host.Cell} (h : d ∈ m.write a v) :
    d = (a, v) ∨ d ∈ m := by
  induction m with
  | nil => simpa using Memory.mem_list h
  | cons c m ih =>
    unfold Memory.write at h
    split at h
    · exact Memory.mem_list h
    split at h
    · rcases Memory.mem_list h with h | h
      · exact .inl h
      · exact .inr (List.mem_cons_of_mem _ h)
    · rcases List.mem_cons.1 h with rfl | h
      · exact .inr List.mem_cons_self
      · exact (ih h).imp_right (List.mem_cons_of_mem _)

theorem Memory.list_wf {c : Host.Cell} {m : Memory} (hm : m.wf = true) (h : ∀ d ∈ m, c.1 < d.1) :
    (Memory.list c m).wf = true := by
  unfold Memory.list
  split
  · exact hm
  · next hc => exact (Memory.wf_cons_iff c m).2 ⟨hc, h, hm⟩

theorem Memory.write_wf {m : Memory} (hm : m.wf = true) (a : Nat) (v : Byte) : (m.write a v).wf = true := by
  induction m with
  | nil => exact Memory.list_wf rfl (by simp)
  | cons c m ih =>
    obtain ⟨h1, h2, h3⟩ := (Memory.wf_cons_iff c m).1 hm
    unfold Memory.write
    split
    · next hlt =>
      refine Memory.list_wf hm fun d hd => ?_
      rcases List.mem_cons.1 hd with rfl | hd
      · exact hlt
      · exact hlt.trans (h2 d hd)
    split
    · next heq => exact Memory.list_wf h3 fun d hd => heq ▸ h2 d hd
    · next hlt hne =>
      refine (Memory.wf_cons_iff c _).2 ⟨h1, fun d hd => ?_, ih h3⟩
      rcases Memory.mem_write hd with rfl | hd
      · simp only at *; omega
      · exact h2 d hd

/-! ### Reads after writes -/

theorem Memory.read_list (c : Host.Cell) (m : Memory) (x : Nat) :
    (Memory.list c m).read x =
      if x = c.1 ∧ c.2 ≠ Memory.unlisted then c.2 else m.read x := by
  unfold Memory.list
  split
  · next h => simp [h]
  · next h => simp [Memory.read, h]

theorem Memory.read_write_other (m : Memory) {a x : Nat} (v : Byte) (h : x ≠ a) :
    (m.write a v).read x = m.read x := by
  induction m with
  | nil => rw [Memory.write, Memory.read_list, if_neg (fun hh => h hh.1)]
  | cons c m ih =>
    unfold Memory.write
    split
    · rw [Memory.read_list, if_neg (fun hh => h hh.1)]
    split
    · next heq => rw [Memory.read_list, if_neg (fun hh => h hh.1), Memory.read, if_neg (heq ▸ h)]
    · rw [Memory.read, Memory.read, ih]

theorem Memory.read_write_same {m : Memory} (hm : m.wf = true) (a : Nat) (v : Byte) :
    (m.write a v).read a = v := by
  induction m with
  | nil =>
    rw [Memory.write, Memory.read_list]
    split
    · rfl
    · next h => simpa [Memory.read, eq_comm] using h
  | cons c m ih =>
    obtain ⟨-, h2, h3⟩ := (Memory.wf_cons_iff c m).1 hm
    unfold Memory.write
    split
    · next hlt =>
      rw [Memory.read_list]
      split
      · rfl
      · next h =>
        rw [Memory.read_of_not_listed]
        · simpa [eq_comm] using h
        · intro d hd
          rcases List.mem_cons.1 hd with rfl | hd
          · omega
          · have := h2 d hd; omega
    split
    · next heq =>
      rw [Memory.read_list]
      split
      · rfl
      · next h =>
        rw [Memory.read_of_not_listed]
        · simpa [eq_comm] using h
        · intro d hd; have := h2 d hd; omega
    · next hne => rw [Memory.read, if_neg hne, ih h3]

/-- Canonical memories that read the same everywhere list the same cells. -/
theorem Memory.cell_listed_iff {m : Memory} (hm : m.wf = true) (c : Host.Cell) :
    c ∈ m ↔ c.2 ≠ Memory.unlisted ∧ m.read c.1 = c.2 := by
  induction m with
  | nil => simp [Memory.read, eq_comm]
  | cons d m ih =>
    obtain ⟨h1, h2, h3⟩ := (Memory.wf_cons_iff d m).1 hm
    rw [List.mem_cons, ih h3, Memory.read]
    split
    · next heq =>
      constructor
      · rintro (rfl | ⟨h4, h5⟩)
        · exact ⟨h1, rfl⟩
        · rw [Memory.read_of_not_listed] at h5
          · exact absurd h5.symm h4
          · intro e he hh; have := h2 e he; omega
      · rintro ⟨-, h5⟩
        exact .inl (Prod.ext heq h5.symm)
    · next hne =>
      constructor
      · rintro (rfl | h)
        · exact absurd rfl hne
        · exact h
      · exact .inr

/-! ### Bytes in a row -/

@[simp] theorem Memory.readBytes_length (m : Memory) (a n : Nat) : (m.readBytes a n).length = n := by
  induction n generalizing a with
  | zero => rfl
  | succ n ih => simp [Memory.readBytes, ih]

@[simp] theorem Memory.getElem_readBytes (m : Memory) (a n k : Nat) (h : k < (m.readBytes a n).length) :
    (m.readBytes a n)[k] = m.read (a + k) := by
  induction n generalizing a k with
  | zero => simp at h
  | succ n ih =>
    cases k with
    | zero => rfl
    | succ k => simp only [Memory.readBytes, List.getElem_cons_succ, ih]; congr 1; omega

theorem Memory.readBytes_congr {m k : Memory} {a n : Nat} (h : ∀ b, b < n → m.read (a + b) = k.read (a + b)) :
    m.readBytes a n = k.readBytes a n := by
  refine List.ext_getElem (by simp) fun i hi _ => ?_
  simp only [Memory.getElem_readBytes]
  exact h i (by simpa using hi)

theorem Memory.writeBytes_wf {m : Memory} (hm : m.wf = true) (a : Nat) (bs : List Byte) :
    (m.writeBytes a bs).wf = true := by
  induction bs generalizing m a with
  | nil => exact hm
  | cons b bs ih => exact ih (Memory.write_wf hm a b) (a + 1)

theorem Memory.mem_writeBytes {m : Memory} {a : Nat} {bs : List Byte} {d : Host.Cell}
    (h : d ∈ m.writeBytes a bs) : (a ≤ d.1 ∧ d.1 < a + bs.length) ∨ d ∈ m := by
  induction bs generalizing m a with
  | nil => exact .inr h
  | cons b bs ih =>
    rcases ih h with h | h
    · left; simp only [List.length_cons]; omega
    · rcases Memory.mem_write h with rfl | h
      · left; simp
      · exact .inr h

theorem Memory.read_writeBytes_outside (m : Memory) {a x : Nat} (bs : List Byte)
    (h : x < a ∨ a + bs.length ≤ x) : (m.writeBytes a bs).read x = m.read x := by
  induction bs generalizing m a with
  | nil => rfl
  | cons b bs ih =>
    simp only [List.length_cons] at h
    rw [Memory.writeBytes, ih _ (by omega), Memory.read_write_other _ _ (by omega)]

theorem Memory.read_writeBytes_inside {m : Memory} (hm : m.wf = true) (a k : Nat) (bs : List Byte)
    (h : k < bs.length) : (m.writeBytes a bs).read (a + k) = bs[k] := by
  induction bs generalizing m a k with
  | nil => simp at h
  | cons b bs ih =>
    cases k with
    | zero =>
      simp only [Nat.add_zero, List.getElem_cons_zero]
      rw [Memory.writeBytes, Memory.read_writeBytes_outside _ _ (by omega), Memory.read_write_same hm]
    | succ k =>
      have := ih (Memory.write_wf hm a b) (a + 1) k (by simpa using h)
      rw [Memory.writeBytes, List.getElem_cons_succ, ← this]
      congr 1; omega

/-! ### Little-endian values -/

@[simp] theorem leBytes_length (n v : Nat) : (leBytes n v).length = n := by
  induction n generalizing v with
  | zero => rfl
  | succ n ih => simp [leBytes, ih]

theorem getElem_leBytes (n v k : Nat) (h : k < (leBytes n v).length) :
    (leBytes n v)[k] = BitVec.ofNat 8 (v / 256 ^ k) := by
  induction n generalizing v k with
  | zero => simp at h
  | succ n ih =>
    cases k with
    | zero => simp [leBytes]
    | succ k => simp only [leBytes, List.getElem_cons_succ, ih, Nat.div_div_eq_div_mul, pow_succ,
        Nat.mul_comm]

theorem leValue_lt (bs : List Byte) : leValue bs < 256 ^ bs.length := by
  induction bs with
  | nil => simp [leValue]
  | cons b bs ih =>
    have := b.isLt
    rw [leValue, List.length_cons, pow_succ]; omega

theorem leValue_leBytes (n v : Nat) : leValue (leBytes n v) = v % 256 ^ n := by
  induction n generalizing v with
  | zero => simp [leBytes, leValue, Nat.mod_one]
  | succ n ih =>
    rw [leBytes, leValue, ih, BitVec.toNat_ofNat, pow_succ' 256 n, Nat.mod_mul]

theorem leValue_byte (bs : List Byte) (k : Nat) (h : k < bs.length) :
    leValue bs / 256 ^ k % 256 = (bs[k]).toNat := by
  induction bs generalizing k with
  | nil => simp at h
  | cons b bs ih =>
    have hb := b.isLt
    cases k with
    | zero => simp [leValue]; omega
    | succ k =>
      rw [leValue, pow_succ, Nat.mul_comm (256 ^ k), ← Nat.div_div_eq_div_mul, List.getElem_cons_succ,
        ← ih k (by simpa using h)]
      congr 2; omega

theorem wordBytes_values : 256 ^ Config.wordBytes = 2 ^ 512 := by
  rw [Config.wordBytes, show (256 : ℕ) = 2 ^ 8 from rfl, ← pow_mul]

theorem constBytes_values : 256 ^ Config.constBytes = 2 ^ 64 := by
  rw [Config.constBytes, show (256 : ℕ) = 2 ^ 8 from rfl, ← pow_mul]

theorem Memory.readWord_writeWord {m : Memory} (hm : m.wf = true) (a : Nat) (w : WideWord) :
    (m.writeWord a w).readWord a = w := by
  have hb : (m.writeWord a w).readBytes a Config.wordBytes = leBytes Config.wordBytes w.toNat := by
    refine List.ext_getElem (by simp) fun k h1 h2 => ?_
    rw [Memory.getElem_readBytes, Memory.writeWord, Memory.read_writeBytes_inside hm _ _ _ h2]
  rw [Memory.readWord, hb, leValue_leBytes, wordBytes_values, Nat.mod_eq_of_lt w.isLt, BitVec.ofNat_toNat,
    BitVec.setWidth_eq]

theorem Memory.readConst_writeConst {m : Memory} (hm : m.wf = true) (a : Nat) (x : Real64) :
    (m.writeConst a x).readConst a = x := by
  have hb : (m.writeConst a x).readBytes a Config.constBytes = leBytes Config.constBytes x.toNat := by
    refine List.ext_getElem (by simp) fun k h1 h2 => ?_
    rw [Memory.getElem_readBytes, Memory.writeConst, Memory.read_writeBytes_inside hm _ _ _ h2]
  rw [Memory.readConst, hb, leValue_leBytes, constBytes_values, Nat.mod_eq_of_lt x.isLt, BitVec.ofNat_toNat,
    BitVec.setWidth_eq]

theorem Memory.read_writeWord_outside (m : Memory) {a x : Nat} (w : WideWord) (h : x < a ∨ a + 64 ≤ x) :
    (m.writeWord a w).read x = m.read x :=
  Memory.read_writeBytes_outside m _ (by simpa [Config.wordBytes] using h)

theorem Memory.read_writeConst_outside (m : Memory) {a x : Nat} (c : Real64) (h : x < a ∨ a + 8 ≤ x) :
    (m.writeConst a c).read x = m.read x :=
  Memory.read_writeBytes_outside m _ (by simpa [Config.constBytes] using h)

theorem Memory.writeWord_wf {m : Memory} (hm : m.wf = true) (a : Nat) (w : WideWord) :
    (m.writeWord a w).wf = true :=
  Memory.writeBytes_wf hm a _

theorem Memory.writeConst_wf {m : Memory} (hm : m.wf = true) (a : Nat) (x : Real64) :
    (m.writeConst a x).wf = true :=
  Memory.writeBytes_wf hm a _

theorem Memory.readWord_congr {m k : Memory} {a : Nat} (h : ∀ b, b < 64 → m.read (a + b) = k.read (a + b)) :
    m.readWord a = k.readWord a := by
  rw [Memory.readWord, Memory.readWord, Memory.readBytes_congr (n := Config.wordBytes) h]

theorem Memory.readConst_congr {m k : Memory} {a : Nat} (h : ∀ b, b < 8 → m.read (a + b) = k.read (a + b)) :
    m.readConst a = k.readConst a := by
  rw [Memory.readConst, Memory.readConst, Memory.readBytes_congr (n := Config.constBytes) h]

end Sys2Proof.Machine
end

