-- ==== Sys2Proof/Laws/PerInstr.lean ====
section
/-! SUPPORT. Said for every operation, one lemma per constructor: an encoding has the format its row of the
opcode table names, and an INTERNAL row has none (spec/30_encoding.md R80, R96). -/

namespace Sys2Proof.Laws.Shape

/-- The format of i's encoding is the format of i's row. -/
def Statement (i : Instr) : Prop :=
  (encode i).map Encoded.format = if i.format = .internal then none else some i.format

theorem unpack (w : WideWord) : Statement (.unpack w) := rfl
theorem pack (lanes : Lanes) : Statement (.pack lanes) := rfl
theorem rnda (v : Real64) : Statement (.rnda v) := rfl
theorem narrow16 (k : Int) : Statement (.narrow16 k) := rfl
theorem xformS (raw : Lane) (p g : Real64) : Statement (.xformS raw p g) := rfl
theorem xformM0 (raw : Lane) (p g : Real64) : Statement (.xformM0 raw p g) := rfl
theorem xformM1 (raw : Lane) (p g : Real64) : Statement (.xformM1 raw p g) := rfl
theorem xformInv (raw : Lane) : Statement (.xformInv raw) := rfl
theorem xformM3 (raw : Lane) (p g : Real64) : Statement (.xformM3 raw p g) := rfl
theorem batchS (npackets : BitVec 64) (src dst p g : Region) :
    Statement (.batchS npackets src dst p g) := rfl
theorem batchM (npackets : BitVec 64) (src dst p0 g0 p1 g1 p2 g2 : Region) :
    Statement (.batchM npackets src dst p0 g0 p1 g1 p2 g2) := rfl

end Sys2Proof.Laws.Shape
end

