-- ==== Sys2Proof/Laws/State.lean ====
section
/-! SUPPORT. What each named update of the state does to each field: one lemma per field, true by definition. -/

namespace Sys2Proof.Machine

variable (s : State)

/-! ### dropTransient -/

@[simp] theorem State.dropTransient_phase : s.dropTransient.phase = s.phase := rfl
@[simp] theorem State.dropTransient_params : s.dropTransient.params = s.params := rfl
@[simp] theorem State.dropTransient_doneSet : s.dropTransient.doneSet = s.doneSet := rfl
@[simp] theorem State.dropTransient_faults : s.dropTransient.faults = s.faults := rfl
@[simp] theorem State.dropTransient_mem : s.dropTransient.mem = s.mem := rfl
@[simp] theorem State.dropTransient_memSize : s.dropTransient.memSize = s.memSize := rfl
@[simp] theorem State.dropTransient_constCapacity : s.dropTransient.constCapacity = s.constCapacity := rfl
@[simp] theorem State.dropTransient_nworkers : s.dropTransient.nworkers = s.nworkers := rfl
@[simp] theorem State.dropTransient_draws : s.dropTransient.draws = s.draws := rfl
@[simp] theorem State.dropTransient_agenda : s.dropTransient.agenda = s.agenda := rfl
@[simp] theorem State.dropTransient_reply : s.dropTransient.reply = s.reply := rfl
@[simp] theorem State.dropTransient_hands : s.dropTransient.hands = [] := rfl
@[simp] theorem State.dropTransient_dp : s.dropTransient.dp = Datapath.zero := rfl

/-! ### enterFault -/

@[simp] theorem State.enterFault_phase (rs : List Reason) : (s.enterFault rs).phase = .fault := rfl
@[simp] theorem State.enterFault_params (rs : List Reason) : (s.enterFault rs).params = s.params := rfl
@[simp] theorem State.enterFault_doneSet (rs : List Reason) : (s.enterFault rs).doneSet = s.doneSet := rfl
@[simp] theorem State.enterFault_faults (rs : List Reason) : (s.enterFault rs).faults = rs := rfl
@[simp] theorem State.enterFault_mem (rs : List Reason) : (s.enterFault rs).mem = s.mem := rfl
@[simp] theorem State.enterFault_memSize (rs : List Reason) : (s.enterFault rs).memSize = s.memSize := rfl
@[simp] theorem State.enterFault_constCapacity (rs : List Reason) :
    (s.enterFault rs).constCapacity = s.constCapacity := rfl
@[simp] theorem State.enterFault_nworkers (rs : List Reason) :
    (s.enterFault rs).nworkers = s.nworkers := rfl
@[simp] theorem State.enterFault_hands (rs : List Reason) : (s.enterFault rs).hands = [] := rfl
@[simp] theorem State.enterFault_dp (rs : List Reason) : (s.enterFault rs).dp = Datapath.zero := rfl
@[simp] theorem State.enterFault_draws (rs : List Reason) : (s.enterFault rs).draws = s.draws := rfl
@[simp] theorem State.enterFault_agenda (rs : List Reason) : (s.enterFault rs).agenda = s.agenda := rfl
@[simp] theorem State.enterFault_reply (rs : List Reason) : (s.enterFault rs).reply = s.reply := rfl

/-! ### resetBlock -/

@[simp] theorem State.resetBlock_phase : (s.resetBlock).phase = .idle := rfl
@[simp] theorem State.resetBlock_params : (s.resetBlock).params = none := rfl
@[simp] theorem State.resetBlock_doneSet : (s.resetBlock).doneSet = [] := rfl
@[simp] theorem State.resetBlock_faults : (s.resetBlock).faults = [] := rfl
@[simp] theorem State.resetBlock_mem : (s.resetBlock).mem = s.mem := rfl
@[simp] theorem State.resetBlock_memSize : (s.resetBlock).memSize = s.memSize := rfl
@[simp] theorem State.resetBlock_constCapacity : (s.resetBlock).constCapacity = s.constCapacity := rfl
@[simp] theorem State.resetBlock_nworkers : (s.resetBlock).nworkers = s.nworkers := rfl
@[simp] theorem State.resetBlock_hands : (s.resetBlock).hands = [] := rfl
@[simp] theorem State.resetBlock_dp : (s.resetBlock).dp = Datapath.zero := rfl
@[simp] theorem State.resetBlock_draws : (s.resetBlock).draws = s.draws := rfl
@[simp] theorem State.resetBlock_agenda : (s.resetBlock).agenda = s.agenda := rfl
@[simp] theorem State.resetBlock_reply : (s.resetBlock).reply = s.reply := rfl

/-! ### latch -/

@[simp] theorem State.latch_phase (p : Params) :
    (s.latch p).phase = if p.count = 0 then .done else .running := rfl
@[simp] theorem State.latch_params (p : Params) : (s.latch p).params = some p := rfl
@[simp] theorem State.latch_doneSet (p : Params) : (s.latch p).doneSet = [] := rfl
@[simp] theorem State.latch_faults (p : Params) : (s.latch p).faults = s.faults := rfl
@[simp] theorem State.latch_mem (p : Params) : (s.latch p).mem = s.mem := rfl
@[simp] theorem State.latch_memSize (p : Params) : (s.latch p).memSize = s.memSize := rfl
@[simp] theorem State.latch_constCapacity (p : Params) : (s.latch p).constCapacity = s.constCapacity := rfl
@[simp] theorem State.latch_nworkers (p : Params) : (s.latch p).nworkers = s.nworkers := rfl
@[simp] theorem State.latch_hands (p : Params) : (s.latch p).hands = [] := rfl
@[simp] theorem State.latch_dp (p : Params) : (s.latch p).dp = Datapath.zero := rfl
@[simp] theorem State.latch_draws (p : Params) : (s.latch p).draws = s.draws := rfl
@[simp] theorem State.latch_agenda (p : Params) : (s.latch p).agenda = s.agenda := rfl
@[simp] theorem State.latch_reply (p : Params) : (s.latch p).reply = s.reply := rfl

/-! ### setLanesIn -/

@[simp] theorem State.setLanesIn_phase (L : Lanes) : (s.setLanesIn L).phase = s.phase := rfl
@[simp] theorem State.setLanesIn_params (L : Lanes) : (s.setLanesIn L).params = s.params := rfl
@[simp] theorem State.setLanesIn_doneSet (L : Lanes) : (s.setLanesIn L).doneSet = s.doneSet := rfl
@[simp] theorem State.setLanesIn_faults (L : Lanes) : (s.setLanesIn L).faults = s.faults := rfl
@[simp] theorem State.setLanesIn_mem (L : Lanes) : (s.setLanesIn L).mem = s.mem := rfl
@[simp] theorem State.setLanesIn_memSize (L : Lanes) : (s.setLanesIn L).memSize = s.memSize := rfl
@[simp] theorem State.setLanesIn_constCapacity (L : Lanes) :
    (s.setLanesIn L).constCapacity = s.constCapacity := rfl
@[simp] theorem State.setLanesIn_nworkers (L : Lanes) :
    (s.setLanesIn L).nworkers = s.nworkers := rfl
@[simp] theorem State.setLanesIn_hands (L : Lanes) : (s.setLanesIn L).hands = s.hands := rfl
@[simp] theorem State.setLanesIn_dp (L : Lanes) : (s.setLanesIn L).dp = { s.dp with lanesIn := L } := rfl
@[simp] theorem State.setLanesIn_draws (L : Lanes) : (s.setLanesIn L).draws = s.draws := rfl
@[simp] theorem State.setLanesIn_agenda (L : Lanes) : (s.setLanesIn L).agenda = s.agenda := rfl
@[simp] theorem State.setLanesIn_reply (L : Lanes) : (s.setLanesIn L).reply = s.reply := rfl

/-! ### setWord -/

@[simp] theorem State.setWord_phase (w : WideWord) : (s.setWord w).phase = s.phase := rfl
@[simp] theorem State.setWord_params (w : WideWord) : (s.setWord w).params = s.params := rfl
@[simp] theorem State.setWord_doneSet (w : WideWord) : (s.setWord w).doneSet = s.doneSet := rfl
@[simp] theorem State.setWord_faults (w : WideWord) : (s.setWord w).faults = s.faults := rfl
@[simp] theorem State.setWord_mem (w : WideWord) : (s.setWord w).mem = s.mem := rfl
@[simp] theorem State.setWord_memSize (w : WideWord) : (s.setWord w).memSize = s.memSize := rfl
@[simp] theorem State.setWord_constCapacity (w : WideWord) : (s.setWord w).constCapacity = s.constCapacity := rfl
@[simp] theorem State.setWord_nworkers (w : WideWord) : (s.setWord w).nworkers = s.nworkers := rfl
@[simp] theorem State.setWord_hands (w : WideWord) : (s.setWord w).hands = s.hands := rfl
@[simp] theorem State.setWord_dp (w : WideWord) : (s.setWord w).dp = { s.dp with word := w } := rfl
@[simp] theorem State.setWord_draws (w : WideWord) : (s.setWord w).draws = s.draws := rfl
@[simp] theorem State.setWord_agenda (w : WideWord) : (s.setWord w).agenda = s.agenda := rfl
@[simp] theorem State.setWord_reply (w : WideWord) : (s.setWord w).reply = s.reply := rfl

/-! ### setRounded -/

@[simp] theorem State.setRounded_phase (k : Int) : (s.setRounded k).phase = s.phase := rfl
@[simp] theorem State.setRounded_params (k : Int) : (s.setRounded k).params = s.params := rfl
@[simp] theorem State.setRounded_doneSet (k : Int) : (s.setRounded k).doneSet = s.doneSet := rfl
@[simp] theorem State.setRounded_faults (k : Int) : (s.setRounded k).faults = s.faults := rfl
@[simp] theorem State.setRounded_mem (k : Int) : (s.setRounded k).mem = s.mem := rfl
@[simp] theorem State.setRounded_memSize (k : Int) : (s.setRounded k).memSize = s.memSize := rfl
@[simp] theorem State.setRounded_constCapacity (k : Int) : (s.setRounded k).constCapacity = s.constCapacity := rfl
@[simp] theorem State.setRounded_nworkers (k : Int) : (s.setRounded k).nworkers = s.nworkers := rfl
@[simp] theorem State.setRounded_hands (k : Int) : (s.setRounded k).hands = s.hands := rfl
@[simp] theorem State.setRounded_dp (k : Int) : (s.setRounded k).dp = { s.dp with rounded := k } := rfl
@[simp] theorem State.setRounded_draws (k : Int) : (s.setRounded k).draws = s.draws := rfl
@[simp] theorem State.setRounded_agenda (k : Int) : (s.setRounded k).agenda = s.agenda := rfl
@[simp] theorem State.setRounded_reply (k : Int) : (s.setRounded k).reply = s.reply := rfl

/-! ### setLane -/

@[simp] theorem State.setLane_phase (c : Lane) : (s.setLane c).phase = s.phase := rfl
@[simp] theorem State.setLane_params (c : Lane) : (s.setLane c).params = s.params := rfl
@[simp] theorem State.setLane_doneSet (c : Lane) : (s.setLane c).doneSet = s.doneSet := rfl
@[simp] theorem State.setLane_faults (c : Lane) : (s.setLane c).faults = s.faults := rfl
@[simp] theorem State.setLane_mem (c : Lane) : (s.setLane c).mem = s.mem := rfl
@[simp] theorem State.setLane_memSize (c : Lane) : (s.setLane c).memSize = s.memSize := rfl
@[simp] theorem State.setLane_constCapacity (c : Lane) : (s.setLane c).constCapacity = s.constCapacity := rfl
@[simp] theorem State.setLane_nworkers (c : Lane) : (s.setLane c).nworkers = s.nworkers := rfl
@[simp] theorem State.setLane_hands (c : Lane) : (s.setLane c).hands = s.hands := rfl
@[simp] theorem State.setLane_dp (c : Lane) : (s.setLane c).dp = { s.dp with lane := c } := rfl
@[simp] theorem State.setLane_draws (c : Lane) : (s.setLane c).draws = s.draws := rfl
@[simp] theorem State.setLane_agenda (c : Lane) : (s.setLane c).agenda = s.agenda := rfl
@[simp] theorem State.setLane_reply (c : Lane) : (s.setLane c).reply = s.reply := rfl

/-! ### useDraws -/

@[simp] theorem State.useDraws_phase (n : Nat) : (s.useDraws n).phase = s.phase := rfl
@[simp] theorem State.useDraws_params (n : Nat) : (s.useDraws n).params = s.params := rfl
@[simp] theorem State.useDraws_doneSet (n : Nat) : (s.useDraws n).doneSet = s.doneSet := rfl
@[simp] theorem State.useDraws_faults (n : Nat) : (s.useDraws n).faults = s.faults := rfl
@[simp] theorem State.useDraws_mem (n : Nat) : (s.useDraws n).mem = s.mem := rfl
@[simp] theorem State.useDraws_memSize (n : Nat) : (s.useDraws n).memSize = s.memSize := rfl
@[simp] theorem State.useDraws_constCapacity (n : Nat) : (s.useDraws n).constCapacity = s.constCapacity := rfl
@[simp] theorem State.useDraws_nworkers (n : Nat) : (s.useDraws n).nworkers = s.nworkers := rfl
@[simp] theorem State.useDraws_hands (n : Nat) : (s.useDraws n).hands = s.hands := rfl
@[simp] theorem State.useDraws_dp (n : Nat) : (s.useDraws n).dp = s.dp := rfl
@[simp] theorem State.useDraws_draws (n : Nat) : (s.useDraws n).draws = s.draws + n := rfl
@[simp] theorem State.useDraws_agenda (n : Nat) : (s.useDraws n).agenda = s.agenda := rfl
@[simp] theorem State.useDraws_reply (n : Nat) : (s.useDraws n).reply = s.reply := rfl

@[simp] theorem State.useDraws_zero : s.useDraws 0 = s := rfl

/-! ### putBack -/

@[simp] theorem State.putBack_phase (h : Hand) : (s.putBack h).phase = s.phase := rfl
@[simp] theorem State.putBack_params (h : Hand) : (s.putBack h).params = s.params := rfl
@[simp] theorem State.putBack_doneSet (h : Hand) : (s.putBack h).doneSet = s.doneSet := rfl
@[simp] theorem State.putBack_faults (h : Hand) : (s.putBack h).faults = s.faults := rfl
@[simp] theorem State.putBack_mem (h : Hand) : (s.putBack h).mem = s.mem := rfl
@[simp] theorem State.putBack_memSize (h : Hand) : (s.putBack h).memSize = s.memSize := rfl
@[simp] theorem State.putBack_constCapacity (h : Hand) : (s.putBack h).constCapacity = s.constCapacity := rfl
@[simp] theorem State.putBack_nworkers (h : Hand) : (s.putBack h).nworkers = s.nworkers := rfl
@[simp] theorem State.putBack_draws (h : Hand) : (s.putBack h).draws = s.draws := rfl
@[simp] theorem State.putBack_agenda (h : Hand) : (s.putBack h).agenda = s.agenda := rfl
@[simp] theorem State.putBack_reply (h : Hand) : (s.putBack h).reply = s.reply := rfl
@[simp] theorem State.putBack_hands (h : Hand) :
    (s.putBack h).hands = s.hands.map fun g => if g.index = h.index then h else g := rfl
@[simp] theorem State.putBack_dp (h : Hand) : (s.putBack h).dp = Datapath.zero := rfl

/-! ### retireUnpack, retireLane, retirePack -/

theorem putBack_setLanesIn (L : Lanes) (h : Hand) : (s.setLanesIn L).putBack h = s.putBack h := rfl
theorem putBack_setWord (w : WideWord) (h : Hand) : (s.setWord w).putBack h = s.putBack h := rfl
theorem putBack_setLane (c : Lane) (d : Nat) (h : Hand) :
    ((s.setLane c).useDraws d).putBack h = (s.useDraws d).putBack h := rfl
theorem State.retireUnpack_eq (h : Hand) :
    State.retireUnpack h s = s.putBack { h with stage := .lane 0, lanesIn := s.dp.lanesIn } := rfl
theorem State.retireLane_eq (h : Hand) (l : Fin 32) :
    State.retireLane h l s =
      s.putBack { h with stage := Stage.afterLane l, lanesOut := h.lanesOut.set l.val s.dp.lane l.isLt } := rfl
theorem State.retirePack_eq (h : Hand) :
    State.retirePack h s = s.putBack { h with stage := .write, word := s.dp.word } := rfl

/-! ### takePacket -/

@[simp] theorem State.takePacket_phase (p : Params) (i : Nat) : (s.takePacket p i).phase = s.phase := by
  unfold State.takePacket; split <;> rfl
@[simp] theorem State.takePacket_params (p : Params) (i : Nat) : (s.takePacket p i).params = s.params := by
  unfold State.takePacket; split <;> rfl
@[simp] theorem State.takePacket_doneSet (p : Params) (i : Nat) : (s.takePacket p i).doneSet = s.doneSet := by
  unfold State.takePacket; split <;> rfl
@[simp] theorem State.takePacket_faults (p : Params) (i : Nat) : (s.takePacket p i).faults = s.faults := by
  unfold State.takePacket; split <;> rfl
@[simp] theorem State.takePacket_mem (p : Params) (i : Nat) : (s.takePacket p i).mem = s.mem := by
  unfold State.takePacket; split <;> rfl
@[simp] theorem State.takePacket_memSize (p : Params) (i : Nat) : (s.takePacket p i).memSize = s.memSize := by
  unfold State.takePacket; split <;> rfl
@[simp] theorem State.takePacket_constCapacity (p : Params) (i : Nat) :
    (s.takePacket p i).constCapacity = s.constCapacity := by
  unfold State.takePacket; split <;> rfl
@[simp] theorem State.takePacket_nworkers (p : Params) (i : Nat) : (s.takePacket p i).nworkers = s.nworkers := by
  unfold State.takePacket; split <;> rfl
@[simp] theorem State.takePacket_draws (p : Params) (i : Nat) : (s.takePacket p i).draws = s.draws := by
  unfold State.takePacket; split <;> rfl
@[simp] theorem State.takePacket_agenda (p : Params) (i : Nat) : (s.takePacket p i).agenda = s.agenda := by
  unfold State.takePacket; split <;> rfl
@[simp] theorem State.takePacket_reply (p : Params) (i : Nat) : (s.takePacket p i).reply = s.reply := by
  unfold State.takePacket; split <;> rfl
@[simp] theorem State.takePacket_dp (p : Params) (i : Nat) : (s.takePacket p i).dp = s.dp := by
  unfold State.takePacket; split <;> rfl
@[simp] theorem State.takePacket_hands (p : Params) (i : Nat) : (s.takePacket p i).hands =
    if enabled p s i && decide (s.hands.length < s.nworkers) then s.hands ++ [Hand.fresh i] else s.hands := by
  unfold State.takePacket; split <;> rfl

/-! ### finishPacket -/

@[simp] theorem State.finishPacket_params (p : Params) (h : Hand) : (s.finishPacket p h).params = s.params := rfl
@[simp] theorem State.finishPacket_faults (p : Params) (h : Hand) : (s.finishPacket p h).faults = s.faults := rfl
@[simp] theorem State.finishPacket_memSize (p : Params) (h : Hand) :
    (s.finishPacket p h).memSize = s.memSize := rfl
@[simp] theorem State.finishPacket_constCapacity (p : Params) (h : Hand) :
    (s.finishPacket p h).constCapacity = s.constCapacity := rfl
@[simp] theorem State.finishPacket_nworkers (p : Params) (h : Hand) :
    (s.finishPacket p h).nworkers = s.nworkers := rfl
@[simp] theorem State.finishPacket_draws (p : Params) (h : Hand) : (s.finishPacket p h).draws = s.draws := rfl
@[simp] theorem State.finishPacket_agenda (p : Params) (h : Hand) : (s.finishPacket p h).agenda = s.agenda := rfl
@[simp] theorem State.finishPacket_reply (p : Params) (h : Hand) : (s.finishPacket p h).reply = s.reply := rfl
@[simp] theorem State.finishPacket_phase (p : Params) (h : Hand) : (s.finishPacket p h).phase =
    if complete p.count (insertIndex h.index s.doneSet) then .done else s.phase := rfl
@[simp] theorem State.finishPacket_doneSet (p : Params) (h : Hand) :
    (s.finishPacket p h).doneSet = insertIndex h.index s.doneSet := rfl
@[simp] theorem State.finishPacket_mem (p : Params) (h : Hand) :
    (s.finishPacket p h).mem = dstWrite p s.mem h.index h.word := by
  simp only [State.finishPacket]
@[simp] theorem State.finishPacket_hands (p : Params) (h : Hand) :
    (s.finishPacket p h).hands = s.hands.filter fun g => g.index != h.index := rfl
@[simp] theorem State.finishPacket_dp (p : Params) (h : Hand) : (s.finishPacket p h).dp = Datapath.zero := rfl

/-! ### answer -/

@[simp] theorem State.answer_phase (r : Reply) : (s.answer r).phase = s.phase := rfl
@[simp] theorem State.answer_params (r : Reply) : (s.answer r).params = s.params := rfl
@[simp] theorem State.answer_doneSet (r : Reply) : (s.answer r).doneSet = s.doneSet := rfl
@[simp] theorem State.answer_faults (r : Reply) : (s.answer r).faults = s.faults := rfl
@[simp] theorem State.answer_mem (r : Reply) : (s.answer r).mem = s.mem := rfl
@[simp] theorem State.answer_memSize (r : Reply) : (s.answer r).memSize = s.memSize := rfl
@[simp] theorem State.answer_constCapacity (r : Reply) : (s.answer r).constCapacity = s.constCapacity := rfl
@[simp] theorem State.answer_nworkers (r : Reply) : (s.answer r).nworkers = s.nworkers := rfl
@[simp] theorem State.answer_hands (r : Reply) : (s.answer r).hands = s.hands := rfl
@[simp] theorem State.answer_dp (r : Reply) : (s.answer r).dp = s.dp := rfl
@[simp] theorem State.answer_draws (r : Reply) : (s.answer r).draws = s.draws := rfl
@[simp] theorem State.answer_agenda (r : Reply) : (s.answer r).agenda = s.agenda := rfl
@[simp] theorem State.answer_reply (r : Reply) : (s.answer r).reply = some r := rfl

/-! ### hostWrite -/

@[simp] theorem State.hostWrite_mem (addr : Nat) (bytes : List Byte) :
    (s.hostWrite addr bytes).mem = s.mem.writeBytes addr bytes := by
  unfold State.hostWrite; split <;> rfl
@[simp] theorem State.hostWrite_phase (addr : Nat) (bytes : List Byte) :
    (s.hostWrite addr bytes).phase = if s.disturbs addr bytes.length then .fault else s.phase := by
  unfold State.hostWrite; split <;> rfl
@[simp] theorem State.hostWrite_faults (addr : Nat) (bytes : List Byte) :
    (s.hostWrite addr bytes).faults = if s.disturbs addr bytes.length then [.hostWrite] else s.faults := by
  unfold State.hostWrite; split <;> rfl
@[simp] theorem State.hostWrite_params (addr : Nat) (bytes : List Byte) :
    (s.hostWrite addr bytes).params = s.params := by
  unfold State.hostWrite; split <;> rfl
@[simp] theorem State.hostWrite_doneSet (addr : Nat) (bytes : List Byte) :
    (s.hostWrite addr bytes).doneSet = s.doneSet := by
  unfold State.hostWrite; split <;> rfl
@[simp] theorem State.hostWrite_memSize (addr : Nat) (bytes : List Byte) :
    (s.hostWrite addr bytes).memSize = s.memSize := by
  unfold State.hostWrite; split <;> rfl
@[simp] theorem State.hostWrite_constCapacity (addr : Nat) (bytes : List Byte) :
    (s.hostWrite addr bytes).constCapacity = s.constCapacity := by
  unfold State.hostWrite; split <;> rfl
@[simp] theorem State.hostWrite_nworkers (addr : Nat) (bytes : List Byte) :
    (s.hostWrite addr bytes).nworkers = s.nworkers := by
  unfold State.hostWrite; split <;> rfl
@[simp] theorem State.hostWrite_hands (addr : Nat) (bytes : List Byte) :
    (s.hostWrite addr bytes).hands = if s.disturbs addr bytes.length then [] else s.hands := by
  unfold State.hostWrite; split <;> rfl
@[simp] theorem State.hostWrite_dp (addr : Nat) (bytes : List Byte) :
    (s.hostWrite addr bytes).dp = if s.disturbs addr bytes.length then Datapath.zero else s.dp := by
  unfold State.hostWrite; split <;> rfl
@[simp] theorem State.hostWrite_draws (addr : Nat) (bytes : List Byte) :
    (s.hostWrite addr bytes).draws = s.draws := by
  unfold State.hostWrite; split <;> rfl
@[simp] theorem State.hostWrite_agenda (addr : Nat) (bytes : List Byte) :
    (s.hostWrite addr bytes).agenda = s.agenda := by
  unfold State.hostWrite; split <;> rfl
@[simp] theorem State.hostWrite_reply (addr : Nat) (bytes : List Byte) :
    (s.hostWrite addr bytes).reply = s.reply := by
  unfold State.hostWrite; split <;> rfl

/-! ### The state with its agenda popped -/

@[simp] theorem hides_agenda (l : List Move) (a : Nat) :
    State.hides { s with agenda := l } a = s.hides a := rfl

@[simp] theorem disturbs_agenda (l : List Move) (a n : Nat) :
    State.disturbs { s with agenda := l } a n = s.disturbs a n := rfl

@[simp] theorem enabled_agenda (l : List Move) (p : Params) (i : Nat) :
    enabled p { s with agenda := l } i = enabled p s i := rfl

@[simp] theorem inHand_agenda (l : List Move) (i : Nat) :
    State.inHand { s with agenda := l } i = s.inHand i := rfl

end Sys2Proof.Machine
end

