-- ==== Sys2Proof/Laws/Step.lean ====
section
/-! SUPPORT. Everything one operation, one worker's move, one host action and one step can do, said once. -/

namespace Sys2Proof.Machine

/-! ### Memory -/

theorem reset_mem_wf : State.reset.mem.wf = true := rfl

theorem dstWrite_wf {m : Memory} (hm : m.wf = true) (p : Params) (i : Nat) (w : WideWord) :
    (dstWrite p m i w).wf = true := Memory.writeWord_wf hm _ w

theorem zeroConstants_wf {m : Memory} (hm : m.wf = true) (rs : List Region) : (zeroConstants m rs).wf = true := by
  induction rs generalizing m with
  | nil => exact hm
  | cons r rs ih => exact ih (Memory.writeConst_wf hm _ 0)

/-! ### Operations -/

/-- CAL changes the lane, and takes at most one free value. -/
theorem calibrate_eq (a : Lane) (p g : Real64) (s : State) :
    calibrate a p g s =
      if Binary64.isFinite (calProduct a p g) then
        s.setLane (Binary64.narrow16 (Binary64.roundHalfAway (calProduct a p g)))
      else (s.setLane (Config.drawLane s.draws)).useDraws 1 := rfl

/-- Every KEY operation completes: it sets the lane and takes at most one free value. -/
theorem exec_key {i : Instr} (hi : i.format = .key) (s : State) :
    ∃ c d, d ≤ 1 ∧ exec i s = .next ((s.setLane c).useDraws d) := by
  have hc : ∀ (a : Lane) (p g : Real64), ∃ c d, d ≤ 1 ∧
      (.next (calibrate a p g s) : Host.Outcome State Fault Refusal) = .next ((s.setLane c).useDraws d) := by
    intro a p g
    rw [calibrate_eq]
    split
    · exact ⟨_, 0, Nat.zero_le 1, by rw [State.useDraws_zero]⟩
    · exact ⟨_, 1, le_rfl, rfl⟩
  cases i with
  | unpack w => cases hi
  | pack L => cases hi
  | rnda v => cases hi
  | narrow16 k => cases hi
  | xformS raw p g => exact hc raw p g
  | xformM0 raw p g => exact hc (magnitude14 raw) p g
  | xformM1 raw p g => exact hc (magnitude14 raw) p g
  | xformInv raw => exact ⟨Config.sentinel, 0, Nat.zero_le 1, rfl⟩
  | xformM3 raw p g => exact hc (magnitude14 raw) p g
  | batchS n src dst p g => cases hi
  | batchM n src dst p0 g0 p1 g1 p2 g2 => cases hi

/-- Every INVOKE operation is the START of its record. -/
theorem exec_invoke {i : Instr} (hi : i.format = .invoke) (s : State) :
    ∃ p : Params, exec i s = .next (s.start p) := by
  cases i with
  | unpack w => cases hi
  | pack L => cases hi
  | rnda v => cases hi
  | narrow16 k => cases hi
  | xformS raw p g => cases hi
  | xformM0 raw p g => cases hi
  | xformM1 raw p g => cases hi
  | xformInv raw => cases hi
  | xformM3 raw p g => cases hi
  | batchS n src dst p g => exact ⟨_, rfl⟩
  | batchM n src dst p0 g0 p1 g1 p2 g2 => exact ⟨_, rfl⟩

/-- START: accepted, failed, busy or ignored (R33). -/
theorem start_cases (s : State) (p : Params) :
    ((s.phase = .idle ∨ s.phase = .done) ∧ failingChecks p s.memSize = [] ∧ s.start p = s.latch p) ∨
    ((s.phase = .idle ∨ s.phase = .done) ∧ failingChecks p s.memSize ≠ [] ∧
      s.start p = s.enterFault (failingChecks p s.memSize)) ∨
    (s.phase = .running ∧ s.start p = s.enterFault [.busy]) ∨
    (s.phase = .fault ∧ s.start p = s) := by
  rcases hp : s.phase
  · cases hf : failingChecks p s.memSize with
    | nil => exact .inl ⟨.inl rfl, rfl, by simp [State.start, hp, hf]⟩
    | cons r rs => exact .inr (.inl ⟨.inl rfl, by simp, by simp [State.start, hp, hf]⟩)
  · exact .inr (.inr (.inl ⟨rfl, by simp [State.start, hp]⟩))
  · cases hf : failingChecks p s.memSize with
    | nil => exact .inl ⟨.inr rfl, rfl, by simp [State.start, hp, hf]⟩
    | cons r rs => exact .inr (.inl ⟨.inr rfl, by simp, by simp [State.start, hp, hf]⟩)
  · exact .inr (.inr (.inr ⟨rfl, by simp [State.start, hp]⟩))

/-! ### Decoding of lanes and records -/

/-- A lane's key always decodes, to a KEY operation (R87, R95). -/
theorem decode_laneEncoded (p : Params) (m : Memory) (raw : Lane) (j : Nat) :
    ∃ i, decode (laneEncoded p m raw j) = .ok i ∧ i.format = .key := by
  rcases hp : p.arrays with ⟨P, G⟩ | ⟨p0, g0, p1, g1, p2, g2⟩
  · refine ⟨.xformS raw (constRead m P j) (constRead m G j), ?_, rfl⟩
    simp [laneEncoded, Params.policy, Arrays.policy, lanePair, hp, decode, decodeKey, selectKey_single,
      pairRead]
  · have h : ∀ t : BitVec 2, t = 0 ∨ t = 1 ∨ t = 2 ∨ t = 3 := by decide
    have hpol : p.policy = .multi := by rw [Params.policy, hp]; rfl
    rcases h (rawMode raw) with h1 | h1 | h1 | h1
    · refine ⟨.xformM0 raw (constRead m p0 j) (constRead m g0 j), ?_, rfl⟩
      simp [laneEncoded, hpol, lanePair, hp, decode, decodeKey, selectKey_multi, h1, pairRead, topOp]
    · refine ⟨.xformM1 raw (constRead m p1 j) (constRead m g1 j), ?_, rfl⟩
      simp [laneEncoded, hpol, lanePair, hp, decode, decodeKey, selectKey_multi, h1, pairRead, topOp]
    · refine ⟨.xformInv raw, ?_, rfl⟩
      simp [laneEncoded, hpol, lanePair, hp, decode, decodeKey, selectKey_multi, h1, topOp]
    · refine ⟨.xformM3 raw (constRead m p2 j) (constRead m g2 j), ?_, rfl⟩
      simp [laneEncoded, hpol, lanePair, hp, decode, decodeKey, selectKey_multi, h1, pairRead, topOp]

/-- What an INVOKE record decodes to is an INVOKE operation. -/
theorem format_of_decodeInvoke {r : InvokeRecord} {i : Instr} (h : decode (.invoke r) = .ok i) :
    i.format = .invoke := by
  simp only [decode, decodeInvoke] at h
  split at h <;> split at h <;> first | (cases h; rfl) | cases h

/-! ### Packets in hand -/

theorem inHand_some {s : State} {i : Nat} {h : Hand} (hh : s.inHand i = some h) : h ∈ s.hands ∧ h.index = i :=
  ⟨List.mem_of_find?_eq_some hh, by simpa using List.find?_some hh⟩

theorem inHand_none {s : State} {i : Nat} : s.inHand i = none ↔ ∀ h ∈ s.hands, h.index ≠ i := by
  simp [State.inHand]

/-- Where no two packets in hand have one index, each is found by its own. -/
theorem inHand_of_mem {s : State} (hd : (s.hands.map Hand.index).Nodup) {h : Hand} (hm : h ∈ s.hands) :
    s.inHand h.index = some h := by
  cases hf : s.inHand h.index with
  | none => exact absurd rfl (inHand_none.1 hf h hm)
  | some g =>
    obtain ⟨hg, he⟩ := inHand_some hf
    rw [List.inj_on_of_nodup_map hd hg hm he]

theorem mem_taken (s : State) (i : Nat) : i ∈ s.taken ↔ i ∈ s.doneSet ∨ ∃ h ∈ s.hands, h.index = i := by
  unfold State.taken
  induction s.hands with
  | nil => simp
  | cons g gs ih =>
    rw [List.foldr_cons, mem_insertIndex, ih]
    simp only [List.mem_cons, exists_eq_or_imp]
    tauto

theorem taken_rising {s : State} (hr : s.doneSet.Pairwise (· < ·)) : s.taken.Pairwise (· < ·) := by
  unfold State.taken
  induction s.hands with
  | nil => exact hr
  | cons g gs ih => exact insertIndex_rising g.index ih

theorem mem_putBack {s : State} {h g : Hand} (hg : g ∈ (s.putBack h).hands) :
    g = h ∨ (g ∈ s.hands ∧ g.index ≠ h.index) := by
  rw [State.putBack_hands, List.mem_map] at hg
  obtain ⟨f, hf, rfl⟩ := hg
  by_cases he : f.index = h.index
  · simp [he]
  · simp [he, hf]

/-- Putting a packet back keeps the indices in hand. -/
theorem putBack_indices (s : State) (h : Hand) :
    (s.putBack h).hands.map Hand.index = s.hands.map Hand.index := by
  rw [State.putBack_hands, List.map_map]
  refine List.map_congr_left fun g _ => ?_
  by_cases he : g.index = h.index <;> simp [he]

/-- Where no two packets in hand have one index, putting one back replaces it at its place, and ending one takes it
out. -/
theorem hands_split {s : State} (hd : (s.hands.map Hand.index).Nodup) {h : Hand} (hm : h ∈ s.hands) :
    ∃ before after, s.hands = before ++ h :: after ∧
      (∀ g : Hand, g.index = h.index → (s.putBack g).hands = before ++ g :: after) ∧
      ∀ p, (s.finishPacket p h).hands = before ++ after := by
  obtain ⟨xs, ys, he⟩ := List.append_of_mem hm
  have hx : ∀ x, x ∈ xs ∨ x ∈ ys → x.index ≠ h.index := by
    rw [he, List.map_append, List.map_cons, List.nodup_append, List.nodup_cons] at hd
    rintro x (hx | hx)
    · exact hd.2.2 _ (List.mem_map_of_mem hx) _ List.mem_cons_self
    · exact fun e => hd.2.1.1 (e ▸ List.mem_map_of_mem hx)
  refine ⟨xs, ys, he, fun g hg => ?_, fun p => ?_⟩
  · have keep : ∀ zs : List Hand, (∀ x ∈ zs, x.index ≠ h.index) →
        zs.map (fun x => if x.index = g.index then g else x) = zs := fun zs hz => by
      rw [hg]
      exact (List.map_congr_left fun x hx => if_neg (hz x hx)).trans (List.map_id _)
    rw [State.putBack_hands, he, List.map_append, List.map_cons, keep xs fun x h => hx x (.inl h),
      keep ys fun x h => hx x (.inr h), if_pos hg.symm]
  · have keep : ∀ zs : List Hand, (∀ x ∈ zs, x.index ≠ h.index) →
        zs.filter (fun x => x.index != h.index) = zs := fun zs hz =>
      List.filter_eq_self.2 fun x hx => by simpa using hz x hx
    rw [State.finishPacket_hands, he, List.filter_append, List.filter_cons, keep xs fun x h => hx x (.inl h),
      keep ys fun x h => hx x (.inr h)]
    simp

theorem putBack_length (s : State) (h : Hand) : (s.putBack h).hands.length = s.hands.length := by
  rw [State.putBack_hands, List.length_map]

/-! ### A worker's move -/

/-- What the next part of a PROCESS step can do, by its stage: put the packet back one part further, or end it. -/
theorem processStep_cases (p : Params) (h : Hand) (s : State) :
    (h.stage = .unpack ∧ processStep p h s =
      .next (s.putBack { h with stage := .lane 0, lanesIn := unpackLanes (srcRead p s.mem h.index) })) ∨
    (∃ l c d, h.stage = .lane l ∧ d ≤ 1 ∧ processStep p h s = .next ((s.useDraws d).putBack
      { h with stage := Stage.afterLane l, lanesOut := h.lanesOut.set l.val c l.isLt })) ∨
    (h.stage = .pack ∧
      processStep p h s = .next (s.putBack { h with stage := .write, word := packLanes h.lanesOut })) ∨
    (h.stage = .write ∧ processStep p h s = .next (s.finishPacket p h)) := by
  rcases hs : h.stage with _ | l | _ | _
  · refine .inl ⟨rfl, ?_⟩
    have he : exec (.unpack (srcRead p s.mem h.index)) s =
      .next (s.setLanesIn (unpackLanes (srcRead p s.mem h.index))) := rfl
    simp only [processStep, hs, he, mapNext, State.retireUnpack_eq, putBack_setLanesIn, State.setLanesIn_dp]
  · obtain ⟨i, hi, hf⟩ := decode_laneEncoded p s.mem (h.lanesIn[l.val]'l.isLt) (absIndex h.index l.val)
    obtain ⟨c, d, hd, he⟩ := exec_key hf s
    refine .inr (.inl ⟨l, c, d, rfl, hd, ?_⟩)
    simp only [processStep, hs, hi, he, mapNext, State.retireLane_eq, putBack_setLane, State.useDraws_dp,
      State.setLane_dp]
  · refine .inr (.inr (.inl ⟨rfl, ?_⟩))
    have he : exec (.pack h.lanesOut) s = .next (s.setWord (packLanes h.lanesOut)) := rfl
    simp only [processStep, hs, he, mapNext, State.retirePack_eq, putBack_setWord, State.setWord_dp]
  · exact .inr (.inr (.inr ⟨rfl, by simp only [processStep, hs]⟩))

/-- A worker goes on with a packet in hand, takes one up, or nothing happens. -/
theorem workOn_cases (p : Params) (i : Nat) (s : State) :
    (∃ h, s.inHand i = some h ∧ workOn p i s = processStep p h s) ∨
    (s.inHand i = none ∧ i < p.count ∧ i ∉ s.doneSet ∧ s.hands.length < s.nworkers ∧
      workOn p i s = .next { s with hands := s.hands ++ [Hand.fresh i] }) ∨
    (s.inHand i = none ∧ ¬ (i < p.count ∧ i ∉ s.doneSet ∧ s.hands.length < s.nworkers) ∧
      workOn p i s = .next s) := by
  cases hh : s.inHand i with
  | some h => exact .inl ⟨h, rfl, by simp [workOn, hh]⟩
  | none =>
    by_cases he : i < p.count ∧ i ∉ s.doneSet ∧ s.hands.length < s.nworkers
    · obtain ⟨h1, h2, h3⟩ := he
      exact .inr (.inl ⟨rfl, h1, h2, h3, by simp [workOn, hh, State.takePacket, enabled, h1, h2, h3]⟩)
    · refine .inr (.inr ⟨rfl, he, ?_⟩)
      simp only [workOn, hh, State.takePacket]
      rw [if_neg]
      simpa [enabled, and_assoc] using he

/-- Each candidate is a packet in hand, or one that may be taken up. -/
theorem candidate_cases {s : State} {p : Params} (hr : s.doneSet.Pairwise (· < ·)) {k : Nat}
    (hk : k < s.hands.length + s.untaken p) :
    (∃ h ∈ s.hands, h.index = s.candidate k) ∨
    (s.candidate k < p.count ∧ s.candidate k ∉ s.taken ∧ s.hands.length < s.nworkers) := by
  by_cases hl : k < s.hands.length
  · exact .inl ⟨s.hands[k], List.getElem_mem hl, by simp [State.candidate, List.getElem?_eq_getElem hl]⟩
  · have hc : s.candidate k = nthMissing 0 s.taken (k - s.hands.length) := by
      simp [State.candidate, List.getElem?_eq_none (Nat.not_lt.1 hl)]
    have hu : k - s.hands.length < s.untaken p := by omega
    by_cases hw : s.hands.length < s.nworkers
    · rw [State.untaken, if_pos hw] at hu
      exact .inr ⟨hc ▸ nthMissing_lt_of_remaining (taken_rising hr) hu,
        hc ▸ nthMissing_not_mem _ _ (taken_rising hr), hw⟩
    · rw [State.untaken, if_neg hw] at hu; omega

/-- A worker whose move names no packet goes on with some candidate, unless there is none. -/
theorem workAny_eq (p : Params) (s : State) :
    (s.hands.length + s.untaken p = 0 ∧ workAny p s = .next s) ∨
    ∃ k d, k < s.hands.length + s.untaken p ∧ d ≤ 1 ∧
      workAny p s = workOn p (s.candidate k) (s.useDraws d) := by
  rcases hc : s.hands.length + s.untaken p with _ | _ | n
  · exact .inl ⟨rfl, by simp only [workAny, hc]⟩
  · exact .inr ⟨0, 0, Nat.one_pos, Nat.zero_le 1, by simp only [workAny, hc, State.useDraws_zero]⟩
  · exact .inr ⟨_, 1, Nat.mod_lt (Config.pick s.draws) (Nat.succ_pos _), le_rfl, by simp only [workAny, hc]⟩

/-- A worker's move in one of its cases. -/
theorem workerMove_eq (choice : Option Nat) (s : State) :
    (s.phase = .running ∧ ∃ p, s.params = some p ∧
      workerMove choice s = match choice with | some i => workOn p i s | none => workAny p s) ∨
    ((s.phase ≠ .running ∨ s.params = none) ∧ workerMove choice s = .next s) := by
  by_cases hp : s.phase = .running
  · cases hq : s.params with
    | none => exact .inr ⟨.inr rfl, by simp [workerMove, hp, hq]⟩
    | some p => exact .inl ⟨hp, p, rfl, by cases choice <;> simp only [workerMove, hp, hq, if_true]⟩
  · exact .inr ⟨.inl hp, by simp [workerMove, hp]⟩

/-! ### A step -/

/-- A step is a worker's move or one host action, on the state with its agenda popped. -/
theorem step_eq (s : State) :
    (s.agenda = [] ∧ step s = workerMove none s) ∨
    (∃ i rest, s.agenda = .worker i :: rest ∧ step s = workerMove (some i) { s with agenda := rest }) ∨
    (∃ a rest, s.agenda = .host a :: rest ∧ step s = hostAct a { s with agenda := rest }) := by
  rcases ha : s.agenda with _ | ⟨a | i, rest⟩
  · exact .inl ⟨rfl, by simp only [step, ha]⟩
  · exact .inr (.inr ⟨a, rest, rfl, by simp only [step, ha]⟩)
  · exact .inr (.inl ⟨i, rest, rfl, by simp only [step, ha]⟩)

/-- The next state of a host action, by action. -/
theorem hostAct_next {a : HostAction} {s t : State} (h : hostAct a s = .next t) :
    (a = .reset ∧ t = s.resetBlock) ∨
    (∃ r p, a = .start r ∧ t = s.start p) ∨
    (∃ r n, t = (s.answer r).useDraws n) ∨
    (∃ addr bytes, a = .writeMem addr bytes ∧ t = s.hostWrite addr bytes) := by
  cases a with
  | reset => exact .inl ⟨rfl, by simpa [hostAct] using h.symm⟩
  | start r =>
    simp only [hostAct] at h
    split at h
    · next i hi =>
      obtain ⟨p, hp⟩ := exec_invoke (format_of_decodeInvoke hi) s
      rw [hp] at h
      exact .inr (.inl ⟨r, p, rfl, by simpa using h.symm⟩)
    · cases h
  | readPhase => exact .inr (.inr (.inl ⟨_, 0, by simpa [hostAct, State.useDraws_zero] using h.symm⟩))
  | readFaults => exact .inr (.inr (.inl ⟨_, 0, by simpa [hostAct, State.useDraws_zero] using h.symm⟩))
  | readMem addr n => exact .inr (.inr (.inl ⟨_, n, (Host.Outcome.next.inj h).symm⟩))
  | writeMem addr bytes => exact .inr (.inr (.inr ⟨addr, bytes, rfl, (Host.Outcome.next.inj h).symm⟩))

end Sys2Proof.Machine
end

