-- ==== Sys2Proof/Laws/Process.lean ====
section
/-! SUPPORT. One packet on its way: what its parts have computed so far, and what the next part adds. -/

namespace Sys2Proof.Machine

open Sys2Proof.Safety

/-! ### The inputs of a batch -/

/-- In a clean batch no byte of SRC or of a constant array that is in use lies in DST. -/
theorem not_dst_of_used {p : Params} {n : Nat} (hc : Clean p n) {x : Nat × Nat}
    (hx : x = (p.src.base, 64 * p.npackets.toNat) ∨ ∃ r ∈ p.arrays.regions, x = (r.base, 8 * (32 * p.npackets.toNat)))
    {a : Nat} (ha : InBytes x a) : ¬ InBytes (dstBytes p) a := by
  have hp := Classical.not_not.1 (hc .overlap)
  rw [usedBytes, List.pairwise_cons, List.pairwise_cons] at hp
  obtain ⟨h1, h2, -⟩ := hp
  rcases hx with rfl | ⟨r, hr, rfl⟩
  · exact h1 _ List.mem_cons_self a ha
  · exact fun hd => h2 _ (List.mem_map.2 ⟨r, hr, rfl⟩) a hd ha

/-- Memories that agree outside DST give a clean batch the same source words. -/
theorem srcRead_congr {p : Params} {n : Nat} (hc : Clean p n) {m k : Memory}
    (hf : ∀ a, ¬ InBytes (dstBytes p) a → m.read a = k.read a) {i : Nat} (hi : i < p.npackets.toNat) :
    srcRead p m i = srcRead p k i :=
  Memory.readWord_congr fun b hb => hf _ (not_dst_of_used hc (.inl rfl)
    ⟨by simp only [Config.wordBytes]; omega, by simp only [Config.wordBytes]; omega⟩)

/-- And the same constants. -/
theorem constRead_congr {p : Params} {n : Nat} (hc : Clean p n) {m k : Memory}
    (hf : ∀ a, ¬ InBytes (dstBytes p) a → m.read a = k.read a) {r : Region} (hr : r ∈ p.arrays.regions) {j : Nat}
    (hj : j < 32 * p.npackets.toNat) : constRead m r j = constRead k r j :=
  Memory.readConst_congr fun b hb => hf _ (not_dst_of_used hc (.inr ⟨r, hr, rfl⟩)
    ⟨by simp only [Config.constBytes]; omega, by simp only [Config.constBytes]; omega⟩)

/-- So a lane's key and constants are the same. -/
theorem laneEncoded_congr {p : Params} {n : Nat} (hc : Clean p n) {m k : Memory}
    (hf : ∀ a, ¬ InBytes (dstBytes p) a → m.read a = k.read a) (raw : Lane) {j : Nat}
    (hj : j < 32 * p.npackets.toNat) : laneEncoded p m raw j = laneEncoded p k raw j := by
  have hcr := fun {r : Region} (hr : r ∈ p.arrays.regions) => constRead_congr hc hf hr hj
  simp only [laneEncoded, lanePair, pairRead]
  cases ha : p.arrays with
  | single P G =>
    simp only [ha, Arrays.regions, List.mem_cons] at hcr
    simp only [hcr (.inl rfl), hcr (.inr (.inl rfl))]
  | multi p0 g0 p1 g1 p2 g2 =>
    simp only [ha, Arrays.regions, List.mem_cons] at hcr
    simp only [hcr (.inl rfl), hcr (.inr (.inl rfl)), hcr (.inr (.inr (.inl rfl))),
      hcr (.inr (.inr (.inr (.inl rfl)))), hcr (.inr (.inr (.inr (.inr (.inl rfl))))),
      hcr (.inr (.inr (.inr (.inr (.inr (.inl rfl))))))]

/-! ### The word write -/

theorem read_dstWrite_outside (p : Params) (m : Memory) (i : Nat) (w : WideWord) {a : Nat}
    (h : ¬ InBytes (p.dst.base + 64 * i, 64) a) : (dstWrite p m i w).read a = m.read a :=
  Memory.read_writeWord_outside m w (by simp only [dstAddr, Config.wordBytes, InBytes] at *; omega)

theorem dstLane_dstWrite_same {m : Memory} (hm : m.wf = true) (p : Params) (i : Nat) (w : WideWord) (l : Nat) :
    dstLane p (dstWrite p m i w) i l = wordLane w l := by
  have h : (dstWrite p m i w).readWord (p.dst.base + 64 * i) = w := Memory.readWord_writeWord hm _ w
  rw [dstLane, h, wordLane]

theorem dstLane_dstWrite_other (p : Params) (m : Memory) {i j : Nat} (h : j ≠ i) (w : WideWord) (l : Nat) :
    dstLane p (dstWrite p m i w) j l = dstLane p m j l := by
  have h : (dstWrite p m i w).readWord (p.dst.base + 64 * j) = m.readWord (p.dst.base + 64 * j) :=
    Memory.readWord_congr fun b hb => read_dstWrite_outside p m i w (by simp only [InBytes]; omega)
  rw [dstLane, h, dstLane]

/-! ### One lane -/

theorem narrow16_eq (k : Int) : Binary64.narrow16 k = BitVec.ofInt 16 k := by
  apply BitVec.eq_of_toNat_eq
  have h := Binary64.narrow16_toNat k
  rw [BitVec.toNat_ofInt]
  norm_num
  omega

/-- CAL sets the lane, to its value where that is no draw. -/
theorem calibrate_calValue (a : Lane) (p g : Real64) (s : State) :
    ∃ c d, d ≤ 1 ∧ calibrate a p g s = (s.setLane c).useDraws d ∧ ∀ c', calValue a ⟨p, g⟩ = some c' → c = c' := by
  rw [calibrate_eq]
  simp only [calValue]
  rw [show Binary64.mul64 (Binary64.sub64 (Binary64.to64 a.toNat) p) g = calProduct a p g from rfl]
  split
  · refine ⟨_, 0, Nat.zero_le 1, (State.useDraws_zero _).symm, fun c' h => ?_⟩
    rw [narrow16_eq, Binary64.roundHalfAway_eq]
    exact Option.some.inj h
  · exact ⟨_, 1, le_rfl, rfl, fun c' h => nomatch h⟩

theorem magnitude14_eq (raw : Lane) : raw &&& 0x3FFF#16 = magnitude14 raw := by
  apply BitVec.eq_of_getLsbD_eq
  intro b hb
  have h : ∀ b : Fin 16, (0x3FFF#16).getLsbD b.val = decide (b.val < 14) := by decide
  rw [BitVec.getLsbD_and, h ⟨b, hb⟩, magnitude14, BitVec.getLsbD_setWidth, BitVec.getLsbD_extractLsb']
  simp [hb, Bool.and_comm]

theorem rawMode_toNat (raw : Lane) : (raw >>> 14).toNat = (rawMode raw).toNat := by
  simp only [rawMode, BitVec.toNat_ushiftRight, BitVec.extractLsb'_toNat]
  have := raw.isLt
  rw [Nat.shiftRight_eq_div_pow]
  omega

/-- The lane of a batch's result, in the words of the machine: under SINGLE. -/
theorem batchLane_single {p : Params} {P G : Region} (hp : p.arrays = .single P G) (m : Memory) (i l : Nat) :
    batchLane p m i l = calValue (wordLane (srcRead p m i) l) (pairRead m P G (absIndex i l)) := by
  simp only [batchLane, hp, wordLane, pairRead, absIndex, Config.lanes]

/-- And under MULTI, by mode code. -/
theorem batchLane_multi {p : Params} {p0 g0 p1 g1 p2 g2 : Region} (hp : p.arrays = .multi p0 g0 p1 g1 p2 g2)
    (m : Memory) (i l : Nat) : batchLane p m i l =
      if rawMode (wordLane (srcRead p m i) l) = 0 then
        calValue (magnitude14 (wordLane (srcRead p m i) l)) (pairRead m p0 g0 (absIndex i l))
      else if rawMode (wordLane (srcRead p m i) l) = 1 then
        calValue (magnitude14 (wordLane (srcRead p m i) l)) (pairRead m p1 g1 (absIndex i l))
      else if rawMode (wordLane (srcRead p m i) l) = 2 then some Config.sentinel
      else calValue (magnitude14 (wordLane (srcRead p m i) l)) (pairRead m p2 g2 (absIndex i l)) := by
  have hs : BitVec.ofInt 16 (-32676) = Config.sentinel := by decide
  have h : ∀ t : BitVec 2, t = 0 ∨ t = 1 ∨ t = 2 ∨ t = 3 := by decide
  simp only [batchLane, hp, rawMode_toNat, magnitude14_eq, hs, wordLane, pairRead, absIndex, Config.lanes]
  rcases h (rawMode (BitVec.extractLsb' (16 * l) 16 (srcRead p m i))) with h1 | h1 | h1 | h1 <;> simp [h1]

/-- What a transform leaves: the lane holds v where v is given, and at most one free value is used up. -/
def Lands (op : Instr) (s : State) (v : Option Lane) : Prop :=
  ∃ c d, d ≤ 1 ∧ exec op s = .next ((s.setLane c).useDraws d) ∧ ∀ c', v = some c' → c = c'

theorem lands_calibrate {op : Instr} {s : State} {a : Lane} {c : ConstPair}
    (he : exec op s = .next (calibrate a c.p c.g s)) : Lands op s (calValue a c) :=
  have ⟨c', d, hd, hcal, hv⟩ := calibrate_calValue a c.p c.g s
  ⟨c', d, hd, he.trans (congrArg _ hcal), hv⟩

/-- The operation a lane's key decodes to completes with the batch's value of that lane, where that is no draw. -/
theorem exec_lane (p : Params) (m : Memory) (i l : Nat) (s : State) :
    ∃ op, decode (laneEncoded p m (wordLane (srcRead p m i) l) (absIndex i l)) = .ok op ∧
      Lands op s (batchLane p m i l) := by
  rcases hp : p.arrays with ⟨P, G⟩ | ⟨p0, g0, p1, g1, p2, g2⟩
  · rw [batchLane_single hp]
    generalize wordLane (srcRead p m i) l = raw
    generalize absIndex i l = j
    refine ⟨.xformS raw (constRead m P j) (constRead m G j), ?_, lands_calibrate rfl⟩
    simp [laneEncoded, Params.policy, Arrays.policy, lanePair, hp, decode, decodeKey, selectKey_single, pairRead]
  · have h : ∀ t : BitVec 2, t = 0 ∨ t = 1 ∨ t = 2 ∨ t = 3 := by decide
    have hpol : p.policy = .multi := by rw [Params.policy, hp]; rfl
    rw [batchLane_multi hp]
    generalize wordLane (srcRead p m i) l = raw
    generalize absIndex i l = j
    rcases h (rawMode raw) with h1 | h1 | h1 | h1
    · rw [if_pos h1]
      refine ⟨.xformM0 raw (constRead m p0 j) (constRead m g0 j), ?_, lands_calibrate rfl⟩
      simp [laneEncoded, hpol, lanePair, hp, decode, decodeKey, selectKey_multi, h1, pairRead, topOp]
    · rw [if_neg (by simp [h1]), if_pos h1]
      refine ⟨.xformM1 raw (constRead m p1 j) (constRead m g1 j), ?_, lands_calibrate rfl⟩
      simp [laneEncoded, hpol, lanePair, hp, decode, decodeKey, selectKey_multi, h1, pairRead, topOp]
    · rw [if_neg (by simp [h1]), if_neg (by simp [h1]), if_pos h1]
      refine ⟨.xformInv raw, ?_, Config.sentinel, 0, Nat.zero_le 1, rfl, fun c' h => Option.some.inj h⟩
      simp [laneEncoded, hpol, lanePair, hp, decode, decodeKey, selectKey_multi, h1, topOp]
    · rw [if_neg (by simp [h1]), if_neg (by simp [h1]), if_neg (by simp [h1])]
      refine ⟨.xformM3 raw (constRead m p2 j) (constRead m g2 j), ?_, lands_calibrate rfl⟩
      simp [laneEncoded, hpol, lanePair, hp, decode, decodeKey, selectKey_multi, h1, pairRead, topOp]

/-! ### A packet in hand -/

/-- How many of the 36 parts of PROCESS(i) are done: the taking, UNPACK, the lanes, PACK. -/
def Stage.parts : Stage → Nat
  | .unpack => 1
  | .lane l => l.val + 2
  | .pack => 34
  | .write => 35

theorem parts_afterLane (l : Fin 32) : (Stage.afterLane l).parts = l.val + 3 := by
  unfold Stage.afterLane
  split
  · rfl
  · simp only [Stage.parts]; omega

/-- What the parts done so far have computed, for a batch whose inputs lie in memory m: each lane done is the
batch's value, where that is no draw. -/
def HandOk (p : Params) (m : Memory) (h : Hand) : Prop :=
  match h.stage with
  | .unpack => True
  | .lane l => h.lanesIn = unpackLanes (srcRead p m h.index) ∧
      ∀ k : Fin 32, k < l → ∀ c, batchLane p m h.index k.val = some c → h.lanesOut[k.val]'k.isLt = c
  | .pack => ∀ (k : Fin 32) c, batchLane p m h.index k.val = some c → h.lanesOut[k.val]'k.isLt = c
  | .write => ∀ (k : Fin 32) c, batchLane p m h.index k.val = some c → wordLane h.word k.val = c

theorem handOk_fresh (p : Params) (m : Memory) (i : Nat) : HandOk p m (Hand.fresh i) := trivial

/-- Lane l done: the lanes up to l hold the batch's values. -/
theorem handOk_afterLane {p : Params} {m : Memory} {h : Hand} {l : Fin 32} {c : Lane} (hs : h.stage = .lane l)
    (ho : HandOk p m h) (hc : ∀ c', batchLane p m h.index l.val = some c' → c = c') :
    HandOk p m { h with stage := Stage.afterLane l, lanesOut := h.lanesOut.set l.val c l.isLt } := by
  simp only [HandOk, hs] at ho
  have hl : ∀ k : Fin 32, k ≤ l → ∀ c', batchLane p m h.index k.val = some c' →
      (h.lanesOut.set l.val c l.isLt)[k.val]'k.isLt = c' := by
    intro k hk c' hb
    rw [Vector.getElem_set]
    split
    · next he => exact hc c' (by rw [he]; exact hb)
    · next he => exact ho.2 k (lt_of_le_of_ne hk fun e => he (congrArg Fin.val e.symm)) c' hb
  by_cases hn : l.val + 1 < 32
  · simp only [HandOk, Stage.afterLane, dif_pos hn]
    exact ⟨ho.1, fun k hk => hl k (Nat.le_of_lt_succ hk)⟩
  · simp only [HandOk, Stage.afterLane, dif_neg hn]
    exact fun k => hl k (by have := k.isLt; show k.val ≤ l.val; omega)

/-- The next part of a packet in hand, whose inputs are as in memory m: it is put back one part further with what it
should have computed, or its word, as it should be, is written. -/
theorem processStep_ok {p : Params} {m : Memory} {h : Hand} {s : State} {n : Nat} (hc : Clean p n)
    (hi : h.index < p.npackets.toNat) (hf : ∀ a, ¬ InBytes (dstBytes p) a → s.mem.read a = m.read a)
    (ho : HandOk p m h) :
    (∃ g d, d ≤ 1 ∧ g.index = h.index ∧ g.stage.parts = h.stage.parts + 1 ∧ HandOk p m g ∧
      processStep p h s = .next ((s.useDraws d).putBack g)) ∨
    (h.stage = .write ∧ processStep p h s = .next (s.finishPacket p h)) := by
  rcases hs : h.stage with _ | l | _ | _
  · rcases processStep_cases p h s with ⟨-, e⟩ | ⟨l, c, d, hl, -⟩ | ⟨hl, -⟩ | ⟨hl, -⟩
    · refine .inl ⟨{ h with stage := .lane 0, lanesIn := _ }, 0, Nat.zero_le 1, rfl, rfl, ?_, e⟩
      rw [srcRead_congr hc hf hi]
      exact ⟨rfl, fun k hk => absurd hk (Nat.not_lt_zero _)⟩
    all_goals rw [hs] at hl; cases hl
  · have ho' := ho
    simp only [HandOk, hs] at ho'
    have hj : absIndex h.index l.val < 32 * p.npackets.toNat := by
      have := l.isLt; simp only [absIndex, Config.lanes]; omega
    obtain ⟨op, h1, c, d, h2, h3, h4⟩ := exec_lane p m h.index l.val s
    refine .inl ⟨{ h with stage := Stage.afterLane l, lanesOut := _ }, d, h2, rfl, ?_, handOk_afterLane hs ho h4, ?_⟩
    · exact parts_afterLane l
    · have hd : decode (laneEncoded p s.mem (h.lanesIn[l.val]'l.isLt) (absIndex h.index l.val)) = .ok op := by
        rw [laneEncoded_congr hc hf _ hj]
        simpa only [ho'.1, getElem_unpackLanes] using h1
      simp only [processStep, hs, hd, h3, mapNext, State.retireLane_eq, putBack_setLane, State.useDraws_dp,
        State.setLane_dp]
  · rcases processStep_cases p h s with ⟨hl, -⟩ | ⟨l, c, d, hl, -⟩ | ⟨-, e⟩ | ⟨hl, -⟩
    · rw [hs] at hl; cases hl
    · rw [hs] at hl; cases hl
    · refine .inl ⟨{ h with stage := .write, word := _ }, 0, Nat.zero_le 1, rfl, rfl, ?_, e⟩
      simp only [HandOk, hs] at ho
      exact fun k c hk => (wordLane_packLanes h.lanesOut k).trans (ho k c hk)
    · rw [hs] at hl; cases hl
  · exact .inr ⟨rfl, by simp only [processStep, hs]⟩

end Sys2Proof.Machine
end

