-- ==== Sys2Proof/Laws/Rounding.lean ====
section
/-! SUPPORT. `roundTo64` is correct rounding: to nearest, ties to the even fraction, infinity from
2^1024 - 2^970 on (spec/00_scope.md R13). -/

namespace Sys2Proof.Binary64

open Sys2Proof.Safety

/-! ### Fields of a composed value -/

section Fields

variable (neg : Bool) (b : Nat)

/-- A value composed of a sign and the 63 bits below it. -/
def compose : Real64 := BitVec.ofNat 64 ((if neg then 2 ^ 63 else 0) + b)

theorem compose_toNat (hb : b < 2 ^ 63) :
    (compose neg b).toNat = (if neg then 2 ^ 63 else 0) + b := by
  rw [compose, BitVec.toNat_ofNat, Nat.mod_eq_of_lt]
  split <;> omega

theorem sign_compose (hb : b < 2 ^ 63) : sign (compose neg b) = neg := by
  rw [sign, BitVec.getLsbD, compose_toNat neg b hb]
  cases neg
  · rw [if_neg (by simp), Nat.zero_add]; exact Nat.testBit_lt_two_pow hb
  · rw [if_pos rfl, Nat.testBit_two_pow_add_eq, Nat.testBit_lt_two_pow hb]; rfl

theorem expField_compose (hb : b < 2 ^ 63) : expField (compose neg b) = b / 2 ^ 52 := by
  rw [expField, BitVec.extractLsb'_toNat, compose_toNat neg b hb, Nat.shiftRight_eq_div_pow]
  cases neg <;> simp <;> omega

theorem fraction_compose (hb : b < 2 ^ 63) : fraction (compose neg b) = b % 2 ^ 52 := by
  rw [fraction, BitVec.extractLsb'_toNat, compose_toNat neg b hb, Nat.shiftRight_eq_div_pow]
  cases neg <;> simp; omega

end Fields

/-! ### Rounding a quotient -/

theorem divPow2Even_bounds (m q : Nat) :
    m / 2 ^ q ≤ divPow2Even m q ∧ divPow2Even m q ≤ m / 2 ^ q + 1 := by
  unfold divPow2Even
  dsimp only
  split <;> omega

/-- The nearest whole number to m / 2^q, the even one at a tie. -/
theorem divPow2Even_near (m q : Nat) :
    |(divPow2Even m q : Rat) - (m : Rat) / 2 ^ q| ≤ 1 / 2 ∧
      (|(divPow2Even m q : Rat) - (m : Rat) / 2 ^ q| = 1 / 2 → divPow2Even m q % 2 = 0) := by
  have hp : 0 < 2 ^ q := by positivity
  have hpq : (0 : Rat) < 2 ^ q := by positivity
  obtain ⟨t, r, hr, hm, ht, hr'⟩ : ∃ t r, r < 2 ^ q ∧ m = 2 ^ q * t + r ∧ m / 2 ^ q = t ∧ m % 2 ^ q = r :=
    ⟨m / 2 ^ q, m % 2 ^ q, Nat.mod_lt _ hp, (Nat.div_add_mod m _).symm, rfl, rfl⟩
  have hz : (m : Rat) / 2 ^ q = t + (r : Rat) / 2 ^ q := by
    rw [hm]; push_cast; field_simp
  have hrq : (r : Rat) / 2 ^ q < 1 := by
    rw [div_lt_one hpq]; exact_mod_cast hr
  have hr0 : 0 ≤ (r : Rat) / 2 ^ q := by positivity
  have hhalf : ∀ {c : Prop}, ((1 : Rat) / 2 < (r : Rat) / 2 ^ q ↔ 2 ^ q < 2 * r) ∧
      ((1 : Rat) / 2 = (r : Rat) / 2 ^ q ↔ 2 * r = 2 ^ q) := by
    intro _
    rw [lt_div_iff₀ hpq, eq_div_iff hpq.ne']
    constructor
    · constructor
      · intro h
        have : (2 : Rat) ^ q < 2 * r := by linarith
        exact_mod_cast this
      · intro h
        have : (2 : Rat) ^ q < 2 * r := by exact_mod_cast h
        linarith
    · constructor
      · intro h
        have : (2 : Rat) * r = 2 ^ q := by linarith
        exact_mod_cast this
      · intro h
        have : (2 : Rat) * r = 2 ^ q := by exact_mod_cast h
        linarith
  obtain ⟨hgt, heq⟩ := @hhalf True
  rw [hz]
  unfold divPow2Even
  simp only [ht, hr']
  split
  · next h =>
    have h12 : (1 : Rat) / 2 ≤ (r : Rat) / 2 ^ q := by
      rcases h with h | h
      · exact (hgt.2 h).le
      · exact (heq.2 h.1).le
    push_cast
    rw [show (t : Rat) + 1 - (t + (r : Rat) / 2 ^ q) = 1 - (r : Rat) / 2 ^ q by ring,
      abs_of_nonneg (by linarith)]
    refine ⟨by linarith, fun h' => ?_⟩
    have h2 : 2 * r = 2 ^ q := heq.1 (by linarith)
    rcases h with h | h
    · omega
    · omega
  · next h =>
    rw [show (t : Rat) - (t + (r : Rat) / 2 ^ q) = -((r : Rat) / 2 ^ q) by ring, abs_neg,
      abs_of_nonneg hr0]
    have hle : (r : Rat) / 2 ^ q ≤ 1 / 2 := not_lt.1 fun hlt => h (.inl (hgt.1 hlt))
    refine ⟨hle, fun h' => ?_⟩
    have h2 : 2 * r = 2 ^ q := heq.1 h'.symm
    by_contra hodd
    exact h (.inr ⟨h2, by omega⟩)

/-- No whole number is nearer to z than one within 1/2 of it; one as near is itself at a distance of 1/2. -/
theorem nearest_integer {z : Rat} {t k : Int} (ht : |(t : Rat) - z| ≤ 1 / 2) :
    |(t : Rat) - z| ≤ |(k : Rat) - z| ∧
      (|(t : Rat) - z| = |(k : Rat) - z| → k ≠ t → |(t : Rat) - z| = 1 / 2) := by
  by_cases hk : k = t
  · subst hk; exact ⟨le_rfl, fun _ h => absurd rfl h⟩
  have h1 : (1 : Rat) ≤ |(k : Rat) - t| := by
    have : (1 : Int) ≤ |k - t| := Int.one_le_abs (sub_ne_zero.2 hk)
    exact_mod_cast this
  have h2 : |(k : Rat) - t| ≤ |(k : Rat) - z| + |(t : Rat) - z| := by
    have := abs_sub_le (k : Rat) z t
    rwa [abs_sub_comm z (t : Rat)] at this
  refine ⟨by linarith, fun h _ => ?_⟩
  linarith

/-! ### The last place -/

theorem lastPlace_ge (m scale : Nat) : scale - 1074 ≤ lastPlace m scale := le_max_right _ _

/-- The quotient has at most 53 bits, and at least 53 where the last place is above 2^-1074. -/
theorem quotient_bounds (m scale : Nat) :
    m / 2 ^ lastPlace m scale < 2 ^ 53 ∧
      (0 < lastPlace m scale - (scale - 1074) → 2 ^ 52 ≤ m / 2 ^ lastPlace m scale) := by
  constructor
  · rw [Nat.div_lt_iff_lt_mul (by positivity), ← pow_add]
    refine Nat.lt_log2_self.trans_le (Nat.pow_le_pow_right (by norm_num) ?_)
    have : Nat.log2 m - 52 ≤ lastPlace m scale := le_max_left _ _
    omega
  · intro h
    have hq : lastPlace m scale = Nat.log2 m - 52 := by
      unfold lastPlace at h ⊢
      rcases le_total (Nat.log2 m - 52) (scale - 1074) with h' | h'
      · rw [max_eq_right h'] at h; omega
      · exact max_eq_left h'
    have h52 : 52 + lastPlace m scale = Nat.log2 m := by omega
    have hm : m ≠ 0 := by
      rintro rfl
      simp [Nat.log2_zero] at h52
    rw [Nat.le_div_iff_mul_le (by positivity), ← pow_add, h52]
    exact Nat.log2_self_le hm

/-! ### Values that fit -/

theorem significand_lt (x : Real64) : significand x < 2 ^ 53 := by
  have h : fraction x < 2 ^ 52 := (x.extractLsb' 0 52).isLt
  unfold significand
  split <;> omega

/-- The value, finiteness and evenness of a composed value whose significand t and exponent e fit. -/
theorem compose_fits (neg : Bool) {e t : Nat} (h1 : t ≤ 2 ^ 53) (h2 : 0 < e → 2 ^ 52 ≤ t)
    (h3 : e * 2 ^ 52 + t < 2047 * 2 ^ 52) :
    isFinite (compose neg (e * 2 ^ 52 + t)) = true ∧
      fixedMag (compose neg (e * 2 ^ 52 + t)) = t * 2 ^ e ∧
      (t % 2 = 0 → fraction (compose neg (e * 2 ^ 52 + t)) % 2 = 0) := by
  have hb : e * 2 ^ 52 + t < 2 ^ 63 := by omega
  have he := expField_compose neg _ hb
  have hf := fraction_compose neg _ hb
  refine ⟨by rw [isFinite, he]; simp; omega, ?_, by rw [hf]; omega⟩
  rw [fixedMag, significand, he, hf]
  rcases Nat.lt_or_ge t (2 ^ 52) with ht | ht
  · have he0 : e = 0 := by by_contra h; have := h2 (Nat.pos_of_ne_zero h); omega
    subst he0
    rw [if_pos (by omega), show (0 * 2 ^ 52 + t) / 2 ^ 52 - 1 = 0 by omega,
      show (0 * 2 ^ 52 + t) % 2 ^ 52 = t by omega]
  rcases Nat.lt_or_ge t (2 ^ 53) with ht' | ht'
  · rw [if_neg (by omega), show (e * 2 ^ 52 + t) / 2 ^ 52 - 1 = e by omega,
      show 2 ^ 52 + (e * 2 ^ 52 + t) % 2 ^ 52 = t by omega]
  · have : t = 2 ^ 53 := by omega
    subst this
    rw [if_neg (by omega), show (e * 2 ^ 52 + 2 ^ 53) / 2 ^ 52 - 1 = e + 1 by omega,
      show 2 ^ 52 + (e * 2 ^ 52 + 2 ^ 53) % 2 ^ 52 = 2 ^ 52 by omega, pow_succ' 2 e]
    ring

/-- In units of 2^e, the nearest whole number t to z is at least as near to z as any finite value; a different
value that is as near is at a distance of half a unit. Above e = 0, z has 53 bits. -/
theorem nearest_value {z : Rat} {e t : Nat} (ht : |(t : Rat) - z| ≤ 1 / 2) (hz : 0 < e → (2 : Rat) ^ 52 ≤ z)
    (y : Real64) {Y : Int} (hY : Y.natAbs = fixedMag y) :
    |(t : Rat) - z| * 2 ^ e ≤ |(Y : Rat) - z * 2 ^ e| ∧
      (|(t : Rat) - z| * 2 ^ e = |(Y : Rat) - z * 2 ^ e| → (Y : Rat) ≠ t * 2 ^ e →
        |(t : Rat) - z| = 1 / 2) := by
  have hp : (0 : Rat) < 2 ^ e := by positivity
  have ht' : |((t : Int) : Rat) - z| ≤ 1 / 2 := by exact_mod_cast ht
  by_cases hd : (2 : Int) ^ e ∣ Y
  · obtain ⟨k, rfl⟩ := hd
    have hk : ((2 ^ e * k : Int) : Rat) - z * 2 ^ e = ((k : Rat) - z) * 2 ^ e := by push_cast; ring
    rw [hk, abs_mul, abs_of_pos hp]
    obtain ⟨h1, h2⟩ := nearest_integer (k := k) ht'
    rw [show ((t : Int) : Rat) = (t : Rat) by push_cast; rfl] at h1 h2
    refine ⟨mul_le_mul_of_nonneg_right h1 hp.le, fun heq hne => ?_⟩
    exact h2 (mul_right_cancel₀ hp.ne' heq) (by rintro rfl; exact hne (by push_cast; ring))
  · have hlt : expField y - 1 < e := by
      by_contra hge
      refine hd (Int.natAbs_dvd_natAbs.1 ?_)
      rw [hY, Int.natAbs_pow]
      exact (pow_dvd_pow 2 (not_lt.1 hge)).trans (Dvd.intro_left _ rfl)
    have hmag : fixedMag y < 2 ^ 52 * 2 ^ e := by
      calc fixedMag y < 2 ^ 53 * 2 ^ (expField y - 1) :=
            Nat.mul_lt_mul_of_pos_right (significand_lt y) (by positivity)
        _ ≤ 2 ^ 53 * 2 ^ (e - 1) := by gcongr <;> omega
        _ = 2 ^ 52 * 2 ^ e := by rw [← pow_add, ← pow_add]; congr 1; omega
    have hYlt : (Y : Rat) < 2 ^ 52 * 2 ^ e := by
      have : Y < 2 ^ 52 * 2 ^ e := by
        have h1 : Y ≤ (Y.natAbs : Int) := Int.le_natAbs
        rw [hY] at h1
        exact h1.trans_lt (by exact_mod_cast hmag)
      exact_mod_cast this
    have hz52 := hz (by omega)
    have hzp : (2 : Rat) ^ 52 * 2 ^ e ≤ z * 2 ^ e := by gcongr
    have h1 : |((t : Int) : Rat) - z| ≤ z - 2 ^ 52 := by
      have := (nearest_integer (k := 2 ^ 52) ht').1
      rw [show (((2 ^ 52 : Int)) : Rat) = 2 ^ 52 by push_cast; rfl] at this
      rwa [abs_sub_comm ((2 : Rat) ^ 52) z, abs_of_nonneg (sub_nonneg.2 hz52)] at this
    rw [show ((t : Int) : Rat) = (t : Rat) by push_cast; rfl] at h1
    have h2 : |(t : Rat) - z| * 2 ^ e ≤ (z - 2 ^ 52) * 2 ^ e := mul_le_mul_of_nonneg_right h1 hp.le
    have h3 : |(Y : Rat) - z * 2 ^ e| = z * 2 ^ e - Y := by
      rw [abs_sub_comm, abs_of_nonneg (by linarith)]
    rw [h3]
    exact ⟨by linarith, fun heq => by linarith⟩

/-! ### The rounding -/

/-- m / 2^scale in units of 2^-1074: the quotient z = m / 2^q, q the last place, times 2^e. -/
theorem exact_in_units {m scale : Nat} (hs : 1074 ≤ scale) :
    (m : Rat) / 2 ^ scale =
      (m : Rat) / 2 ^ lastPlace m scale * 2 ^ (lastPlace m scale - (scale - 1074)) / 2 ^ 1074 := by
  have hq := lastPlace_ge m scale
  have h : lastPlace m scale + 1074 = scale + (lastPlace m scale - (scale - 1074)) := by omega
  have h2 : (2 : Rat) ^ lastPlace m scale * 2 ^ 1074 =
      2 ^ scale * 2 ^ (lastPlace m scale - (scale - 1074)) := by rw [← pow_add, ← pow_add, h]
  generalize (2 : Rat) ^ 1074 = d at *
  have hd : d ≠ 0 := by
    rintro rfl
    have : (2 : Rat) ^ scale * 2 ^ (lastPlace m scale - (scale - 1074)) ≠ 0 := by positivity
    exact this (by rw [← h2, mul_zero])
  have h3 : (2 : Rat) ^ lastPlace m scale ≠ 0 := by positivity
  have h4 : (2 : Rat) ^ scale ≠ 0 := by positivity
  rw [div_mul_eq_mul_div, div_div, div_eq_div_iff h4 (mul_ne_zero h3 hd), h2]
  ring

/-- The composed bits reach the infinity exactly when the exact value reaches the threshold of R13. -/
theorem overflow_iff {z : Rat} {e t : Nat} (h1 : t ≤ 2 ^ 53) (h2 : 0 < e → (2 : Rat) ^ 52 ≤ z)
    (hz : z < 2 ^ 53) (ht : |(t : Rat) - z| ≤ 1 / 2 ∧ (|(t : Rat) - z| = 1 / 2 → t % 2 = 0))
    (h52 : 0 < e → 2 ^ 52 ≤ t) :
    2047 * 2 ^ 52 ≤ e * 2 ^ 52 + t ↔ (2 ^ 1024 - 2 ^ 970 : Rat) ≤ z * 2 ^ e / 2 ^ 1074 := by
  have hth : (2 ^ 1024 - 2 ^ 970 : Rat) ≤ z * 2 ^ e / 2 ^ 1074 ↔
      ((2 : Rat) ^ 53 - 1 / 2) * 2 ^ 2045 ≤ z * 2 ^ e := by
    rw [le_div_iff₀ (by positivity)]
    have : (2 ^ 1024 - 2 ^ 970 : Rat) * 2 ^ 1074 = ((2 : Rat) ^ 53 - 1 / 2) * 2 ^ 2045 := by
      rw [sub_mul, sub_mul, ← pow_add, ← pow_add, ← pow_add, one_div_mul_eq_div,
        show (2 : Rat) ^ 2045 / 2 = 2 ^ 2044 by
          rw [div_eq_iff (by norm_num), ← pow_succ]]
    rw [this]
  rw [hth]
  rcases Nat.lt_trichotomy e 2045 with he | he | he
  · refine iff_of_false (by omega) (not_le.2 ?_)
    have h3 : (2 : Rat) ^ e ≤ 2 ^ 2044 := pow_le_pow_right₀ (by norm_num) (by omega)
    have h4 : (2 : Rat) ^ 2045 = 2 * 2 ^ 2044 := by rw [← pow_succ']
    have h5 : (0 : Rat) < 2 ^ 2044 := by positivity
    have h6 : (0 : Rat) < 2 ^ e := by positivity
    have h7 : z * 2 ^ e < 2 ^ 53 * 2 ^ e := mul_lt_mul_of_pos_right hz h6
    rw [h4]
    clear hth h4
    generalize (2 : Rat) ^ 2044 = a at *
    generalize (2 : Rat) ^ e = b at *
    linarith
  · subst he
    have hp : (0 : Rat) < 2 ^ 2045 := by positivity
    rw [mul_le_mul_iff_left₀ hp]
    rw [abs_le] at ht
    constructor
    · intro h
      have : t = 2 ^ 53 := by omega
      rw [this] at ht
      push_cast at ht
      linarith [ht.1.2]
    · intro h
      have h3 : (2 : Rat) ^ 53 - 1 ≤ t := by linarith [ht.1.1]
      have h4 : 2 ^ 53 - 1 ≤ t := by
        have : (2 : Rat) ^ 53 ≤ t + 1 := by linarith
        have : (2 ^ 53 : Nat) ≤ t + 1 := by exact_mod_cast this
        omega
      rcases Nat.lt_or_ge t (2 ^ 53) with h5 | h5
      · have h6 : t = 2 ^ 53 - 1 := by omega
        have h7 : (t : Rat) = 2 ^ 53 - 1 := by rw [h6]; norm_num
        have h8 : |(t : Rat) - z| = 1 / 2 := by
          rw [h7] at ht ⊢
          rw [abs_sub_comm, abs_of_nonneg (by linarith)]
          linarith [ht.1.1]
        have := ht.2 h8
        omega
      · omega
  · refine iff_of_true (by have := h52 (by omega); omega) ?_
    have h3 : (2 : Rat) ^ 2046 ≤ 2 ^ e := pow_le_pow_right₀ (by norm_num) (by omega)
    have h4 : (2 : Rat) ^ 2046 = 2 * 2 ^ 2045 := by rw [← pow_succ']
    have h5 : (0 : Rat) < 2 ^ 2045 := by positivity
    have h6 := h2 (by omega)
    have h7 : (2 : Rat) ^ 52 * 2 ^ e ≤ z * 2 ^ e := mul_le_mul_of_nonneg_right h6 (by positivity)
    rw [h4] at h3
    clear hth h4
    generalize (2 : Rat) ^ 2045 = a at *
    generalize (2 : Rat) ^ e = b at *
    linarith

/-- An exact value m / 2^scale with a sign. -/
def signedQuotient (neg : Bool) (m scale : Nat) : Rat := (if neg then -1 else 1) * ((m : Rat) / 2 ^ scale)

/-- `roundTo64` rounds correctly, whatever the magnitude (R13). -/
theorem roundTo64_roundsTo (neg : Bool) (m : Nat) {scale : Nat} (hs : 1074 ≤ scale) :
    RoundsTo (signedQuotient neg m scale) (roundTo64 neg m scale) := by
  set q := lastPlace m scale with hq
  set e := q - (scale - 1074) with he
  set t := divPow2Even m q with ht
  obtain ⟨hb1, hb2⟩ := quotient_bounds m scale
  rw [← hq] at hb1 hb2
  obtain ⟨hd1, hd2⟩ := divPow2Even_bounds m q
  have hnear := divPow2Even_near m q
  set z : Rat := (m : Rat) / 2 ^ q with hz
  have hz53 : z < 2 ^ 53 := by
    rw [hz, div_lt_iff₀ (by positivity)]
    have : m < 2 ^ 53 * 2 ^ q := (Nat.div_lt_iff_lt_mul (by positivity)).1 hb1
    exact_mod_cast this
  have hz52 : 0 < e → (2 : Rat) ^ 52 ≤ z := by
    intro h
    rw [hz, le_div_iff₀ (by positivity)]
    have := (Nat.le_div_iff_mul_le (by positivity)).1 (hb2 h)
    exact_mod_cast this
  have ht53 : t ≤ 2 ^ 53 := by omega
  have ht52 : 0 < e → 2 ^ 52 ≤ t := fun h => (hb2 h).trans hd1
  have hsq : signedQuotient neg m scale = (if neg then -1 else 1) * (z * 2 ^ e / 2 ^ 1074) := by
    rw [signedQuotient, exact_in_units hs]
  have hz0 : 0 ≤ z := div_nonneg (Nat.cast_nonneg m) (pow_nonneg zero_le_two q)
  rw [← ht] at hnear hd1 hd2
  have hover := overflow_iff ht53 hz52 hz53 hnear ht52
  have hcomp : roundTo64 neg m scale = compose neg (min (e * 2 ^ 52 + t) (2047 * 2 ^ 52)) := rfl
  have hpos : 0 ≤ z * 2 ^ e / 2 ^ 1074 :=
    div_nonneg (mul_nonneg hz0 (pow_nonneg zero_le_two _)) (pow_nonneg zero_le_two _)
  clear_value z t e q
  have habs : |signedQuotient neg m scale| = z * 2 ^ e / 2 ^ 1074 := by
    generalize z * 2 ^ e / 2 ^ 1074 = x at hsq hpos
    rw [hsq, abs_mul, abs_of_nonneg hpos, show |(if neg then (-1 : Rat) else 1)| = 1 by cases neg <;> simp,
      one_mul]
  rw [hcomp, RoundsTo, habs]
  split
  · next h =>
    have hmin := hover.2 h
    rw [min_eq_right hmin]
    have hb : 2047 * 2 ^ 52 < 2 ^ 63 := by norm_num
    refine ⟨?_, ?_⟩
    · rw [isInf, expField_compose _ _ hb, fraction_compose _ _ hb]; rfl
    · rw [sign_compose _ _ hb, hsq]
      have h0 : 0 < z * 2 ^ e / 2 ^ 1074 := by
        refine lt_of_lt_of_le ?_ h
        rw [sub_pos]
        exact pow_lt_pow_right₀ (by norm_num) (by norm_num)
      generalize z * 2 ^ e / 2 ^ 1074 = x at hpos h0
      cases neg
      · simpa using hpos
      · simpa using h0
  · next h =>
    have hmin := not_le.1 (fun h' => h (hover.1 h'))
    rw [min_eq_left hmin.le]
    obtain ⟨hfin, hmag, heven⟩ := compose_fits neg ht53 ht52 hmin
    refine ⟨hfin, fun y hy => ?_⟩
    have hb : e * 2 ^ 52 + t < 2 ^ 63 := by omega
    have hr : real (compose neg (e * 2 ^ 52 + t)) =
        (if neg then -1 else 1) * ((t : Rat) * 2 ^ e / 2 ^ 1074) := by
      rw [real_eq_fixed, fixed, sign_compose _ _ hb, hmag]
      generalize (2 : Rat) ^ 1074 = d
      cases neg
      · simp
      · simp; ring
    obtain ⟨Y, hYabs, hYreal⟩ : ∃ Y : Int, Y.natAbs = fixedMag y ∧
        real y = (if neg then -1 else 1) * ((Y : Rat) / 2 ^ 1074) := by
      refine ⟨(if neg then -1 else 1) * fixed y, ?_, ?_⟩
      · rw [Int.natAbs_mul, show (if neg then (-1 : Int) else 1).natAbs = 1 by cases neg <;> rfl,
          one_mul, fixed]
        split <;> simp
      · rw [real_eq_fixed]
        generalize (2 : Rat) ^ 1074 = d
        cases neg
        · simp
        · simp; ring
    have key := nearest_value hnear.1 hz52 y hYabs
    have hD : (0 : Rat) < 2 ^ 1074 := by positivity
    rw [hsq, hr, hYreal]
    generalize (2 : Rat) ^ 1074 = d at *
    have hsgn : ∀ a b : Rat, |(if neg then -1 else 1) * a - (if neg then -1 else 1) * b| = |a - b| := by
      intro a b
      rw [← mul_sub, abs_mul]
      cases neg <;> simp
    rw [hsgn, hsgn]
    have e1 : |(t : Rat) * 2 ^ e / d - z * 2 ^ e / d| = |(t : Rat) - z| * 2 ^ e / d := by
      rw [← sub_div, ← sub_mul, abs_div, abs_mul, abs_of_pos hD, abs_of_pos (by positivity : (0 : Rat) < 2 ^ e)]
    have e2 : |(Y : Rat) / d - z * 2 ^ e / d| = |(Y : Rat) - z * 2 ^ e| / d := by
      rw [← sub_div, abs_div, abs_of_pos hD]
    rw [e1, e2]
    refine ⟨div_le_div_of_nonneg_right key.1 hD.le, fun heq hne => heven (hnear.2 ?_)⟩
    refine key.2 ((div_left_inj' hD.ne').1 heq) fun hYt => hne ?_
    rw [hYt]

end Sys2Proof.Binary64
end

