-- ==== Sys2Proof/Laws/Run.lean ====
section
/-! SUPPORT. Runs of several steps, one step or one part of the run at a time. -/

namespace Sys2Proof.Machine

@[simp] theorem run_zero (s : State) : Host.Core.run core 0 s = .next s := rfl

/-- A run of k + 1 steps whose first step answers a next state. -/
theorem run_succ {s t : State} (h : step s = .next t) (k : Nat) :
    Host.Core.run core (k + 1) s = Host.Core.run core k t := by
  have hs : core.step s = .next t := h
  simp only [Host.Core.run, hs]

/-- A run of k + n steps goes on where its first k steps end. -/
theorem run_add {s t : State} {k : Nat} (h : Host.Core.run core k s = .next t) (n : Nat) :
    Host.Core.run core (k + n) s = Host.Core.run core n t := by
  induction k generalizing s with
  | zero =>
    rw [Nat.zero_add, ← Host.Outcome.next.inj h]
  | succ k ih =>
    rw [Nat.add_right_comm]
    rcases hs : core.step s with u | r | r
    · simp only [Host.Core.run, hs] at h ⊢
      exact ih h
    · cases r
    · simp only [Host.Core.run, hs] at h; cases h

end Sys2Proof.Machine
end

