-- ==== Sys2Proof/Laws/Staging.lean ====
section
/-! SUPPORT. The staged array element by element, and how many values it holds. -/

namespace Sys2Proof.Machine

@[simp] theorem length_stageFields (s : WideWord) : (stageFields s).length = 8 := by simp [stageFields]

/-- The fields of a list of words: field j mod 8 of word j / 8 at place j. -/
theorem getElem?_flatMap_stageFields (words : List WideWord) (j : Nat) :
    (words.flatMap stageFields)[j]? = (words[j / 8]?).map fun s => stageField s (j % 8) := by
  induction words generalizing j with
  | nil => simp
  | cons s words ih =>
    rw [List.flatMap_cons]
    by_cases h : j < 8
    · rw [List.getElem?_append_left (by simpa using h), Nat.div_eq_of_lt h, Nat.mod_eq_of_lt h]
      simp [stageFields, h]
    · rw [List.getElem?_append_right (by simpa using h), length_stageFields, ih,
        show j / 8 = (j - 8) / 8 + 1 by omega, show (j - 8) % 8 = j % 8 by omega, List.getElem?_cons_succ]

/-- Element j of N staged values; the fields beyond element N - 1 are ignored (R90). -/
theorem getElem?_stagedArray (words : List WideWord) (n j : Nat) :
    (stagedArray words n)[j]? =
      if j < n then (words[j / 8]?).map fun s => stageField s (j % 8) else none := by
  rw [stagedArray, List.getElem?_take]
  split <;> simp [getElem?_flatMap_stageFields]

theorem length_stagedArray (words : List WideWord) (n : Nat) :
    (stagedArray words n).length = min n (8 * words.length) := by
  have : (words.map fun s => (stageFields s).length).sum = 8 * words.length := by
    simp [Nat.mul_comm]
  rw [stagedArray, List.length_take, List.length_flatMap, this]

end Sys2Proof.Machine
end

