-- ==== Sys2Proof/Laws/Start.lean ====
section
/-! SUPPORT. The START checks of spec/60_exceptions.md R172, said of addresses: a check fails exactly when its
contract violation is there, and a START is clean exactly when no check fails. -/

namespace Sys2Proof.Machine

open Sys2Proof.Safety

theorem Range.overlaps_iff (r q : Range) :
    r.overlaps q = true ↔ ∃ a, InBytes (r.start, r.size) a ∧ InBytes (q.start, q.size) a := by
  simp only [Range.overlaps, Bool.and_eq_true, bne_iff_ne, decide_eq_true_eq, InBytes]
  constructor
  · rintro ⟨⟨⟨h1, h2⟩, h3⟩, h4⟩
    exact ⟨max r.start q.start, by omega, by omega⟩
  · rintro ⟨a, h1, h2⟩
    omega

theorem Range.outside_iff (r : Range) (memSize : Nat) :
    r.outside memSize = true ↔ ∃ a, InBytes (r.start, r.size) a ∧ memSize ≤ a := by
  simp only [Range.outside, Bool.and_eq_true, bne_iff_ne, Bool.not_eq_true', decide_eq_false_iff_not, InBytes]
  constructor
  · rintro ⟨h1, h2⟩
    exact ⟨r.start + r.size - 1, by omega, by omega⟩
  · rintro ⟨a, h1, h2⟩
    omega

theorem usedBytes_eq (p : Params) : usedBytes p = p.ranges.map fun r => (r.start, r.size) := by
  simp [usedBytes, Params.ranges, wordRange, constRange, Params.count, Config.wordBytes, Config.constBytes,
    Config.lanes]

theorem anyOverlap_iff (l : List Range) :
    anyOverlap l = true ↔
      ¬ (l.map fun r => (r.start, r.size)).Pairwise fun x y => ∀ a, InBytes x a → ¬ InBytes y a := by
  induction l with
  | nil => simp [anyOverlap]
  | cons r l ih =>
    rw [anyOverlap, Bool.or_eq_true, ih, List.map_cons, List.pairwise_cons, List.any_eq_true, ← not_iff_not]
    simp only [Range.overlaps_iff, List.forall_mem_map, not_or, not_exists, not_and]
    tauto

/-- A check of R172 fails exactly when its violation is there. -/
theorem checkFails_iff (p : Params) (memSize : Nat) (r : Reason) :
    checkFails p memSize r = true ↔ Violates p memSize r := by
  cases r with
  | misaligned => simp [checkFails, Violates, Region.misaligned, Config.wordBytes, Nat.dvd_iff_mod_eq_zero]
  | srcExtent => exact decide_eq_true_iff
  | dstExtent => exact decide_eq_true_iff
  | constExtent =>
    rw [checkFails, List.any_eq_true]
    exact exists_congr fun r => and_congr_right fun _ => decide_eq_true_iff
  | overlap => rw [checkFails, Violates, anyOverlap_iff, usedBytes_eq]
  | outOfRange =>
    simp only [checkFails, Violates, usedBytes_eq, List.any_eq_true, Range.outside_iff, List.mem_map,
      exists_exists_and_eq_and]
  | busy => simp [checkFails, Violates]
  | hostWrite => simp [checkFails, Violates]

/-- FAULTS after a failed START: the reasons whose violation is there. -/
theorem mem_failingChecks (p : Params) (memSize : Nat) (r : Reason) :
    r ∈ failingChecks p memSize ↔ Violates p memSize r := by
  rw [failingChecks, List.mem_filter, checkFails_iff]
  cases r <;> simp [startChecks, Violates]

/-- BATCH.S and BATCH.M are the START of their record. -/
theorem exec_batchOf (p : Params) (s : State) : exec (batchOf p) s = .next (s.start p) := by
  rcases p with ⟨n, src, dst, ⟨P, G⟩ | ⟨p0, g0, p1, g1, p2, g2⟩⟩ <;> rfl

/-- Whatever record the decoder accepts, it gives the batch operation of some parameters. -/
theorem decodeInvoke_batchOf {r : InvokeRecord} {i : Instr} (h : decode (.invoke r) = .ok i) :
    ∃ p, i = batchOf p := by
  simp only [decode, decodeInvoke] at h
  split at h <;> split at h
  · cases h; exact ⟨⟨r.npackets, r.src, r.dst, .single _ _⟩, rfl⟩
  · cases h
  · cases h; exact ⟨⟨r.npackets, r.src, r.dst, .multi _ _ _ _ _ _⟩, rfl⟩
  · cases h

theorem clean_iff (p : Params) (memSize : Nat) : Clean p memSize ↔ failingChecks p memSize = [] := by
  simp only [Clean, List.eq_nil_iff_forall_not_mem, mem_failingChecks]

end Sys2Proof.Machine
end

