-- ==== Sys2Proof/Laws/Worker.lean ====
section
/-! SUPPORT. What a worker's move can do, said once: it rests outside RUNNING, and it ends a packet or leaves the
block's state and memory as they were. -/

namespace Sys2Proof.Machine

open Sys2Proof.Safety

/-- On a worker's turn a step is a worker's move on the state with its agenda popped. -/
theorem step_of_workersTurn {s : State} {rest : List Move} (h : WorkersTurn s rest) :
    ∃ choice, step s = workerMove choice { s with agenda := rest } := by
  rcases h with ⟨h, rfl⟩ | ⟨i, h⟩
  · refine ⟨none, ?_⟩
    simp only [step, h]
    rw [← h]
  · exact ⟨some i, by simp only [step, h]⟩

/-- Outside RUNNING a worker's move changes nothing (R153, R183). -/
theorem workerMove_rests (choice : Option Nat) {s : State} (h : s.phase ≠ .running) :
    workerMove choice s = .next s := if_neg h

/-- While RUNNING a step whose move names packet i is a worker's on packet i. -/
theorem step_named {s : State} {p : Params} {i : Nat} {rest : List Move} (hr : s.phase = .running)
    (hp : s.params = some p) (ha : s.agenda = .worker i :: rest) :
    step s = workOn p i { s with agenda := rest } := by
  simp only [step, ha, workerMove, hr, hp, if_true]

/-- While RUNNING with the agenda used up, a step is a worker's on any packet. -/
theorem step_free {s : State} {p : Params} (hr : s.phase = .running) (hp : s.params = some p) (ha : s.agenda = []) :
    step s = workAny p s := by
  simp only [step, ha, workerMove, hr, hp, if_true]

theorem workOn_of_inHand {p : Params} {i : Nat} {s : State} {h : Hand} (hh : s.inHand i = some h) :
    workOn p i s = processStep p h s := by
  simp only [workOn, hh]

/-- A packet put back leaves everything but the packets in hand and the result. -/
theorem putBack_eq (s : State) (h : Hand) (d : Nat) : ∃ hs, (s.useDraws d).putBack h =
    { s with hands := hs, dp := Datapath.zero, draws := s.draws + d } := ⟨_, rfl⟩

/-- A part of a PROCESS step answers a next state: it ends the packet in hand, or changes no more than the packets
in hand, the result and the counter of free values. -/
theorem processStep_frame (p : Params) (h : Hand) (s : State) :
    (∃ hs dp draws, processStep p h s = .next { s with hands := hs, dp := dp, draws := draws }) ∨
    (h.stage = .write ∧ processStep p h s = .next (s.finishPacket p h)) := by
  rcases processStep_cases p h s with ⟨-, e⟩ | ⟨l, c, d, -, -, e⟩ | ⟨-, e⟩ | e
  · obtain ⟨hs, e'⟩ := putBack_eq s _ 0
    exact .inl ⟨hs, _, _, e.trans (congrArg _ e')⟩
  · obtain ⟨hs, e'⟩ := putBack_eq s _ d
    exact .inl ⟨hs, _, _, e.trans (congrArg _ e')⟩
  · obtain ⟨hs, e'⟩ := putBack_eq s _ 0
    exact .inl ⟨hs, _, _, e.trans (congrArg _ e')⟩
  · exact .inr e

/-- The same of a worker that goes on with packet i or takes it up. -/
theorem workOn_frame (p : Params) (i : Nat) (s : State) :
    (∃ hs dp draws, workOn p i s = .next { s with hands := hs, dp := dp, draws := draws }) ∨
    (∃ h, h ∈ s.hands ∧ h.index = i ∧ h.stage = .write ∧ workOn p i s = .next (s.finishPacket p h)) := by
  rcases workOn_cases p i s with ⟨h, hh, e⟩ | ⟨-, -, -, -, e⟩ | ⟨-, -, e⟩
  · obtain ⟨hm, hi⟩ := inHand_some hh
    rcases processStep_frame p h s with ⟨hs, dp, draws, e'⟩ | ⟨hst, e'⟩
    · exact .inl ⟨hs, dp, draws, e.trans e'⟩
    · exact .inr ⟨h, hm, hi, hst, e.trans e'⟩
  · exact .inl ⟨_, _, _, e⟩
  · exact .inl ⟨s.hands, s.dp, s.draws, e⟩

/-- The same of any worker's move. -/
theorem workerMove_cases (choice : Option Nat) (s : State) :
    (∃ hs dp draws, workerMove choice s = .next { s with hands := hs, dp := dp, draws := draws }) ∨
    (∃ p h draws, s.phase = .running ∧ s.params = some p ∧ h ∈ s.hands ∧ h.stage = .write ∧
      workerMove choice s = .next (State.finishPacket { s with draws := draws } p h)) := by
  have on : ∀ (p : Params) (i d : Nat), s.phase = .running → s.params = some p →
      workerMove choice s = workOn p i (s.useDraws d) →
      (∃ hs dp draws, workerMove choice s = .next { s with hands := hs, dp := dp, draws := draws }) ∨
      (∃ p h draws, s.phase = .running ∧ s.params = some p ∧ h ∈ s.hands ∧ h.stage = .write ∧
        workerMove choice s = .next (State.finishPacket { s with draws := draws } p h)) := fun p i d hr hp e => by
    rcases workOn_frame p i (s.useDraws d) with ⟨hs, dp, draws, e'⟩ | ⟨h, hm, -, hst, e'⟩
    · exact Or.inl ⟨hs, dp, draws, e.trans e'⟩
    · exact Or.inr ⟨p, h, s.draws + d, hr, hp, hm, hst, e.trans e'⟩
  rcases workerMove_eq choice s with ⟨hr, p, hp, e⟩ | ⟨-, e⟩
  · cases choice with
    | some i => exact on p i 0 hr hp e
    | none =>
      rcases workAny_eq p s with ⟨-, e'⟩ | ⟨k, d, -, -, e'⟩
      · exact .inl ⟨s.hands, s.dp, s.draws, e.trans e'⟩
      · exact on p _ d hr hp (e.trans e')
  · exact .inl ⟨s.hands, s.dp, s.draws, e⟩

end Sys2Proof.Machine
end

