-- ==== Sys2Proof/Tests/Slice0.lean ====
section
/-! SUPPORT. The model held against the spec's own vectors (spec/95_test_vectors.md), the checks of WellFormed
and of the decoder, and for every obligation with hypotheses a state and operands that meet them. -/

namespace Sys2Proof.Tests

open Sys2Proof.Machine Sys2Proof.Safety

set_option Elab.async false -- kernel evaluations one after the other, not all in memory at once

/-! ### Small states -/

/-- What f reads of the next state, none where the machine stops. -/
def onNext {α : Type} (f : State → α) : Host.Outcome State Fault Refusal → Option α
  | .next s => some (f s)
  | .fault _ => none
  | .refused _ => none

/-- After reset, with the MEM_SIZE the programs of 95_test_vectors.md ask for, and two workers. -/
def idleState : State := { State.reset with memSize := 0x8000, nworkers := 2 }

/-- The placement of 95_test_vectors.md L3, single mode. -/
def singleParams (n : BitVec 64) : Params where
  npackets := n
  src := ⟨0x0000, n.toNat⟩
  dst := ⟨0x1000, n.toNat⟩
  arrays := .single ⟨0x2000, 32 * n.toNat⟩ ⟨0x3000, 32 * n.toNat⟩

/-- The same placement, multi mode. -/
def multiParams (n : BitVec 64) : Params where
  npackets := n
  src := ⟨0x0000, n.toNat⟩
  dst := ⟨0x1000, n.toNat⟩
  arrays := .multi ⟨0x2000, 32 * n.toNat⟩ ⟨0x3000, 32 * n.toNat⟩ ⟨0x4000, 32 * n.toNat⟩
    ⟨0x5000, 32 * n.toNat⟩ ⟨0x6000, 32 * n.toNat⟩ ⟨0x7000, 32 * n.toNat⟩

/-- The record of singleParams as the host delivers it. -/
def singleRecord (n : BitVec 64) : InvokeRecord :=
  ⟨0, n, ⟨0x0000, n.toNat⟩, ⟨0x1000, n.toNat⟩, [⟨0x2000, 32 * n.toNat⟩, ⟨0x3000, 32 * n.toNat⟩]⟩

/-- RUNNING with two packets, none processed. -/
def runningState : State :=
  { idleState with phase := .running, params := some (singleParams 2) }

/-- RUNNING with two packets, packet 1 processed. -/
def halfDone : State := { runningState with doneSet := [1] }

/-- halfDone with packet 0 in hand. -/
def inHand (st : Stage) : State := { halfDone with hands := [{ Hand.fresh 0 with stage := st }] }

/-- DONE after two packets. -/
def doneState : State := { runningState with phase := .done, doneSet := [0, 1] }

/-- FAULT after a second START. -/
def faultState : State := { halfDone with phase := .fault, faults := [.busy] }

/-! ### WellFormed -/

/-- R120: RNDA of a NaN. -/
theorem test_illFormed_rnda : (Instr.rnda 0x7FF8000000000000).wellFormed = false := by decide +kernel

/-- R125: a lane of mode 1 is not XFORM.M0's. -/
theorem test_illFormed_xformM0 : (Instr.xformM0 0x4000 0 0).wellFormed = false := by decide +kernel

/-- R126: a lane of mode 2 is not XFORM.M1's. -/
theorem test_illFormed_xformM1 : (Instr.xformM1 0x8000 0 0).wellFormed = false := by decide +kernel

/-- R128: a lane of mode 3 is not XFORM.INV's. -/
theorem test_illFormed_xformInv : (Instr.xformInv 0xC000).wellFormed = false := by decide +kernel

/-- R127: a lane of mode 0 is not XFORM.M3's. -/
theorem test_illFormed_xformM3 : (Instr.xformM3 0x3FFF 0 0).wellFormed = false := by decide +kernel

/-! ### Decoding: words written out from R91 and R95 -/

/-- The constants 10.0 and 0.3. -/
def samplePair : ConstPair := ⟨0x4024000000000000, 0x3FD3333333333333⟩

/-- R95: POLICY 0, raw lane 0x8001. -/
theorem test_decode_xformS :
    decode (.key 0b0_1000000000000001 (some samplePair)) =
      .ok (.xformS 0x8001 0x4024000000000000 0x3FD3333333333333) := by decide +kernel

/-- R95: POLICY 1, mode 0b00, magnitude 0x3FFF. -/
theorem test_decode_xformM0 :
    decode (.key 0b1_00_11111111111111 (some samplePair)) =
      .ok (.xformM0 0x3FFF 0x4024000000000000 0x3FD3333333333333) := by decide +kernel

/-- R95: POLICY 1, mode 0b01, magnitude 50: the raw lane 0x4032 of E8. -/
theorem test_decode_xformM1 :
    decode (.key 0b1_01_00000000110010 (some samplePair)) =
      .ok (.xformM1 0x4032 0x4024000000000000 0x3FD3333333333333) := by decide +kernel

/-- R95: POLICY 1, mode 0b10, magnitude 0x0123, no constants. -/
theorem test_decode_xformInv : decode (.key 0b1_10_00000100100011 none) = .ok (.xformInv 0x8123) := by
  decide +kernel

/-- R95: POLICY 1, mode 0b11, magnitude 1000. -/
theorem test_decode_xformM3 :
    decode (.key 0b1_11_00001111101000 (some samplePair)) =
      .ok (.xformM3 0xC3E8 0x4024000000000000 0x3FD3333333333333) := by decide +kernel

/-- R91: POLICY 0 with P and G. -/
theorem test_decode_batchS :
    decode (.invoke ⟨0b0, 7, ⟨1, 2⟩, ⟨3, 4⟩, [⟨5, 6⟩, ⟨7, 8⟩]⟩) =
      .ok (.batchS 7 ⟨1, 2⟩ ⟨3, 4⟩ ⟨5, 6⟩ ⟨7, 8⟩) := by decide +kernel

/-- R91, R24: POLICY 1 with P0, G0, P1, G1, P2, G2. -/
theorem test_decode_batchM :
    decode (.invoke ⟨0b1, 7, ⟨1, 1⟩, ⟨2, 1⟩, [⟨3, 1⟩, ⟨4, 1⟩, ⟨5, 1⟩, ⟨6, 1⟩, ⟨7, 1⟩, ⟨8, 1⟩]⟩) =
      .ok (.batchM 7 ⟨1, 1⟩ ⟨2, 1⟩ ⟨3, 1⟩ ⟨4, 1⟩ ⟨5, 1⟩ ⟨6, 1⟩ ⟨7, 1⟩ ⟨8, 1⟩) := by decide +kernel

/-- D33: three arrays are no record. R87: constants with XFORM.INV, or none with XFORM.S, are no operands. -/
theorem test_decode_refuses :
    decode (.invoke ⟨0, 0, ⟨0, 0⟩, ⟨0, 0⟩, [⟨0, 0⟩, ⟨0, 0⟩, ⟨0, 0⟩]⟩) = .error .arrayCount ∧
    decode (.key 0x18000 (some samplePair)) = .error .unexpectedConstants ∧
    decode (.key 0x00000 none) = .error .missingConstants := by decide +kernel

/-- withFetchWord: the very next step runs XFORM.INV on the key it places. -/
theorem test_withFetchWord_runs :
    onNext (fun t => t.hands.map fun h => (h.stage, h.lanesOut[0])) (step (State.reset.withFetchWord 24 0x18123)) =
      some [(.lane 1, 0x805C)] := by decide +kernel

/-! ### The codec -/

/-- V3. -/
theorem test_unpack_v3 :
    onNext (fun t => (t.dp.lanesIn[0], t.dp.lanesIn[3], t.dp.lanesIn[30], t.dp.lanesIn[31]))
      (exec (.unpack 0x0123456789ABCDEF0123456789ABCDEF0123456789ABCDEF0123456789ABCDEF0123456789ABCDEF0123456789ABCDEF0123456789ABCDEF0123456789ABCDEF)
        idleState) = some (0xCDEF, 0x0123, 0x4567, 0x0123) := by decide +kernel

/-- V5: no sign spill between lanes. -/
theorem test_pack_v5 :
    onNext (fun t => t.dp.word) (exec (.pack (Vector.ofFn fun i => BitVec.ofNat 16 (0x8000 + i.val))) idleState) =
      some 0x801F801E801D801C801B801A8019801880178016801580148013801280118010800F800E800D800C800B800A8009800880078006800580048003800280018000 := by
  decide +kernel

/-! ### Rounding and narrowing -/

/-- V14 (-2.5), V19 (0.49999999999999994, where a float formula gives 1). -/
theorem test_rnda_ties :
    onNext (fun t => t.dp.rounded) (exec (.rnda 0xC004000000000000) idleState) = some (-3) ∧
    onNext (fun t => t.dp.rounded) (exec (.rnda 0x3FDFFFFFFFFFFFFF) idleState) = some 0 := by decide +kernel

/-- V13 (2.5), V24 (2^52 + 1, where a float formula gives 2^52 + 2). -/
theorem test_rnda_exact :
    onNext (fun t => t.dp.rounded) (exec (.rnda 0x4004000000000000) idleState) = some 3 ∧
    onNext (fun t => t.dp.rounded) (exec (.rnda 0x4330000000000001) idleState) = some 4503599627370497 := by
  decide +kernel

/-- V32, V34: wrap, not clamp. -/
theorem test_narrow16_wraps :
    onNext (fun t => t.dp.lane) (exec (.narrow16 32768) idleState) = some 0x8000 ∧
    onNext (fun t => t.dp.lane) (exec (.narrow16 (-32769)) idleState) = some 0x7FFF := by decide +kernel

/-- V38, V39. -/
theorem test_narrow16_low_bits :
    onNext (fun t => t.dp.lane) (exec (.narrow16 (-32676)) idleState) = some 0x805C ∧
    onNext (fun t => t.dp.lane) (exec (.narrow16 4503599627370497) idleState) = some 0x0001 := by
  decide +kernel

/-! ### The transforms -/

/-- V40 (E7), V44. -/
theorem test_xformS :
    onNext (fun t => t.dp.lane)
      (exec (.xformS 0x0064 0x4049000000000000 0x4000000000000000) idleState) = some 0x0064 ∧
    onNext (fun t => t.dp.lane)
      (exec (.xformS 0xFFFF 0x0000000000000000 0x3FE0000000000000) idleState) = some 0x8000 := by
  decide +kernel

/-- V52: an infinite product is a draw, and the draw is used up. -/
theorem test_xformS_draws :
    onNext (fun t => t.draws) (exec (.xformS 0x0001 0 0x7FF0000000000000) idleState) = some 1 := by
  decide +kernel

/-- V61: mode 0. -/
theorem test_xformM0 :
    onNext (fun t => t.dp.lane) (exec (.xformM0 0x3FFF 0 0x3FA0000000000000) idleState) = some 0x0200 := by
  decide +kernel

/-- V62 (E8), V64: mode 1, the mode bits are no magnitude. -/
theorem test_xformM1 :
    onNext (fun t => t.dp.lane)
      (exec (.xformM1 0x4032 0x4024000000000000 0x3FD3333333333333) idleState) = some 0x000C ∧
    onNext (fun t => t.dp.lane)
      (exec (.xformM1 0x7FFF 0x4024000000000000 0x3FD3333333333333) idleState) = some 0x1330 := by
  decide +kernel

/-- V66: mode 2. -/
theorem test_xformInv : onNext (fun t => t.dp.lane) (exec (.xformInv 0xBFFF) idleState) = some 0x805C := by
  decide +kernel

/-- V67, V69 (a tie): mode 3. -/
theorem test_xformM3 :
    onNext (fun t => t.dp.lane)
      (exec (.xformM3 0xC000 0x4059000000000000 0x3FF8000000000000) idleState) = some 0xFF6A ∧
    onNext (fun t => t.dp.lane)
      (exec (.xformM3 0xFFFF 0x4059000000000000 0x3FF8000000000000) idleState) = some 0x5F69 := by
  decide +kernel

/-! ### START, faults, reset, the host -/

/-- V80: an empty batch is DONE at once. V85: every failing check is kept. -/
theorem test_batchS_start :
    onNext (fun t => (t.phase, t.faults)) (exec (batchOf (singleParams 0)) idleState) = some (.done, []) ∧
    onNext (fun t => (t.phase, t.faults))
      (exec (.batchS 2 ⟨0, 1⟩ ⟨0x1010, 2⟩ ⟨0x2000, 64⟩ ⟨0x3000, 64⟩) idleState) =
        some (.fault, [.misaligned, .srcExtent]) := by decide +kernel

/-- V84: DST = SRC overlaps. -/
theorem test_batchS_overlap :
    onNext (fun t => t.faults) (exec (.batchS 1 ⟨0, 1⟩ ⟨0, 1⟩ ⟨0x2000, 32⟩ ⟨0x3000, 32⟩) idleState) =
      some [.overlap] := by decide +kernel

/-- V83: one element short in CONST[5]. -/
theorem test_batchM_constExtent :
    onNext (fun t => t.faults)
      (exec (.batchM 1 ⟨0, 1⟩ ⟨0x1000, 1⟩ ⟨0x2000, 32⟩ ⟨0x3000, 32⟩ ⟨0x4000, 32⟩ ⟨0x5000, 32⟩ ⟨0x6000, 32⟩
        ⟨0x7000, 31⟩) idleState) = some [.constExtent] := by decide +kernel

/-- The START of program P2, with the last region up to MEM_SIZE exactly at n = 16. -/
theorem test_batchM_start :
    onNext (fun t => (t.phase, t.params)) (exec (batchOf (multiParams 2)) idleState) =
      some (.running, some (multiParams 2)) ∧
    onNext (fun t => t.phase) (exec (batchOf (multiParams 16)) idleState) = some .running := by decide +kernel

/-- V86: a second START while RUNNING. -/
theorem test_start_busy :
    onNext (fun t => (t.phase, t.faults, t.doneSet))
      (step { halfDone with agenda := [.host (.start (singleRecord 1))] }) =
        some (.fault, [.busy], [1]) := by decide +kernel

/-- V87: the host's byte lands in CONST[0] and the block faults. -/
theorem test_hostWrite :
    onNext (fun t => (t.phase, t.faults, t.mem))
      (step { halfDone with agenda := [.host (.writeMem 0x2000 [0xAB])] }) =
        some (.fault, [.hostWrite], [(0x2000, 0xAB)]) := by decide +kernel

/-- V88, V89: START in FAULT is ignored, reset leaves it and keeps memory. -/
theorem test_leave_fault :
    onNext (fun t => t.phase) (step { faultState with agenda := [.host (.start (singleRecord 1))] }) =
      some .fault ∧
    onNext (fun t => (t.phase, t.faults, t.mem))
      (step { faultState with mem := [(0x1000, 0xAA)], agenda := [.host .reset] }) =
        some (.idle, [], [(0x1000, 0xAA)]) := by decide +kernel

/-- R90: of a staging word with eight fields three values are taken. -/
theorem test_staging_ignores_the_rest :
    stagedArray [0x8000000000000000700000000000000060000000000000005000000000000000400000000000000030000000000000002000000000000000] 3 =
      [0x2000000000000000, 0x3000000000000000, 0x4000000000000000] := by decide +kernel

/-! ### PROCESS -/

/-- R154: the last packet's word is stored, low byte first, and the batch is DONE. R30: nothing transient is left. -/
theorem test_last_packet :
    onNext (fun t => ((t.phase, t.doneSet, t.mem), t.hands))
      (step { halfDone with hands := [{ Hand.fresh 0 with stage := .write, word := 0xFF9C0064 }] }) =
        some ((.done, [0, 1], [(0x1000, 0x64), (0x1002, 0x9C), (0x1003, 0xFF)]), []) := by decide +kernel

/-- P2: lane 0 of packet 1 reads the constants at 32 + 0. -/
theorem test_absolute_index :
    onNext (fun t => t.hands.map fun h => h.lanesOut[0])
      (step { idleState with
        phase := .running
        params := some (multiParams 2)
        mem := [(0x4106, 0x24), (0x4107, 0x40), (0x5106, 0xE0), (0x5107, 0x3F)]
        hands := [{ Hand.fresh 1 with stage := .lane 0, lanesIn := zeroLanes.set 0 0x4032 }]
        agenda := [.worker 1] }) = some [0x0014] := by decide +kernel

/-- R155, R179: with two workers a second packet is taken up while the first is in hand; with one it is not. -/
theorem test_two_workers :
    onNext (fun t => t.hands.map Hand.index)
      (step { runningState with hands := [Hand.fresh 1], agenda := [.worker 0] }) = some [1, 0] ∧
    onNext (fun t => t.hands.map Hand.index)
      (step { runningState with nworkers := 1, hands := [Hand.fresh 1], agenda := [.worker 0] }) = some [1] := by
  decide +kernel

/-! ### Sound states -/

/-- A RUNNING state with empty memory is sound when its parameters pass the checks and packet i is missing. -/
theorem running_sound {s : State} {p : Params} {i : Nat} (hr : s.phase = .running) (hp : s.params = some p)
    (hm : s.mem = []) (hf : s.faults = []) (hc : failingChecks p s.memSize = [])
    (hd : s.doneSet.Pairwise (· < ·)) (hl : ∀ j ∈ s.doneSet, j < p.npackets.toNat)
    (hi : i < p.npackets.toNat ∧ i ∉ s.doneSet)
    (hw : 0 < s.nworkers) (hn : s.dp = Datapath.zero) (hs : s.hands.length ≤ 1)
    (hh : ∀ h ∈ s.hands, h.index < p.npackets.toNat ∧ h.index ∉ s.doneSet) : Inv s where
  memCanonical := by rw [hm]; rfl
  doneRising := hd
  faultsRising := by simp [hf]
  faultsExact := by simp [hf, hr]
  idleUnset := by simp [hr]
  runningAccepted := fun _ => ⟨p, hp, (clean_iff p _).2 hc, hl, i, hi⟩
  doneFull := by simp [hr]
  workers := hw
  handsFit := hs.trans hw
  handsDistinct := by
    rcases h : s.hands with _ | ⟨a, _ | ⟨b, l⟩⟩
    · simp
    · simp
    · rw [h] at hs; simp at hs
  handsNone := by simp [hr]
  handsRunning := fun _ q hq => by cases hp.symm.trans hq; exact hh
  dpClear := hn

/-- The state after reset, given a memory size and an agenda, is sound. -/
theorem idle_sound (l : List Move) : Inv { idleState with agenda := l } where
  memCanonical := rfl
  doneRising := List.Pairwise.nil
  faultsRising := List.Pairwise.nil
  faultsExact := by simp [idleState, State.reset]
  idleUnset := fun _ => ⟨rfl, rfl⟩
  runningAccepted := by simp [idleState, State.reset]
  doneFull := by simp [idleState, State.reset]
  workers := Nat.two_pos
  handsFit := Nat.zero_le _
  handsDistinct := List.nodup_nil
  handsNone := fun _ => rfl
  handsRunning := by simp [idleState, State.reset]
  dpClear := rfl

/-- The parameters of runningState pass every check. -/
theorem singleParams_pass : failingChecks (singleParams 2) 0x8000 = [] := by decide +kernel

/-- runningState with an agenda: nothing processed, nothing in hand. -/
theorem runningState_sound (l : List Move) : Inv { runningState with agenda := l } :=
  running_sound (p := singleParams 2) (i := 0) rfl rfl rfl rfl singleParams_pass List.Pairwise.nil
    (fun _ h => nomatch h) ⟨by decide +kernel, fun h => nomatch h⟩ Nat.two_pos rfl (Nat.zero_le _)
    fun _ h => nomatch h

/-- halfDone with packet 0 in hand, and an agenda. -/
theorem inHand_sound (st : Stage) (l : List Move) : Inv { inHand st with agenda := l } :=
  have h0 : 0 < (singleParams 2).npackets.toNat ∧ 0 ∉ [1] := by decide +kernel
  running_sound (p := singleParams 2) (i := 0) rfl rfl rfl rfl singleParams_pass (List.pairwise_singleton _ 1)
    (fun j hj => by cases List.mem_singleton.1 hj; decide +kernel) h0 Nat.two_pos rfl le_rfl
    fun h hh => by cases List.mem_singleton.1 hh; exact h0

/-! ### Witnesses: what each obligation assumes can be met -/

/-- RndaRoundsExactly, RndaIsNearestAwayAtTies: a positive and a negative tie. -/
theorem witness_finite : Binary64.isFinite 0x4004000000000000 = true ∧
    Binary64.isFinite 0xC004000000000000 = true := by decide +kernel

/-- RndaOfNonFiniteIsFree. -/
theorem witness_nonFinite : Binary64.isFinite 0x7FF0000000000000 = false := by decide +kernel

/-- SubtractionRoundsOnce: equal values (also +0 and -0), and operands whose difference rounds. -/
theorem witness_subtraction :
    (Binary64.isFinite 0 = true ∧ Binary64.isFinite 0x8000000000000000 = true ∧
      Binary64.real 0 = Binary64.real 0x8000000000000000) ∧
    (Binary64.isFinite 0x4330000000000001 = true ∧ Binary64.isFinite 0x3FD3333333333333 = true) := by
  refine ⟨⟨by decide +kernel, by decide +kernel, ?_⟩, by decide +kernel⟩
  simp [Binary64.real, Binary64.fraction, Binary64.expField]

/-- MultiplicationRoundsOnce: a zero product with equal signs and with different signs. -/
theorem witness_multiplication :
    Binary64.isFinite 0 = true ∧ Binary64.isFinite 0x8000000000000000 = true ∧
    Binary64.real 0 * Binary64.real 0 = 0 ∧ Binary64.real 0 * Binary64.real 0x8000000000000000 = 0 ∧
    Binary64.sign 0 ≠ Binary64.sign 0x8000000000000000 := by
  refine ⟨by decide +kernel, by decide +kernel, ?_, ?_, by decide +kernel⟩ <;>
    simp [Binary64.real, Binary64.fraction, Binary64.expField]

/-- ConversionIsExact, at the ends of its range. -/
theorem witness_conversion : 0 ≤ 65535 ∧ 65535 ≤ 65535 := by decide

/-- NonFiniteArithmetic: a NaN; infinities of one and of two signs; an infinity beside zero and beside 1. -/
theorem witness_nonFiniteArithmetic :
    Binary64.isNaN 0x7FF0000000000001 = true ∧
    (Binary64.isInf 0x7FF0000000000000 = true ∧ Binary64.isInf 0xFFF0000000000000 = true ∧
      Binary64.sign 0x7FF0000000000000 ≠ Binary64.sign 0xFFF0000000000000) ∧
    (Binary64.isFinite 0 = true ∧ Binary64.real 0 = 0) ∧
    (Binary64.isFinite 0x3FF0000000000000 = true ∧ Binary64.real 0x3FF0000000000000 ≠ 0) := by
  refine ⟨by decide +kernel, by decide +kernel, ⟨by decide +kernel, ?_⟩, by decide +kernel, ?_⟩
  · simp [Binary64.real, Binary64.fraction, Binary64.expField]
  · have h1 : Binary64.expField 0x3FF0000000000000 = 1023 := by decide +kernel
    have h2 : Binary64.sign 0x3FF0000000000000 = false := by decide +kernel
    have h3 : Binary64.fraction 0x3FF0000000000000 = 0 := by decide +kernel
    rw [Binary64.real, h1, h2, h3]
    norm_num

/-- TransformsAreFunctionsOfOperands. -/
theorem witness_keyFormat : (Instr.xformS 0 0 0).format = .key ∧ (Instr.xformInv 0).format = .key := by decide

/-- DocumentedConstantsNeverDraw, at both ends: p = 0 and p = 16384, g = -2 and g = 2. -/
theorem witness_documentedConstants :
    (Binary64.isFinite 0 = true ∧ Binary64.isFinite 0xC000000000000000 = true ∧
      0 ≤ Binary64.real 0 ∧ Binary64.real 0 ≤ 16384 ∧ |Binary64.real 0xC000000000000000| ≤ 2) ∧
    (Binary64.isFinite 0x40D0000000000000 = true ∧ Binary64.isFinite 0x4000000000000000 = true ∧
      0 ≤ Binary64.real 0x40D0000000000000 ∧ Binary64.real 0x40D0000000000000 ≤ 16384 ∧
      |Binary64.real 0x4000000000000000| ≤ 2) := by
  have h0 : Binary64.real 0 = 0 := by simp [Binary64.real, Binary64.fraction, Binary64.expField]
  have two : ∀ x : Real64, Binary64.expField x = 1024 → Binary64.fraction x = 0 → |Binary64.real x| ≤ 2 := by
    intro x h1 h2
    rw [Binary64.real, h1, h2]
    split <;> norm_num [abs_le]
  have big : Binary64.real 0x40D0000000000000 = 16384 := by
    have h1 : Binary64.expField 0x40D0000000000000 = 1037 := by decide +kernel
    have h2 : Binary64.sign 0x40D0000000000000 = false := by decide +kernel
    have h3 : Binary64.fraction 0x40D0000000000000 = 0 := by decide +kernel
    rw [Binary64.real, h1, h2, h3]
    norm_num
  refine ⟨⟨by decide +kernel, by decide +kernel, h0.ge, by rw [h0]; norm_num, two _ (by decide +kernel)
    (by decide +kernel)⟩, by decide +kernel, by decide +kernel, ?_, big.le, two _ (by decide +kernel)
    (by decide +kernel)⟩
  rw [big]; norm_num

/-- DecodeOfEncodeIsIdentity: an operation of each format that is well-formed. -/
theorem witness_wellFormed :
    (Instr.rnda 0x4004000000000000).wellFormed = true ∧ (Instr.xformM3 0xFFFF 0 0).wellFormed = true ∧
    (Instr.batchS 0 zeroRegion zeroRegion zeroRegion zeroRegion).wellFormed = true := by decide +kernel

/-- EncodeOfDecodeIsIdentity: an accepted encoding, a record with K arrays of each kind, and one without. -/
theorem witness_encoded :
    decode (.key 0x18000 none) = .ok (.xformInv 0x8000) ∧
    (zeroRecord 0).consts.length = 2 ∧ (zeroRecord 1).consts.length = 6 ∧
    (⟨1, 0, zeroRegion, zeroRegion, []⟩ : InvokeRecord).consts.length ≠ 6 := by decide +kernel

/-- WordsAndConstantsAreLittleEndian, LanesAndFieldsInMemory, CanonicalMemoryIsUnique: a canonical memory; and
an address on either side of a written word. -/
theorem witness_canonical : Memory.wf [(3, 7), (65, 1)] = true ∧ 63 < 64 ∧ (0 < 1 ∨ 1 + 64 ≤ 0) ∧
    (65 < 1 ∨ 1 + 64 ≤ 65) := by decide +kernel

/-- StagingFormat: one staging word for three values, whose last is there and whose fourth is ignored; and a
layout that puts element j of CONST[k] at place 2 j + k. -/
theorem witness_staging :
    ([0] : List WideWord)[0]? = some 0 ∧ ([0] : List WideWord).length = stagingWords 3 ∧
    8 * 0 + 2 < 3 ∧ ¬ 8 * 0 + 3 < 3 ∧
    (fun k j => 2 * j + k) 0 1 < 3 ∧ ([0] : List WideWord)[(fun k j => 2 * j + k) 0 1 / 8]? = some 0 := by
  decide +kernel

/-- CleanStartIsAccepted: from IDLE with packets, from DONE without. -/
theorem witness_cleanStart :
    (idleState.phase = .idle ∧ Clean (singleParams 2) idleState.memSize) ∧
    (doneState.phase = .done ∧ Clean (multiParams 0) doneState.memSize) :=
  ⟨⟨rfl, (clean_iff _ _).2 (by decide +kernel)⟩, rfl, (clean_iff _ _).2 (by decide +kernel)⟩

/-- FailedStartRecordsEveryReason: 17 packets do not fit 0x8000 bytes beside the constants. -/
theorem witness_failedStart : idleState.phase = .idle ∧ ¬ Clean (multiParams 17) idleState.memSize :=
  ⟨rfl, fun h => absurd ((clean_iff _ _).1 h) (by decide +kernel)⟩

/-- StartWhileRunningOrFaulted, FaultIsSticky. -/
theorem witness_phases : runningState.phase = .running ∧ faultState.phase = .fault ∧
    faultState.agenda = [] ∧ onNext (fun t => t.phase) (step faultState) = some .fault := by decide +kernel

/-- EmptyBatchIsDoneAtOnce: with every base aligned, and with one that is not. -/
theorem witness_emptyBatch :
    ((singleParams 0).npackets = 0 ∧ idleState.phase = .idle ∧
      ∀ r ∈ (singleParams 0).src :: (singleParams 0).dst :: (singleParams 0).arrays.regions, 64 ∣ r.base) ∧
    ¬ ∀ r ∈ (⟨1, 0⟩ : Region) :: (singleParams 0).dst :: (singleParams 0).arrays.regions, 64 ∣ r.base := by
  decide +kernel

/-- ResetLeavesMemory, ReadingControlStateHasNoSideEffect, StepRunsDecodedStart: each agenda. -/
theorem witness_hostTurn :
    ({ faultState with agenda := [.host .reset] } : State).agenda = .host .reset :: [] ∧
    ({ faultState with agenda := [.host .readPhase] } : State).agenda = .host .readPhase :: [] ∧
    ({ faultState with agenda := [.host .readFaults] } : State).agenda = .host .readFaults :: [] ∧
    ({ idleState with agenda := [.host (.start (singleRecord 2))] } : State).agenda =
      .host (.start (singleRecord 2)) :: [] := ⟨rfl, rfl, rfl, rfl⟩

/-- HostWriteWhileRunningFaults: the last byte of DST[1]. -/
theorem witness_hostWrite :
    runningState.mem.wf = true ∧ runningState.phase = .running ∧ runningState.params = some (singleParams 2) ∧
    (∃ x ∈ usedBytes (singleParams 2), ∃ a, InBytes x a ∧ InBytes (0x107F, [(0xAB : Byte)].length) a) :=
  ⟨rfl, rfl, rfl, dstBytes (singleParams 2), by decide +kernel, 0x107F, by
    simp [InBytes, dstBytes, singleParams], by simp [InBytes]⟩

/-- OtherHostWritesJustLand: in FAULT, and while RUNNING on no byte at all. -/
theorem witness_otherHostWrite :
    (faultState.mem.wf = true ∧ faultState.phase ≠ .running) ∧
    (runningState.phase = .running ∧ ∀ x ∈ usedBytes (singleParams 2), ∀ a, InBytes x a →
      ¬ InBytes (0x1000, ([] : List Byte).length) a) := by
  refine ⟨by decide +kernel, rfl, fun x _ a _ h => ?_⟩
  simp [InBytes] at h
  omega

/-- HostReadSeesContentsOrDraws: the byte below DST[0] and its first byte, while RUNNING. -/
theorem witness_hostRead :
    runningState.phase = .running ∧
    runningState.params = some (singleParams 2) ∧
    ¬ InBytes (dstBytes (singleParams 2)) (0xFFF + 0) ∧ InBytes (dstBytes (singleParams 2)) (0xFFF + 1) := by
  refine ⟨rfl, rfl, ?_, ?_⟩ <;> simp [InBytes, dstBytes, singleParams]

/-- StepRunsDecodedTransform (lane 31, the last), StepRunsUnpackAndPack, PacketWriteCompletes. -/
theorem witness_inHand :
    (inHand (.lane 31)).phase = .running ∧ (inHand (.lane 31)).params = some (singleParams 2) ∧
    ({ inHand (.lane 31) with agenda := [.worker 0] } : State).agenda = .worker 0 :: [] ∧
    (inHand (.lane 31)).inHand 0 = some { Hand.fresh 0 with stage := .lane 31 } ∧
    decode (laneEncoded (singleParams 2) (inHand (.lane 31)).mem ((Hand.fresh 0).lanesIn[31]'(by decide))
      (absIndex 0 31)) = .ok (.xformS 0 0 0) ∧
    (inHand .unpack).inHand 0 = some (Hand.fresh 0) ∧
    (inHand .pack).inHand 0 = some { Hand.fresh 0 with stage := .pack } ∧
    { Hand.fresh 0 with stage := .write } ∈ (inHand .write).hands ∧
    Inv { inHand .write with agenda := [.worker 0] } :=
  ⟨rfl, rfl, rfl, rfl, by decide +kernel, rfl, rfl, List.mem_singleton_self _, inHand_sound .write _⟩

/-- FetchedWordRunsNext. -/
theorem witness_fetched :
    decodeTableWord 8 1 = some (.batchM 0 zeroRegion zeroRegion zeroRegion zeroRegion zeroRegion zeroRegion
      zeroRegion zeroRegion) ∧
    State.reset.mem.wf = true ∧ decodeTableWord 24 0x1FFFF = some (.xformM3 0xFFFF 0 0) := by decide +kernel

/-- AnyEnabledPacketMayBeNext: an enabled packet, one that is done, one past the end; and a worker free, or none. -/
theorem witness_anyEnabled :
    halfDone.phase = .running ∧ halfDone.params = some (singleParams 2) ∧ (∀ h ∈ halfDone.hands, h.index ≠ 0) ∧
    (∀ h ∈ (inHand .pack).hands, h.index ≠ 1) ∧
    ({ halfDone with agenda := [.worker 0] } : State).agenda = .worker 0 :: [] ∧
    0 ∉ halfDone.doneSet ∧ 1 ∈ halfDone.doneSet ∧ ¬ 2 < (singleParams 2).npackets.toNat ∧
    halfDone.hands.length < halfDone.nworkers ∧
    ¬ (inHand .pack).hands.length < ({ inHand .pack with nworkers := 1 } : State).nworkers := by
  refine ⟨rfl, rfl, by decide +kernel, by decide +kernel, rfl, ?_⟩
  decide +kernel

/-- SomePacketIsAlwaysWorkedOn, ProcessPacketWritesItsWord: packet 0, with packet 1 done. -/
theorem witness_running :
    Inv { inHand .pack with agenda := [] } ∧ (inHand .pack).phase = .running ∧
    (inHand .pack).params = some (singleParams 2) ∧ (inHand .pack).agenda = [] ∧
    Inv { runningState with agenda := List.replicate 36 (.worker 1) } ∧ runningState.phase = .running ∧
    runningState.params = some (singleParams 2) ∧ 1 < (singleParams 2).npackets.toNat ∧
    1 ∉ runningState.doneSet ∧ (∀ h ∈ runningState.hands, h.index ≠ 1) ∧
    runningState.hands.length < runningState.nworkers :=
  ⟨inHand_sound .pack [], rfl, rfl, rfl, runningState_sound _, rfl, rfl, by decide +kernel, by decide +kernel,
    by decide +kernel, by decide +kernel⟩

/-- PacketOrderDoesNotMatter: both packets of runningState, one after the other and in turns. -/
theorem witness_order :
    Inv runningState ∧ runningState.hands = [] ∧ 0 < (singleParams 2).npackets.toNat ∧
    1 < (singleParams 2).npackets.toNat ∧ 0 ∉ runningState.doneSet ∧ 1 ∉ runningState.doneSet ∧
    OrderOfTwo runningState.nworkers 0 1 (List.replicate 36 1 ++ List.replicate 36 0) ∧
    OrderOfTwo runningState.nworkers 0 1 ((List.range 72).map fun k => k % 2) ∧
    ∀ l : Fin 32, (batchLane (singleParams 2) runningState.mem 0 l.val).isSome ∧
      (batchLane (singleParams 2) runningState.mem 1 l.val).isSome :=
  ⟨runningState_sound [], rfl, by decide +kernel, by decide +kernel, by decide +kernel, by decide +kernel,
    .inr (.inl rfl), .inr (.inr ⟨le_rfl, by decide +kernel⟩), by decide +kernel⟩

/-- CleanBatchReachesItsResult. -/
theorem witness_cleanBatch :
    Inv { idleState with agenda := [.host (.start (singleRecord 2))] } ∧ idleState.phase = .idle ∧
    decode (.invoke (singleRecord 2)) = .ok (batchOf (singleParams 2)) ∧
    Clean (singleParams 2) idleState.memSize :=
  ⟨idle_sound _, rfl, by decide +kernel, (clean_iff _ _).2 (by decide +kernel)⟩

/-- EveryStepKeepsInvariant, NoOperationStops, DestinationSlotWrittenOnce, WorkersWriteOnlyDestination: a sound
state whose worker's step answers a next state, with a slot already written. -/
theorem witness_soundStep :
    Inv (inHand .write) ∧ WorkersTurn (inHand .write) [] ∧ 1 ∈ (inHand .write).doneSet ∧
    onNext (fun t => t.phase) (step (inHand .write)) = some .done :=
  ⟨inHand_sound .write [], .inl ⟨rfl, rfl⟩, by decide +kernel, by decide +kernel⟩

/-- NoOperationStops, DestinationSlotWrittenOnce: an operation of the codec; a worker's turn in DONE. -/
theorem witness_noFault :
    (Instr.unpack 0).format ≠ .invoke ∧ WorkersTurn { doneState with agenda := [.worker 2] } [] ∧
    doneState.phase ≠ .running := ⟨by decide, .inr ⟨2, rfl⟩, by decide⟩

/-- OnlyTheHostStopsTheMachine: a START of a record with no array, and a state with no START. -/
theorem witness_stops :
    ({ idleState with agenda := [.host (.start ⟨0, 0, zeroRegion, zeroRegion, []⟩)] } : State).agenda =
      .host (.start ⟨0, 0, zeroRegion, zeroRegion, []⟩) :: [] ∧
    (⟨0, 0, zeroRegion, zeroRegion, []⟩ : InvokeRecord).consts.length ≠ 2 ∧
    (∀ r rest, idleState.agenda ≠ .host (.start r) :: rest) :=
  ⟨rfl, by decide, by simp [idleState, State.reset]⟩

/-- OpenParametersDecideNoValue: a step that no START takes, two sizes that both hold a batch, a packet in hand. -/
theorem witness_openParameters :
    onNext (fun t => t.memSize) (step (inHand .pack)) = some 0x8000 ∧
    (∀ r rest, runningState.agenda ≠ .host (.start r) :: rest) ∧
    (Violates (singleParams 2) runningState.memSize .outOfRange ↔ Violates (singleParams 2) 0x4000 .outOfRange) ∧
    (∃ h ∈ (inHand .pack).hands, ∃ rest,
      ({ inHand .pack with agenda := [.worker 0] } : State).agenda = .worker h.index :: rest) :=
  ⟨by decide +kernel, by simp [runningState, idleState, State.reset], by
    rw [← checkFails_iff, ← checkFails_iff]; decide +kernel, _, List.mem_singleton_self _, [], rfl⟩

/-- PhaseChangesOnlyByTable, ParamsChangeOnlyByStartOrReset: a START that changes both. -/
theorem witness_changes :
    onNext (fun t => decide (t.phase = .idle) || decide (t.params = none))
      (step { idleState with agenda := [.host (.start (singleRecord 2))] }) = some false := by decide +kernel

end Sys2Proof.Tests
end

section
/-! PROOFS. The invariant, one lemma per update of the state, and every step keeps it (spec/10_state.md R22, R27,
R28, R30). -/

namespace Sys2Proof.Proofs

open Sys2Proof.Machine Sys2Proof.Safety

/-! ### Updates of fields the invariant does not read, and of memory -/

/-- The invariant does not read the agenda. -/
theorem inv_popAgenda {s : State} (hs : Inv s) (l : List Move) : Inv { s with agenda := l } := { hs with }

/-- Nor the counter of free values. -/
theorem inv_useDraws {s : State} (hs : Inv s) (n : Nat) : Inv (s.useDraws n) := { hs with }

/-- Nor the answer of a read. -/
theorem inv_answer {s : State} (hs : Inv s) (r : Reply) : Inv (s.answer r) := { hs with }

/-- Of memory it asks the canonical form alone. -/
theorem inv_setMem {s : State} (hs : Inv s) {m : Memory} (hm : m.wf = true) : Inv { s with mem := m } :=
  { hs with memCanonical := hm }

/-! ### The host -/

/-- Fault entry keeps the invariant where some reason is given, in code order (R174). -/
theorem inv_enterFault {s : State} (hs : Inv s) {rs : List Reason} (hne : rs ≠ [])
    (hrise : rs.Pairwise fun a b => a.code < b.code) : Inv (s.enterFault rs) where
  memCanonical := hs.memCanonical
  doneRising := hs.doneRising
  faultsRising := hrise
  faultsExact := by simp [hne]
  idleUnset := by simp
  runningAccepted := by simp
  doneFull := by simp
  workers := hs.workers
  handsFit := Nat.zero_le _
  handsDistinct := List.nodup_nil
  handsNone := fun _ => rfl
  handsRunning := by simp
  dpClear := rfl

theorem inv_resetBlock {s : State} (hs : Inv s) : Inv s.resetBlock where
  memCanonical := hs.memCanonical
  doneRising := List.Pairwise.nil
  faultsRising := List.Pairwise.nil
  faultsExact := by simp
  idleUnset := fun _ => ⟨rfl, rfl⟩
  runningAccepted := by simp
  doneFull := by simp
  workers := hs.workers
  handsFit := Nat.zero_le _
  handsDistinct := List.nodup_nil
  handsNone := fun _ => rfl
  handsRunning := by simp
  dpClear := rfl

/-- Outside FAULT no reason is recorded (R28). -/
theorem faults_eq_nil {s : State} (hs : Inv s) (hp : s.phase ≠ .fault) : s.faults = [] :=
  Classical.byContradiction fun h => hp (hs.faultsExact.1 h)

/-- An accepted START: DONE where the batch is empty, else RUNNING with packet 0 missing (R33, R158). -/
theorem inv_latch {s : State} (hs : Inv s) {p : Params} (hp : s.phase = .idle ∨ s.phase = .done)
    (hc : Clean p s.memSize) : Inv (s.latch p) := by
  have hf : s.faults = [] := faults_eq_nil hs (by rcases hp with h | h <;> simp [h])
  have hphase : (p.npackets.toNat = 0 ∧ (s.latch p).phase = .done) ∨
      (0 < p.npackets.toNat ∧ (s.latch p).phase = .running) := by
    rw [State.latch_phase, Params.count]
    rcases Nat.eq_zero_or_pos p.npackets.toNat with h | h
    · exact .inl ⟨h, if_pos h⟩
    · exact .inr ⟨h, if_neg h.ne'⟩
  exact {
    memCanonical := hs.memCanonical
    doneRising := List.Pairwise.nil
    faultsRising := hs.faultsRising
    faultsExact := by rcases hphase with ⟨-, h⟩ | ⟨-, h⟩ <;> simp only [State.latch_faults, hf, h] <;> decide
    idleUnset := fun h => by rcases hphase with ⟨-, h'⟩ | ⟨-, h'⟩ <;> rw [h'] at h <;> cases h
    runningAccepted := fun h => by
      rcases hphase with ⟨-, h'⟩ | ⟨hn, -⟩
      · rw [h'] at h; cases h
      · exact ⟨p, rfl, hc, by simp, 0, hn, by simp⟩
    doneFull := fun h => by
      rcases hphase with ⟨hn, -⟩ | ⟨-, h'⟩
      · exact ⟨p, rfl, fun i => by simp [hn]⟩
      · rw [h'] at h; cases h
    workers := hs.workers
    handsFit := Nat.zero_le _
    handsDistinct := List.nodup_nil
    handsNone := fun _ => rfl
    handsRunning := fun _ _ _ h hh => nomatch hh
    dpClear := rfl }

/-- The reasons a failed START records stand in code order (R173). -/
theorem failingChecks_rising (p : Params) (memSize : Nat) :
    (failingChecks p memSize).Pairwise fun a b => a.code < b.code :=
  List.Pairwise.filter _ (by decide)

theorem inv_start {s : State} (hs : Inv s) (p : Params) : Inv (s.start p) := by
  rcases start_cases s p with ⟨hp, hf, e⟩ | ⟨-, hf, e⟩ | ⟨-, e⟩ | ⟨-, e⟩
  · exact e ▸ inv_latch hs hp ((clean_iff p _).2 hf)
  · exact e ▸ inv_enterFault hs hf (failingChecks_rising p _)
  · exact e ▸ inv_enterFault hs (by simp) (List.pairwise_singleton _ _)
  · rwa [e]

theorem inv_hostWrite {s : State} (hs : Inv s) (addr : Nat) (bytes : List Byte) :
    Inv (s.hostWrite addr bytes) := by
  have hw := inv_setMem hs (Memory.writeBytes_wf hs.memCanonical addr bytes)
  unfold State.hostWrite
  split
  · exact inv_enterFault hw (by simp) (List.pairwise_singleton _ _)
  · exact hw

theorem inv_hostAct {a : HostAction} {s t : State} (hs : Inv s) (h : hostAct a s = .next t) : Inv t := by
  rcases hostAct_next h with ⟨-, rfl⟩ | ⟨r, p, -, rfl⟩ | ⟨r, n, rfl⟩ | ⟨addr, bytes, -, rfl⟩
  · exact inv_resetBlock hs
  · exact inv_start hs p
  · exact inv_useDraws (inv_answer hs r) n
  · exact inv_hostWrite hs addr bytes

/-! ### The workers -/

/-- Putting a packet back keeps the indices in hand, which is all the invariant reads of them. -/
theorem inv_putBack {s : State} (hs : Inv s) (h : Hand) : Inv (s.putBack h) :=
  { hs with
    handsFit := (putBack_length s h).le.trans hs.handsFit
    handsDistinct := putBack_indices s h ▸ hs.handsDistinct
    handsNone := fun hp => by rw [State.putBack_hands, hs.handsNone hp, List.map_nil]
    handsRunning := fun hp p hq g hg => by
      have hi : g.index ∈ s.hands.map Hand.index := putBack_indices s h ▸ List.mem_map_of_mem hg
      obtain ⟨f, hf, he⟩ := List.mem_map.1 hi
      exact he ▸ hs.handsRunning hp p hq f hf
    dpClear := rfl }

/-- A packet taken up: an enabled one that no worker has, with a worker free (R153, R156, R179). -/
theorem inv_takeUp {s : State} (hs : Inv s) {p : Params} {i : Nat} (hr : s.phase = .running)
    (hp : s.params = some p) (hh : s.inHand i = none) (hi : i < p.npackets.toNat) (hd : i ∉ s.doneSet)
    (hw : s.hands.length < s.nworkers) : Inv { s with hands := s.hands ++ [Hand.fresh i] } :=
  { hs with
    handsFit := by simpa using hw
    handsDistinct := by
      have hnew : i ∉ s.hands.map Hand.index := by simpa using inHand_none.1 hh
      simpa [List.nodup_append, Hand.fresh, hs.handsDistinct] using hnew
    handsNone := fun h => absurd hr h
    handsRunning := fun _ q hq g hg => by
      rcases List.mem_append.1 hg with hg | hg
      · exact hs.handsRunning hr q hq g hg
      · cases List.mem_singleton.1 hg
        cases hp.symm.trans hq
        exact ⟨hi, hd⟩ }

/-- Every packet in hand is unprocessed, so once h's packet was the last one missing, no other is in hand. -/
theorem hands_nil_of_complete {s : State} (hs : Inv s) {p : Params} {h : Hand} (hr : s.phase = .running)
    (hp : s.params = some p) (hc : ∀ i, i < p.npackets.toNat → i = h.index ∨ i ∈ s.doneSet) :
    (s.finishPacket p h).hands = [] := by
  rw [State.finishPacket_hands, List.filter_eq_nil_iff]
  intro g hg
  obtain ⟨hlt, hnot⟩ := hs.handsRunning hr p hp g hg
  simpa using (hc g.index hlt).resolve_right hnot

/-- The word write ends the batch when DONESET is full with it, and else leaves it RUNNING (R154). -/
theorem finishPacket_phase_cases {s : State} (hrise : s.doneSet.Pairwise (· < ·)) (hr : s.phase = .running)
    (p : Params) (h : Hand) :
    ((s.finishPacket p h).phase = .done ∧ ∀ i, i < p.npackets.toNat → i ∈ insertIndex h.index s.doneSet) ∨
    ((s.finishPacket p h).phase = .running ∧
      ∃ i, i < p.npackets.toNat ∧ i ∉ insertIndex h.index s.doneSet) := by
  have hiff : complete p.count _ = true ↔ ∀ i, i < p.npackets.toNat → i ∈ _ :=
    complete_iff p.count (insertIndex_rising h.index hrise)
  rw [State.finishPacket_phase]
  by_cases hc : complete p.count (insertIndex h.index s.doneSet) = true
  · exact .inl ⟨if_pos hc, hiff.1 hc⟩
  · exact .inr ⟨by rw [if_neg hc, hr], by simpa using mt hiff.2 hc⟩

/-- DONESET stays below NPACKETS when a packet in hand is added (R27). -/
theorem insertIndex_below {s : State} (hs : Inv s) {p : Params} {h : Hand} (hr : s.phase = .running)
    (hp : s.params = some p) (hh : h ∈ s.hands) :
    ∀ i ∈ insertIndex h.index s.doneSet, i < p.npackets.toNat := fun i hi => by
  obtain ⟨q, hq, -, hlt, -⟩ := hs.runningAccepted hr
  cases hp.symm.trans hq
  rcases (mem_insertIndex _ _ _).1 hi with rfl | hi
  · exact (hs.handsRunning hr p hp h hh).1
  · exact hlt i hi

/-- The word write of a packet in hand: the batch goes on RUNNING, or DONESET is full and it is DONE (R153, R154). -/
theorem inv_finishPacket {s : State} (hs : Inv s) {p : Params} {h : Hand} (hr : s.phase = .running)
    (hp : s.params = some p) (hh : h ∈ s.hands) : Inv (s.finishPacket p h) := by
  have hbelow := insertIndex_below hs hr hp hh
  have hphase := finishPacket_phase_cases hs.doneRising hr p h
  have hsub : (s.finishPacket p h).hands.Sublist s.hands := List.filter_sublist
  exact {
    memCanonical := by rw [State.finishPacket_mem]; exact dstWrite_wf hs.memCanonical p h.index h.word
    doneRising := insertIndex_rising h.index hs.doneRising
    faultsRising := hs.faultsRising
    faultsExact := by
      rw [State.finishPacket_faults, faults_eq_nil hs (by simp [hr])]
      rcases hphase with ⟨h', -⟩ | ⟨h', -⟩ <;> rw [h'] <;> decide
    idleUnset := fun hi => by rcases hphase with ⟨h', -⟩ | ⟨h', -⟩ <;> rw [h'] at hi <;> cases hi
    runningAccepted := fun hrun => by
      rcases hphase with ⟨h', -⟩ | ⟨-, hmiss⟩
      · rw [h'] at hrun; cases hrun
      · obtain ⟨q, hq, hclean, -⟩ := hs.runningAccepted hr
        cases hp.symm.trans hq
        exact ⟨p, hp, hclean, hbelow, hmiss⟩
    doneFull := fun hdone => by
      rcases hphase with ⟨-, hall⟩ | ⟨h', -⟩
      · exact ⟨p, hp, fun i => ⟨hbelow i, hall i⟩⟩
      · rw [h'] at hdone; cases hdone
    workers := hs.workers
    handsFit := hsub.length_le.trans hs.handsFit
    handsDistinct := (hsub.map Hand.index).nodup hs.handsDistinct
    handsNone := fun hrun => by
      rcases hphase with ⟨-, hall⟩ | ⟨h', -⟩
      · exact hands_nil_of_complete hs hr hp fun i hi => (mem_insertIndex _ _ _).1 (hall i hi)
      · exact absurd h' hrun
    handsRunning := fun _ q hq g hg => by
      cases hp.symm.trans hq
      obtain ⟨hgm, hne⟩ := List.mem_filter.1 hg
      obtain ⟨hgl, hgd⟩ := hs.handsRunning hr p hp g hgm
      exact ⟨hgl, fun hm => ((mem_insertIndex _ _ _).1 hm).elim (by simpa using hne) hgd⟩
    dpClear := rfl }

theorem inv_processStep {s t : State} (hs : Inv s) {p : Params} {h : Hand} (hr : s.phase = .running)
    (hp : s.params = some p) (hh : h ∈ s.hands) (e : processStep p h s = .next t) : Inv t := by
  rcases processStep_cases p h s with ⟨-, e'⟩ | ⟨l, c, d, -, -, e'⟩ | ⟨-, e'⟩ | ⟨-, e'⟩ <;>
    cases e'.symm.trans e
  · exact inv_putBack hs _
  · exact inv_putBack (inv_useDraws hs d) _
  · exact inv_putBack hs _
  · exact inv_finishPacket hs hr hp hh

theorem inv_workOn {s t : State} (hs : Inv s) {p : Params} {i : Nat} (hr : s.phase = .running)
    (hp : s.params = some p) (e : workOn p i s = .next t) : Inv t := by
  rcases workOn_cases p i s with ⟨h, hh, e'⟩ | ⟨hh, hi, hd, hw, e'⟩ | ⟨-, -, e'⟩
  · exact inv_processStep hs hr hp (inHand_some hh).1 (e'.symm.trans e)
  · cases e'.symm.trans e
    exact inv_takeUp hs hr hp hh hi hd hw
  · cases e'.symm.trans e
    exact hs

theorem inv_workerMove {s t : State} (hs : Inv s) {choice : Option Nat} (e : workerMove choice s = .next t) :
    Inv t := by
  rcases workerMove_eq choice s with ⟨hr, p, hp, e'⟩ | ⟨-, e'⟩
  · cases choice with
    | some i => exact inv_workOn hs hr hp (e'.symm.trans e)
    | none =>
      rcases workAny_eq p s with ⟨-, e''⟩ | ⟨k, d, -, -, e''⟩
      · cases (e'.trans e'').symm.trans e
        exact hs
      · exact inv_workOn (inv_useDraws hs d) hr hp ((e'.trans e'').symm.trans e)
  · cases e'.symm.trans e
    exact hs

/-! ### A step -/

/-- Settles O51: a step is a worker's move or a host action on the popped agenda, and each keeps the invariant. -/
theorem everyStepKeepsInvariant : Obligations.EveryStepKeepsInvariant := by
  intro s t hs h
  rcases step_eq s with ⟨-, e⟩ | ⟨i, rest, -, e⟩ | ⟨a, rest, -, e⟩
  · exact inv_workerMove hs (e.symm.trans h)
  · exact inv_workerMove (inv_popAgenda hs rest) (e.symm.trans h)
  · exact inv_hostAct (inv_popAgenda hs rest) (e.symm.trans h)

end Sys2Proof.Proofs
end

section
/-! PROOFS. The three binary64 operations of spec/00_scope.md R13: each finite result is one rounding of the exact
value, the conversion of a 16-bit number is exact, and what the operations answer on NaN and the infinities. -/

namespace Sys2Proof.Proofs

open Sys2Proof.Binary64 Sys2Proof.Safety

/-! ### Kinds of values -/

/-- A finite value is no NaN. -/
theorem isNaN_of_isFinite {x : Real64} (h : isFinite x = true) : isNaN x = false := by
  simp only [isFinite, bne_iff_ne] at h
  simp [isNaN, h]

/-- A finite value is no infinity. -/
theorem isInf_of_isFinite {x : Real64} (h : isFinite x = true) : isInf x = false := by
  simp only [isFinite, bne_iff_ne] at h
  simp [isInf, h]

/-- An infinity is no NaN. -/
theorem isNaN_of_isInf {x : Real64} (h : isInf x = true) : isNaN x = false := by
  simp only [isInf, Bool.and_eq_true, beq_iff_eq] at h
  simp [isNaN, h]

/-- An infinity is not zero. -/
theorem isZero_of_isInf {x : Real64} (h : isInf x = true) : isZero x = false := by
  simp only [isInf, Bool.and_eq_true, beq_iff_eq] at h
  simp [isZero, h]

theorem isNaN_quietNaN : isNaN quietNaN = true := by decide

/-- A value is zero exactly when its magnitude is. -/
theorem fixedMag_eq_zero_iff (x : Real64) : fixedMag x = 0 ↔ isZero x = true := by
  have hp : 2 ^ (expField x - 1) ≠ 0 := by positivity
  simp only [fixedMag, Nat.mul_eq_zero, hp, or_false, significand, isZero, Bool.and_eq_true, beq_iff_eq]
  split
  · next h => simp [h]
  · next h => simp [h]

/-- One exact value is one number of units of 2^-1074. -/
theorem real_eq_real_iff (x y : Real64) : real x = real y ↔ fixed x = fixed y := by
  have hd : (2 : Rat) ^ 1074 ≠ 0 := by positivity
  rw [real_eq_fixed, real_eq_fixed, div_left_inj' hd, Int.cast_inj]

theorem real_eq_zero_iff (x : Real64) : real x = 0 ↔ isZero x = true := by
  have hd : (2 : Rat) ^ 1074 ≠ 0 := by positivity
  rw [← fixedMag_eq_zero_iff, real_eq_fixed, div_eq_zero_iff, or_iff_left hd, Int.cast_eq_zero, fixed]
  split <;> simp

/-! ### Finite operands -/

/-- The difference of finite values is computed by one rounding. -/
theorem sub64_finite {x y : Real64} (hx : isFinite x = true) (hy : isFinite y = true) :
    sub64 x y = roundTo64 (decide (fixed x - fixed y < 0)) (fixed x - fixed y).natAbs 1074 := by
  simp [sub64, isNaN_of_isFinite hx, isNaN_of_isFinite hy, isInf_of_isFinite hx, isInf_of_isFinite hy]

/-- So is the product. -/
theorem mul64_finite {x y : Real64} (hx : isFinite x = true) (hy : isFinite y = true) :
    mul64 x y = roundTo64 (sign x != sign y) (fixedMag x * fixedMag y) 2148 := by
  simp [mul64, isNaN_of_isFinite hx, isNaN_of_isFinite hy, isInf_of_isFinite hx, isInf_of_isFinite hy]

/-- A whole number of units is its sign and its magnitude. -/
theorem signedQuotient_natAbs (n : Int) (scale : Nat) :
    signedQuotient (decide (n < 0)) n.natAbs scale = (n : Rat) / 2 ^ scale := by
  rw [signedQuotient]
  rcases lt_or_ge n 0 with h | h
  · have hn : ((n.natAbs : Nat) : Rat) = -(n : Rat) := by
      rw [Nat.cast_natAbs, abs_of_neg h, Int.cast_neg]
    simp [h, hn, neg_div]
  · have hn : ((n.natAbs : Nat) : Rat) = (n : Rat) := by rw [Nat.cast_natAbs, abs_of_nonneg h]
    simp [not_lt.2 h, hn]

/-- The exact value of x by its sign and its magnitude. -/
theorem real_eq_signedQuotient (x : Real64) : real x = signedQuotient (sign x) (fixedMag x) 1074 := by
  rw [real_eq_fixed, fixed, signedQuotient]
  generalize (2 : Rat) ^ 1074 = d
  cases sign x
  · simp
  · simp [neg_div]

/-- Signs combine by exclusive or, magnitudes multiply and scales add. -/
theorem signedQuotient_mul (a b : Bool) (m n i j : Nat) :
    signedQuotient a m i * signedQuotient b n j = signedQuotient (a != b) (m * n) (i + j) := by
  have hs : (if (a != b) then (-1 : Rat) else 1) = (if a then -1 else 1) * (if b then -1 else 1) := by
    cases a <;> cases b <;> norm_num
  rw [signedQuotient, signedQuotient, signedQuotient, hs, pow_add, Nat.cast_mul, mul_mul_mul_comm,
    div_mul_div_comm]

/-- An exact zero is a zero of its sign. -/
theorem roundTo64_zero (neg : Bool) (scale : Nat) :
    roundTo64 neg 0 scale = if neg then 0x8000000000000000 else 0 := by
  have hq : lastPlace 0 scale = scale - 1074 := by simp [lastPlace]
  have hd : divPow2Even 0 (scale - 1074) = 0 := by
    have hp : 2 ^ (scale - 1074) ≠ 0 := by positivity
    simp [divPow2Even, hp.symm]
  rw [roundTo64, hq, hd]
  cases neg <;> simp

/-- Settles O9: sub64 rounds the exact difference of the values in units of 2^-1074. -/
theorem subtractionRoundsOnce : Obligations.SubtractionRoundsOnce := by
  intro x y hx hy
  have hexact : real x - real y =
      signedQuotient (decide (fixed x - fixed y < 0)) (fixed x - fixed y).natAbs 1074 := by
    rw [signedQuotient_natAbs, real_eq_fixed, real_eq_fixed, ← sub_div, Int.cast_sub]
  rw [sub64_finite hx hy]
  refine ⟨hexact ▸ roundTo64_roundsTo _ _ le_rfl, fun heq => ?_⟩
  rw [(real_eq_real_iff x y).1 heq, sub_self]
  exact roundTo64_zero false 1074

/-- Settles O10: mul64 rounds the exact product, of magnitudes in units of 2^-2148. -/
theorem multiplicationRoundsOnce : Obligations.MultiplicationRoundsOnce := by
  intro x y hx hy
  have hexact : real x * real y = signedQuotient (sign x != sign y) (fixedMag x * fixedMag y) 2148 := by
    rw [real_eq_signedQuotient x, real_eq_signedQuotient y, signedQuotient_mul]
  rw [mul64_finite hx hy]
  refine ⟨hexact ▸ roundTo64_roundsTo _ _ (by norm_num), fun hzero => ?_⟩
  have hmag : fixedMag x * fixedMag y = 0 := by
    rw [mul_eq_zero, real_eq_zero_iff, real_eq_zero_iff] at hzero
    rwa [Nat.mul_eq_zero, fixedMag_eq_zero_iff, fixedMag_eq_zero_iff]
  rw [hmag, roundTo64_zero]
  cases sign x <;> cases sign y <;> rfl

/-! ### Conversion -/

/-- A multiple of the last place is no rounding. -/
theorem divPow2Even_mul (t q : Nat) : divPow2Even (t * 2 ^ q) q = t := by
  have hp : 0 < 2 ^ q := by positivity
  simp [divPow2Even, Nat.mul_div_cancel _ hp, hp.ne]

/-- A magnitude of t units of its last place, in range, is a binary64 value. -/
theorem roundTo64_exact (neg : Bool) {m t q : Nat} (hm : m = t * 2 ^ q) (hq : lastPlace m 1074 = q)
    (hfit : q * 2 ^ 52 + t < 2047 * 2 ^ 52) :
    isFinite (roundTo64 neg m 1074) = true ∧ real (roundTo64 neg m 1074) = signedQuotient neg m 1074 := by
  have hdiv : m / 2 ^ q = t := by rw [hm, Nat.mul_div_cancel _ (by positivity)]
  obtain ⟨hlt, hge⟩ := quotient_bounds m 1074
  rw [hq, hdiv] at hlt hge
  rw [Nat.sub_self, Nat.sub_zero] at hge
  have hround : roundTo64 neg m 1074 = compose neg (q * 2 ^ 52 + t) := by
    rw [roundTo64, hq, compose, Nat.sub_self, Nat.sub_zero, hm, divPow2Even_mul, min_eq_left hfit.le]
  obtain ⟨hfin, hmag, -⟩ := compose_fits neg hlt.le hge hfit
  rw [hround]
  refine ⟨hfin, ?_⟩
  rw [real_eq_signedQuotient, sign_compose neg _ (by omega), hmag, hm]

/-- The leading bit of n × 2^k stands k places above that of n. -/
theorem log2_mul_pow {n : Nat} (hn : n ≠ 0) (k : Nat) : Nat.log2 (n * 2 ^ k) = Nat.log2 n + k := by
  rw [Nat.log2_eq_iff (by positivity)]
  obtain ⟨h1, h2⟩ := (Nat.log2_eq_iff hn).1 rfl
  rw [show Nat.log2 n + k + 1 = Nat.log2 n + 1 + k by omega, pow_add, pow_add]
  exact ⟨Nat.mul_le_mul_right _ h1, Nat.mul_lt_mul_of_pos_right h2 (by positivity)⟩

/-- Settles O11: n has at most 16 bits, so n is a whole number of its last places. -/
theorem conversionIsExact : Obligations.ConversionIsExact := by
  intro n hn
  have hvalue : signedQuotient false (n * 2 ^ 1074) 1074 = n := by
    have hd : (2 : Rat) ^ 1074 ≠ 0 := by positivity
    rw [signedQuotient, if_neg (by simp), one_mul, Nat.cast_mul, Nat.cast_pow, Nat.cast_ofNat,
      mul_div_cancel_right₀ _ hd]
  rw [← hvalue]
  rcases Nat.eq_zero_or_pos n with rfl | hpos
  · refine roundTo64_exact false (t := 0) (q := 0) ?_ ?_ ?_
    · rw [Nat.zero_mul, Nat.zero_mul]
    · rw [Nat.zero_mul]; rfl
    · norm_num
  · have hlog : Nat.log2 n < 16 := (Nat.log2_lt hpos.ne').2 (by omega)
    refine roundTo64_exact false (t := n * 2 ^ (52 - Nat.log2 n)) (q := Nat.log2 n + 1022) ?_ ?_ ?_
    · rw [mul_assoc, ← pow_add, show 52 - Nat.log2 n + (Nat.log2 n + 1022) = 1074 by omega]
    · rw [lastPlace, log2_mul_pow hpos.ne', Nat.sub_self, Nat.max_zero]
      omega
    · have hsig : n * 2 ^ (52 - Nat.log2 n) < 2 ^ 53 := by
        calc n * 2 ^ (52 - Nat.log2 n) < 2 ^ (Nat.log2 n + 1) * 2 ^ (52 - Nat.log2 n) :=
              Nat.mul_lt_mul_of_pos_right Nat.lt_log2_self (by positivity)
          _ = 2 ^ 53 := by rw [← pow_add]; congr 1; omega
      omega

/-! ### NaN and the infinities -/

/-- An infinity is known by its sign. -/
theorem eq_infinity_of_isInf {x : Real64} (h : isInf x = true) : x = infinity (sign x) := by
  simp only [isInf, Bool.and_eq_true, beq_iff_eq, expField, fraction, BitVec.extractLsb'_toNat,
    Nat.shiftRight_eq_div_pow] at h
  have hs : sign x = decide (x.toNat / 2 ^ 63 % 2 = 1) := Nat.testBit_eq_decide_div_mod_eq
  have hlt := x.isLt
  apply BitVec.eq_of_toNat_eq
  rw [hs, infinity]
  split
  · next hneg =>
    rw [decide_eq_true_eq] at hneg
    change x.toNat = 0xFFF0000000000000
    omega
  · next hpos =>
    rw [decide_eq_true_eq] at hpos
    change x.toNat = 0x7FF0000000000000
    omega

/-- Turning the sign of an infinity. -/
theorem negate_infinity (neg : Bool) : negate (infinity neg) = infinity (!neg) := by cases neg <;> decide

theorem sub64_nan {x y : Real64} (h : isNaN x = true ∨ isNaN y = true) : sub64 x y = quietNaN := by
  simp [sub64, h]

theorem mul64_nan {x y : Real64} (h : isNaN x = true ∨ isNaN y = true) : mul64 x y = quietNaN := by
  simp [mul64, h]

/-- The difference from an infinity: a NaN beside an infinity of its sign, else the infinity itself. -/
theorem sub64_inf_left {x y : Real64} (hx : isInf x = true) (hy : isNaN y = false) :
    sub64 x y = if isInf y && sign x == sign y then quietNaN else x := by
  simp [sub64, hx, hy, isNaN_of_isInf hx]

/-- An infinity taken from a finite value has its sign turned. -/
theorem sub64_inf_right {x y : Real64} (hx : isFinite x = true) (hy : isInf y = true) :
    sub64 x y = infinity (!sign y) := by
  rw [← negate_infinity, ← eq_infinity_of_isInf hy]
  simp [sub64, isNaN_of_isFinite hx, isInf_of_isFinite hx, isNaN_of_isInf hy, hy]

/-- A product with an infinity: a NaN beside a zero, else the infinity of the combined sign. -/
theorem mul64_inf {x y : Real64} (hx : isNaN x = false) (hy : isNaN y = false)
    (h : isInf x = true ∨ isInf y = true) :
    mul64 x y = if isZero x || isZero y then quietNaN else infinity (sign x != sign y) := by
  simp [mul64, hx, hy, h]

/-- Settles O12, by the kinds of the operands. -/
theorem nonFiniteArithmetic : Obligations.NonFiniteArithmetic := by
  intro x y
  refine ⟨fun h => ?_, fun hx hy => ⟨?_, ?_⟩, fun hx hy => ⟨?_, ?_, ?_⟩⟩
  · rw [sub64_nan h, mul64_nan h]
    exact ⟨isNaN_quietNaN, isNaN_quietNaN⟩
  · rw [sub64_inf_left hx (isNaN_of_isInf hy), hy, Bool.true_and]
    split
    · next hs => rw [if_pos (beq_iff_eq.2 hs)]; exact isNaN_quietNaN
    · next hs => rw [if_neg (mt beq_iff_eq.1 hs)]
  · rw [mul64_inf (isNaN_of_isInf hx) (isNaN_of_isInf hy) (.inl hx), isZero_of_isInf hx, isZero_of_isInf hy]
    rfl
  · rw [sub64_inf_left hx (isNaN_of_isFinite hy), isInf_of_isFinite hy]
    rfl
  · exact sub64_inf_right hy hx
  · rw [mul64_inf (isNaN_of_isInf hx) (isNaN_of_isFinite hy) (.inl hx),
      mul64_inf (isNaN_of_isFinite hy) (isNaN_of_isInf hx) (.inr hx), isZero_of_isInf hx, Bool.false_or,
      Bool.or_false, bne_comm (a := sign y)]
    simp only [real_eq_zero_iff]
    split
    · exact ⟨isNaN_quietNaN, isNaN_quietNaN⟩
    · exact ⟨rfl, rfl⟩

end Sys2Proof.Proofs
end

section
/-! PROOFS. The open parameters (spec/00_scope.md R8): no step writes one, and where a step does not read one it has
the same outcome under any other value. All three are replaced at once by `withOpen`. -/

namespace Sys2Proof.Proofs

open Sys2Proof.Machine Sys2Proof.Safety

/-! ### No step writes an open parameter -/

/-- The two states have one NWORKERS, one MEM_SIZE and one CONST_CAPACITY. -/
def SameOpen (s t : State) : Prop :=
  t.nworkers = s.nworkers ∧ t.memSize = s.memSize ∧ t.constCapacity = s.constCapacity

theorem sameOpen_start (s : State) (p : Params) : SameOpen s (s.start p) := by
  rcases start_cases s p with ⟨-, -, e⟩ | ⟨-, -, e⟩ | ⟨-, e⟩ | ⟨-, e⟩ <;> rw [e] <;> exact ⟨rfl, rfl, rfl⟩

theorem sameOpen_hostAct {a : HostAction} {s t : State} (h : hostAct a s = .next t) : SameOpen s t := by
  rcases hostAct_next h with ⟨-, rfl⟩ | ⟨r, p, -, rfl⟩ | ⟨r, n, rfl⟩ | ⟨addr, bytes, -, rfl⟩
  · exact ⟨rfl, rfl, rfl⟩
  · exact sameOpen_start s p
  · exact ⟨rfl, rfl, rfl⟩
  · exact ⟨State.hostWrite_nworkers s addr bytes, State.hostWrite_memSize s addr bytes,
      State.hostWrite_constCapacity s addr bytes⟩

theorem sameOpen_workerMove {choice : Option Nat} {s t : State} (h : workerMove choice s = .next t) :
    SameOpen s t := by
  rcases workerMove_cases choice s with ⟨hs, dp, draws, e⟩ | ⟨p, g, draws, -, -, -, -, e⟩ <;> cases e.symm.trans h
  · exact ⟨rfl, rfl, rfl⟩
  · exact ⟨rfl, rfl, rfl⟩

theorem sameOpen_step {s t : State} (h : step s = .next t) : SameOpen s t := by
  rcases step_eq s with ⟨-, e⟩ | ⟨i, rest, -, e⟩ | ⟨a, rest, -, e⟩
  · exact sameOpen_workerMove (e.symm.trans h)
  · exact sameOpen_workerMove (s := { s with agenda := rest }) (e.symm.trans h)
  · exact sameOpen_hostAct (s := { s with agenda := rest }) (e.symm.trans h)

/-! ### Another value of the open parameters -/

/-- s with other open parameters: NWORKERS n, MEM_SIZE m, CONST_CAPACITY c. -/
def withOpen (n m c : Nat) (s : State) : State := { s with nworkers := n, memSize := m, constCapacity := c }

/-- Updates that agree on what an outcome answers map it to one outcome. -/
theorem mapNext_congr {o : Host.Outcome State Fault Refusal} {f g : State → State}
    (h : ∀ t, o = .next t → f t = g t) : mapNext f o = mapNext g o := by
  cases o with
  | next t => exact congrArg Host.Outcome.next (h t rfl)
  | fault r => rfl
  | refused r => rfl

section Replacing

variable (n m c : Nat)

/-- CAL reads no open parameter. -/
theorem calibrate_withOpen (a : Lane) (p g : Real64) (s : State) :
    calibrate a p g (withOpen n m c s) = withOpen n m c (calibrate a p g s) := by
  rw [calibrate_eq, calibrate_eq]
  split <;> rfl

/-- Nor does an operation other than START. -/
theorem exec_withOpen {i : Instr} (hi : i.format ≠ .invoke) (s : State) :
    exec i (withOpen n m c s) = mapNext (withOpen n m c) (exec i s) := by
  have hcal (a : Lane) (p g : Real64) := congrArg (Host.Outcome.next (φ := Fault) (ρ := Refusal))
    (calibrate_withOpen n m c a p g s)
  cases i with
  | unpack w => rfl
  | pack L => rfl
  | rnda v =>
    simp only [exec, execRnda]
    split <;> rfl
  | narrow16 k => rfl
  | xformS raw p g => exact hcal raw p g
  | xformM0 raw p g => exact hcal (magnitude14 raw) p g
  | xformM1 raw p g => exact hcal (magnitude14 raw) p g
  | xformInv raw => rfl
  | xformM3 raw p g => exact hcal (magnitude14 raw) p g
  | batchS npackets src dst p g => exact absurd rfl hi
  | batchM npackets src dst p0 g0 p1 g1 p2 g2 => exact absurd rfl hi

variable {n m c}

/-- START reads MEM_SIZE alone, and that in its checks (R172). -/
theorem start_withOpen {p : Params} {s : State} (hm : failingChecks p m = failingChecks p s.memSize) :
    (withOpen n m c s).start p = withOpen n m c (s.start p) := by
  have hm' : failingChecks p (withOpen n m c s).memSize = failingChecks p s.memSize := hm
  have hp : (withOpen n m c s).phase = s.phase := rfl
  simp only [State.start, hm', hp]
  split
  · rfl
  · rfl
  · split <;> rfl
  · split <;> rfl

/-- Of the START checks MEM_SIZE decides OUT_OF_RANGE only. -/
theorem failingChecks_congr {p : Params} {m₁ m₂ : Nat}
    (h : Violates p m₁ .outOfRange ↔ Violates p m₂ .outOfRange) : failingChecks p m₁ = failingChecks p m₂ := by
  refine List.filter_congr fun r _ => ?_
  cases r with
  | outOfRange => rw [Bool.eq_iff_iff, checkFails_iff, checkFails_iff, h]
  | misaligned => rfl
  | srcExtent => rfl
  | dstExtent => rfl
  | constExtent => rfl
  | overlap => rfl
  | busy => rfl
  | hostWrite => rfl

/-- BATCH.S and BATCH.M of a record that both memory sizes hold, or neither. -/
theorem exec_batchOf_withOpen {p : Params} {s : State} (hm : failingChecks p m = failingChecks p s.memSize) :
    exec (batchOf p) (withOpen n m c s) = mapNext (withOpen n m c) (exec (batchOf p) s) := by
  rw [exec_batchOf, exec_batchOf, start_withOpen hm]
  rfl

/-- What the host sees of memory depends on no open parameter (log 15). -/
theorem seenBytes_withOpen (s : State) (addr d k : Nat) :
    (withOpen n m c s).seenBytes addr d k = s.seenBytes addr d k := by
  induction k generalizing addr d with
  | zero => rfl
  | succ k ih => rw [State.seenBytes, State.seenBytes, ih]; rfl

theorem hostWrite_withOpen (s : State) (addr : Nat) (bytes : List Byte) :
    (withOpen n m c s).hostWrite addr bytes = withOpen n m c (s.hostWrite addr bytes) := by
  have hd : (withOpen n m c s).disturbs addr bytes.length = s.disturbs addr bytes.length := rfl
  rw [State.hostWrite, State.hostWrite, hd]
  split <;> rfl

/-- A host action reads MEM_SIZE at a START only. -/
theorem hostAct_withOpen {a : HostAction} {s : State} (hm : (∃ r, a = .start r) → m = s.memSize) :
    hostAct a (withOpen n m c s) = mapNext (withOpen n m c) (hostAct a s) := by
  cases a with
  | reset => rfl
  | start r =>
    cases hd : decode (.invoke r) with
    | error e => simp only [hostAct, hd, mapNext]
    | ok i =>
      obtain ⟨p, rfl⟩ := decodeInvoke_batchOf hd
      simp only [hostAct, hd]
      exact exec_batchOf_withOpen (by rw [hm ⟨r, rfl⟩])
  | readPhase => rfl
  | readFaults => rfl
  | readMem addr k =>
    have hseen := seenBytes_withOpen (n := n) (m := m) (c := c) s addr s.draws k
    simp only [hostAct, mapNext]
    rw [show (withOpen n m c s).draws = s.draws from rfl, hseen]
    rfl
  | writeMem addr bytes => exact congrArg Host.Outcome.next (hostWrite_withOpen s addr bytes)

theorem finishPacket_withOpen (p : Params) (h : Hand) (s : State) :
    (withOpen n m c s).finishPacket p h = withOpen n m c (s.finishPacket p h) := by
  simp only [State.finishPacket, withOpen]
  rfl

/-- A part of a PROCESS step reads no open parameter. -/
theorem processStep_withOpen (p : Params) (h : Hand) (s : State) :
    processStep p h (withOpen n m c s) = mapNext (withOpen n m c) (processStep p h s) := by
  cases hst : h.stage with
  | unpack => simp only [processStep, hst]; rfl
  | lane l =>
    obtain ⟨i, hi, hf⟩ := decode_laneEncoded p s.mem (h.lanesIn[l.val]'l.isLt) (absIndex h.index l.val)
    have hmem : (withOpen n m c s).mem = s.mem := rfl
    obtain ⟨x, d, -, he⟩ := exec_key hf s
    simp only [processStep, hst, hmem, hi, exec_withOpen n m c (i := i) (by simp [hf]) s, he]
    rfl
  | pack => simp only [processStep, hst]; rfl
  | write => simp only [processStep, hst, mapNext, finishPacket_withOpen]

/-- A packet taken up reads NWORKERS alone (R179). -/
theorem takePacket_withOpen (p : Params) (i : Nat) (s : State) :
    (withOpen s.nworkers m c s).takePacket p i = withOpen s.nworkers m c (s.takePacket p i) := by
  have hguard : (enabled p (withOpen s.nworkers m c s) i &&
      decide ((withOpen s.nworkers m c s).hands.length < (withOpen s.nworkers m c s).nworkers)) =
      (enabled p s i && decide (s.hands.length < s.nworkers)) := rfl
  rw [State.takePacket, State.takePacket, hguard]
  split <;> rfl

/-- NWORKERS is read where a packet is taken up, and not where it is in hand (R179). -/
theorem workOn_withOpen (p : Params) {i : Nat} {s : State} (hn : n = s.nworkers ∨ ∃ h, s.inHand i = some h) :
    workOn p i (withOpen n m c s) = mapNext (withOpen n m c) (workOn p i s) := by
  have hin : (withOpen n m c s).inHand i = s.inHand i := rfl
  cases hh : s.inHand i with
  | some h => simp only [workOn, hin, hh, processStep_withOpen]
  | none =>
    obtain rfl | ⟨h, hh'⟩ := hn
    · simp only [workOn, hin, hh, mapNext, takePacket_withOpen]
    · rw [hh] at hh'; cases hh'

/-- The choice of a packet reads NWORKERS alone. -/
theorem workAny_withOpen (p : Params) (s : State) :
    workAny p (withOpen s.nworkers m c s) = mapNext (withOpen s.nworkers m c) (workAny p s) := by
  have hr : (withOpen s.nworkers m c s).hands.length + (withOpen s.nworkers m c s).untaken p =
    s.hands.length + s.untaken p := rfl
  simp only [workAny, hr]
  split
  · rfl
  · exact workOn_withOpen p (.inl rfl)
  · exact workOn_withOpen p (s := s.useDraws 1) (.inl rfl)

theorem workerMove_withOpen {choice : Option Nat} {s : State}
    (hn : n = s.nworkers ∨ ∃ i h, choice = some i ∧ s.inHand i = some h) :
    workerMove choice (withOpen n m c s) = mapNext (withOpen n m c) (workerMove choice s) := by
  have hphase : (withOpen n m c s).phase = s.phase := rfl
  have hparams : (withOpen n m c s).params = s.params := rfl
  simp only [workerMove, hphase, hparams]
  split
  · split
    · rfl
    · next p _ =>
      cases choice with
      | some i => exact workOn_withOpen p (hn.imp_right fun ⟨j, h, hj, hh⟩ => ⟨h, Option.some.inj hj ▸ hh⟩)
      | none =>
        obtain rfl | ⟨j, h, hj, -⟩ := hn
        · exact workAny_withOpen p s
        · cases hj
  · rfl

/-- A step reads NWORKERS at a worker's move only, and there only where no packet in hand is named, and MEM_SIZE at a
START only. -/
theorem step_withOpen {s : State}
    (hn : n = s.nworkers ∨ (∃ a rest, s.agenda = .host a :: rest) ∨
      ∃ i rest h, s.agenda = .worker i :: rest ∧ s.inHand i = some h)
    (hm : m = s.memSize ∨ ∀ r rest, s.agenda ≠ .host (.start r) :: rest) :
    step (withOpen n m c s) = mapNext (withOpen n m c) (step s) := by
  have hagenda : (withOpen n m c s).agenda = s.agenda := rfl
  simp only [step, hagenda]
  cases ha : s.agenda with
  | nil => exact workerMove_withOpen (.inl (by simpa [ha] using hn))
  | cons move rest =>
    cases move with
    | worker i =>
      refine workerMove_withOpen (s := { s with agenda := rest }) (hn.imp_right fun hin => ?_)
      obtain ⟨h, hh⟩ : ∃ h, s.inHand i = some h := by simpa [ha] using hin
      exact ⟨i, h, rfl, hh⟩
    | host a =>
      refine hostAct_withOpen (s := { s with agenda := rest }) fun ⟨r, hr⟩ => ?_
      exact hm.resolve_right fun hno => hno r rest (by rw [ha, hr])

end Replacing

/-- Settles O54, each clause but the first by replacing the open parameters that a step does not read and leaving the
others as they are. -/
theorem openParametersDecideNoValue : Obligations.OpenParametersDecideNoValue := by
  have named {s : State} {h : Hand} (hh : h ∈ s.hands) : ∃ g, s.inHand h.index = some g :=
    Option.ne_none_iff_exists'.1 fun hnone => inHand_none.1 hnone h hh rfl
  refine ⟨fun s t h => sameOpen_step h, fun s c => ?_, fun s m hno => ?_, fun p s m hv => ?_, fun s n hn => ?_⟩
  · refine (step_withOpen (n := s.nworkers) (m := s.memSize) (.inl rfl) (.inl rfl)).trans
      (mapNext_congr fun t ht => ?_)
    obtain ⟨hn, hm, -⟩ := sameOpen_step ht
    rw [withOpen, ← hn, ← hm]
  · refine (step_withOpen (n := s.nworkers) (c := s.constCapacity) (.inl rfl) (.inr hno)).trans
      (mapNext_congr fun t ht => ?_)
    obtain ⟨hn, -, hc⟩ := sameOpen_step ht
    rw [withOpen, ← hn, ← hc]
  · have hm := failingChecks_congr hv.symm
    refine (exec_batchOf_withOpen (n := s.nworkers) (c := s.constCapacity) hm).trans
      (mapNext_congr fun t ht => ?_)
    rw [exec_batchOf] at ht
    cases ht
    obtain ⟨hn, -, hc⟩ := sameOpen_start s p
    rw [withOpen, ← hn, ← hc]
  · refine (step_withOpen (m := s.memSize) (c := s.constCapacity) (.inr ?_) (.inl rfl)).trans
      (mapNext_congr fun t ht => ?_)
    · refine hn.imp_right fun ⟨h, hh, rest, ha⟩ => ?_
      obtain ⟨g, hg⟩ := named hh
      exact ⟨h.index, rest, g, ha, hg⟩
    · obtain ⟨-, hm, hc⟩ := sameOpen_step ht
      rw [withOpen, ← hm, ← hc]

end Sys2Proof.Proofs
end

section
/-! PROOFS. The state of the block (spec/10_state.md R22, R25, R32, R33): START by phase, the reads of phase and
FAULTS, reset, and which steps stop the machine or change phase or PARAMS. -/

namespace Sys2Proof.Proofs

open Sys2Proof.Machine Sys2Proof.Safety

/-! ### START, by phase -/

theorem count_eq_zero_iff (p : Params) : p.count = 0 ↔ p.npackets = 0 :=
  BitVec.toNat_inj (y := 0)

/-- With every check passed, a START in IDLE or DONE is accepted (R33, R172). -/
theorem start_of_clean {s : State} {p : Params} (hp : s.phase = .idle ∨ s.phase = .done)
    (hc : Clean p s.memSize) : s.start p = s.latch p := by
  have hf : failingChecks p s.memSize = [] := (clean_iff p _).1 hc
  rcases hp with hp | hp <;> simp only [State.start, hp, hf]

theorem start_of_running {s : State} (p : Params) (hp : s.phase = .running) :
    s.start p = s.enterFault [.busy] := by simp only [State.start, hp]

theorem start_of_fault {s : State} (p : Params) (hp : s.phase = .fault) : s.start p = s := by
  simp only [State.start, hp]

/-- Settles O30: the operation is the START of its record, and a clean START latches it. -/
theorem cleanStartIsAccepted : Obligations.CleanStartIsAccepted := by
  intro p s hp hc
  rw [exec_batchOf, start_of_clean hp hc]
  simp only [State.latch, State.dropTransient, count_eq_zero_iff]

/-- Settles O32: in RUNNING the START is the BUSY fault, in FAULT it is the identity. -/
theorem startWhileRunningOrFaulted : Obligations.StartWhileRunningOrFaulted := by
  intro p s
  rw [exec_batchOf]
  exact ⟨fun hp => ⟨by rw [start_of_running p hp]; rfl, rfl⟩, fun hp => by rw [start_of_fault p hp]⟩

/-! ### Reset and the reads of control state -/

/-- Settles O34: the fields of the state after reset, by definition. -/
theorem resetValues : Obligations.ResetValues := ⟨rfl, rfl, rfl, rfl⟩

/-- Settles O50: in IDLE, with nothing done, recorded or in hand, only the worker of R8 asks for a reason. -/
theorem invariantHoldsAtReset : Obligations.InvariantHoldsAtReset where
  memCanonical := reset_mem_wf
  doneRising := List.Pairwise.nil
  faultsRising := List.Pairwise.nil
  faultsExact := by simp [State.reset]
  idleUnset := fun _ => ⟨rfl, rfl⟩
  runningAccepted := by simp [State.reset]
  doneFull := by simp [State.reset]
  workers := Nat.succ_pos Config.extraWorkers
  handsFit := Nat.zero_le _
  handsDistinct := List.nodup_nil
  handsNone := fun _ => rfl
  handsRunning := by simp [State.reset]
  dpClear := rfl

theorem step_of_host {s : State} {a : HostAction} {rest : List Move} (ha : s.agenda = .host a :: rest) :
    step s = hostAct a { s with agenda := rest } := by simp only [step, ha]

/-- Settles O39: either read is an answer on the state with its agenda popped. -/
theorem readingControlStateHasNoSideEffect : Obligations.ReadingControlStateHasNoSideEffect := fun _ _ =>
  ⟨fun ha => (step_of_host ha).trans rfl, fun ha => (step_of_host ha).trans rfl⟩

/-! ### What stops the machine -/

/-- K, the number of constant arrays of the batch kind that POLICY selects (R24, R91). -/
def arrayCountOf (policy : BitVec 1) : Nat := if policy = 0 then 2 else 6

theorem exists_six_of_length {α : Type} {l : List α} (hl : l.length = 6) :
    ∃ a b c d e f, l = [a, b, c, d, e, f] :=
  match l, hl with
  | [a, b, c, d, e, f], _ => ⟨a, b, c, d, e, f, rfl⟩

/-- A record of K constant arrays decodes to a batch operation, and one of another number is refused (R91, D33,
log 16). -/
theorem decode_invoke_cases (r : InvokeRecord) :
    (r.consts.length = arrayCountOf r.policy ∧ ∃ p, decode (.invoke r) = .ok (batchOf p)) ∨
    (r.consts.length ≠ arrayCountOf r.policy ∧ decode (.invoke r) = .error .arrayCount) := by
  have hd : decode (.invoke r) = decodeInvoke r := rfl
  unfold decodeInvoke at hd
  split at hd <;> split at hd
  · next hpol _ p g hc =>
    exact .inl ⟨(congrArg List.length hc).trans (if_pos hpol).symm,
      ⟨r.npackets, r.src, r.dst, .single p g⟩, hd⟩
  · next hpol _ hno =>
    refine .inr ⟨fun hl => ?_, hd⟩
    obtain ⟨p, g, hc⟩ := List.length_eq_two.1 (hl.trans (if_pos hpol))
    exact hno p g hc
  · next hpol _ p0 g0 p1 g1 p2 g2 hc =>
    exact .inl ⟨(congrArg List.length hc).trans (if_neg hpol).symm,
      ⟨r.npackets, r.src, r.dst, .multi p0 g0 p1 g1 p2 g2⟩, hd⟩
  · next hpol _ hno =>
    refine .inr ⟨fun hl => ?_, hd⟩
    obtain ⟨p0, g0, p1, g1, p2, g2, hc⟩ := exists_six_of_length (hl.trans (if_neg hpol))
    exact hno p0 g0 p1 g1 p2 g2 hc

/-- A worker's move always answers a next state. -/
theorem workerMove_answers (choice : Option Nat) (s : State) : ∃ t, workerMove choice s = .next t := by
  rcases workerMove_cases choice s with ⟨_, _, _, e⟩ | ⟨_, _, _, _, _, _, _, e⟩ <;> exact ⟨_, e⟩

/-- A START answers a next state where the decoder accepts its record. -/
theorem hostAct_start {r : InvokeRecord} {p : Params} (hd : decode (.invoke r) = .ok (batchOf p)) (s : State) :
    hostAct (.start r) s = .next (s.start p) := by
  simp only [hostAct, hd, exec_batchOf]

/-- Every action of the host does, given that a record it starts holds K constant arrays. -/
theorem hostAct_answers {a : HostAction} (hk : ∀ r, a = .start r → r.consts.length = arrayCountOf r.policy)
    (s : State) : ∃ t, hostAct a s = .next t := by
  cases a with
  | start r =>
    obtain ⟨-, p, hd⟩ := (decode_invoke_cases r).resolve_right fun hno => hno.1 (hk r rfl)
    exact ⟨_, hostAct_start hd s⟩
  | reset => exact ⟨_, rfl⟩
  | readPhase => exact ⟨_, rfl⟩
  | readFaults => exact ⟨_, rfl⟩
  | readMem addr n => exact ⟨_, rfl⟩
  | writeMem addr bytes => exact ⟨_, rfl⟩

/-- Settles O53: the decoder refuses a record of the wrong shape, and all else answers a next state. -/
theorem onlyTheHostStopsTheMachine : Obligations.OnlyTheHostStopsTheMachine := by
  refine ⟨fun s r rest ha hk => ?_, fun s hk => ?_⟩
  · obtain ⟨-, hd⟩ := (decode_invoke_cases r).resolve_left fun hyes => hk hyes.1
    simp only [step_of_host ha, hostAct, hd]
  · rcases step_eq s with ⟨-, e⟩ | ⟨i, rest, -, e⟩ | ⟨a, rest, ha, e⟩
    · exact e ▸ workerMove_answers none s
    · exact e ▸ workerMove_answers (some i) _
    · exact e ▸ hostAct_answers (fun r hr => hk r rest (hr ▸ ha)) _

/-! ### Which steps change phase or PARAMS -/

/-- A worker's move keeps phase, or ends the batch with the word write of a packet in hand (R154). -/
theorem workerMove_phase {choice : Option Nat} {s t : State} (e : workerMove choice s = .next t) :
    t.phase = s.phase ∨ ∃ h ∈ s.hands, h.stage = .write ∧ s.phase = .running ∧ t.phase = .done := by
  rcases workerMove_cases choice s with ⟨_, _, _, e'⟩ | ⟨p, h, _, hr, -, hm, hw, e'⟩ <;> cases e'.symm.trans e
  · exact .inl rfl
  · rw [State.finishPacket_phase]
    split
    · exact .inr ⟨h, hm, hw, hr, rfl⟩
    · exact .inl rfl

/-- No worker's move changes PARAMS. -/
theorem workerMove_params {choice : Option Nat} {s t : State} (e : workerMove choice s = .next t) :
    t.params = s.params := by
  rcases workerMove_cases choice s with ⟨_, _, _, e'⟩ | ⟨_, _, _, _, _, _, _, e'⟩ <;> cases e'.symm.trans e <;> rfl

/-- An accepted START leaves for RUNNING, or for DONE (R33, R158). -/
theorem latch_phase_cases (s : State) (p : Params) :
    (s.latch p).phase = .running ∨ (s.latch p).phase = .done := by
  rw [State.latch_phase]
  exact (ite_eq_or_eq ..).symm

/-- The record that a completed START delivers is the one its operation carries. -/
theorem hostAct_start_next {r : InvokeRecord} {s t : State} (h : hostAct (.start r) s = .next t) :
    ∃ p, decode (.invoke r) = .ok (batchOf p) ∧ t = s.start p := by
  cases hd : decode (.invoke r) with
  | error e => simp [hostAct, hd] at h
  | ok i =>
    obtain ⟨p, rfl⟩ := decodeInvoke_batchOf hd
    exact ⟨p, rfl, Host.Outcome.next.inj (h.symm.trans (hostAct_start hd s))⟩

theorem phase_of_disturbs {s : State} {addr n : Nat} (h : s.disturbs addr n = true) : s.phase = .running := by
  rw [State.disturbs, Bool.and_eq_true, decide_eq_true_iff] at h
  exact h.1

/-- A host write keeps phase, or is the HOST_WRITE fault while RUNNING (R176). -/
theorem hostWrite_phase_cases (s : State) (addr : Nat) (bytes : List Byte) :
    (s.hostWrite addr bytes).phase = s.phase ∨
    (s.phase = .running ∧ (s.hostWrite addr bytes).phase = .fault ∧
      (s.hostWrite addr bytes).faults = [.hostWrite]) := by
  rw [State.hostWrite_phase, State.hostWrite_faults]
  split
  · next h => exact .inr ⟨phase_of_disturbs h, rfl, rfl⟩
  · exact .inl rfl

/-- Settles O55, by the step's cases: a worker's move, or a host action on the popped agenda. -/
theorem phaseChangesOnlyByTable : Obligations.PhaseChangesOnlyByTable := by
  intro s t h hne
  have byWorker (choice : Option Nat) (l : List Move) (e : workerMove choice { s with agenda := l } = .next t) :
      ∃ h ∈ s.hands, h.stage = .write ∧ s.phase = .running ∧ t.phase = .done :=
    (workerMove_phase e).resolve_left hne
  rcases step_eq s with ⟨-, e⟩ | ⟨i, rest, -, e⟩ | ⟨a, rest, ha, e⟩
  · exact .inr (.inr (.inr (.inr (byWorker none s.agenda (e.symm.trans h)))))
  · exact .inr (.inr (.inr (.inr (byWorker (some i) rest (e.symm.trans h)))))
  · rcases hostAct_next (e.symm.trans h) with ⟨rfl, rfl⟩ | ⟨r, p, rfl, rfl⟩ | ⟨r, n, rfl⟩ | ⟨addr, bytes, rfl, rfl⟩
    · exact .inl ⟨rest, ha, rfl⟩
    · rcases start_cases { s with agenda := rest } p with ⟨hp, -, e⟩ | ⟨hp, -, e⟩ | ⟨hr, e⟩ | ⟨-, e⟩ <;>
        rw [e] at hne ⊢
      · exact .inr (.inl ⟨r, rest, ha, hp, (latch_phase_cases _ p).imp_right .inl⟩)
      · exact .inr (.inl ⟨r, rest, ha, hp, .inr (.inr rfl)⟩)
      · exact .inr (.inr (.inl ⟨r, rest, ha, hr, rfl, rfl⟩))
      · exact absurd rfl hne
    · exact absurd rfl hne
    · obtain ⟨hr, hf, hw⟩ := (hostWrite_phase_cases _ addr bytes).resolve_left hne
      exact .inr (.inr (.inr (.inl ⟨addr, bytes, rest, ha, hr, hf, hw⟩)))

/-- Settles O56, by the same cases: of the host's actions reset unsets PARAMS and an accepted START latches it. -/
theorem paramsChangeOnlyByStartOrReset : Obligations.ParamsChangeOnlyByStartOrReset := by
  intro s t h hne
  rcases step_eq s with ⟨-, e⟩ | ⟨i, rest, -, e⟩ | ⟨a, rest, ha, e⟩
  · exact absurd (workerMove_params (e.symm.trans h)) hne
  · exact absurd (workerMove_params (e.symm.trans h)) hne
  · have ht := e.symm.trans h
    rcases hostAct_next ht with ⟨rfl, rfl⟩ | ⟨r, p, rfl, -⟩ | ⟨r, n, rfl⟩ | ⟨addr, bytes, -, rfl⟩
    · exact .inl ⟨rest, ha, rfl⟩
    · obtain ⟨p, hd, rfl⟩ := hostAct_start_next ht
      rcases start_cases { s with agenda := rest } p with ⟨hp, -, e⟩ | ⟨-, -, e⟩ | ⟨-, e⟩ | ⟨-, e⟩ <;>
        rw [e] at hne ⊢
      · exact .inr ⟨r, rest, p, ha, hd, rfl, hp, latch_phase_cases _ p, rfl⟩
      · exact absurd rfl hne
      · exact absurd rfl hne
      · exact absurd rfl hne
    · exact absurd rfl hne
    · exact absurd (State.hostWrite_params _ addr bytes) hne

end Sys2Proof.Proofs
end

section
/-! PROOFS. Bytes of the flat memory (spec/20_memory.md R53, R55, R63): byte b of a word or a constant, the lanes and
fields those bytes are, the canonical form, and what a host read answers. -/

namespace Sys2Proof.Proofs

open Sys2Proof.Machine Sys2Proof.Safety

/-! ### Bytes of words and constants -/

/-- Byte b of a little-endian number that the width holds. -/
theorem extractLsb'_ofNat_leValue {w : Nat} {bs : List Byte} (hw : 8 * bs.length ≤ w) {b : Nat}
    (hb : b < bs.length) : (BitVec.ofNat w (leValue bs)).extractLsb' (8 * b) 8 = bs[b] := by
  have hlt : leValue bs < 2 ^ w :=
    calc leValue bs < 256 ^ bs.length := leValue_lt bs
      _ = 2 ^ (8 * bs.length) := (pow_mul 2 8 _).symm
      _ ≤ 2 ^ w := Nat.pow_le_pow_right (by norm_num) hw
  apply BitVec.eq_of_toNat_eq
  rw [BitVec.extractLsb'_toNat, BitVec.toNat_ofNat, Nat.mod_eq_of_lt hlt, Nat.shiftRight_eq_div_pow, pow_mul]
  exact leValue_byte bs b hb

theorem extractLsb'_readWord (m : Memory) (a : Nat) {b : Nat} (hb : b < 64) :
    (m.readWord a).extractLsb' (8 * b) 8 = m.read (a + b) := by
  have hlen : (m.readBytes a Config.wordBytes).length = 64 := Memory.readBytes_length ..
  rw [Memory.readWord, extractLsb'_ofNat_leValue (by omega) (by omega), Memory.getElem_readBytes]

theorem extractLsb'_readConst (m : Memory) (a : Nat) {b : Nat} (hb : b < 8) :
    (m.readConst a).extractLsb' (8 * b) 8 = m.read (a + b) := by
  have hlen : (m.readBytes a Config.constBytes).length = 8 := Memory.readBytes_length ..
  rw [Memory.readConst, extractLsb'_ofNat_leValue (by omega) (by omega), Memory.getElem_readBytes]

/-- Settles O25: a word's bytes are those that reading it takes, and a word written reads back as itself. -/
theorem wordsAndConstantsAreLittleEndian : Obligations.WordsAndConstantsAreLittleEndian := fun m a w hm =>
  have hback : (m.writeWord a w).readWord a = w := Memory.readWord_writeWord hm a w
  ⟨fun b hb => by rw [← extractLsb'_readWord _ a hb, hback],
    fun _ hx => Memory.read_writeWord_outside m w hx,
    hback,
    fun _ hb => extractLsb'_readWord m a hb,
    fun _ hb => extractLsb'_readConst m a hb⟩

/-! ### Lanes and fields -/

/-- Sixteen bits are two bytes, the low one first. -/
theorem toNat_extractLsb'_sixteen {w : Nat} (x : BitVec w) (j : Nat) :
    (x.extractLsb' j 16).toNat = (x.extractLsb' j 8).toNat + 256 * (x.extractLsb' (j + 8) 8).toNat := by
  simp only [BitVec.extractLsb'_toNat, Nat.shiftRight_eq_div_pow, pow_add, ← Nat.div_div_eq_div_mul]
  generalize x.toNat / 2 ^ j = v
  omega

/-- A value is known by its bytes. -/
theorem eq_of_bytes {w : Nat} {x y : BitVec w}
    (h : ∀ b, 8 * b < w → x.extractLsb' (8 * b) 8 = y.extractLsb' (8 * b) 8) : x = y := by
  apply BitVec.eq_of_getLsbD_eq
  intro j hj
  have hbit := congrArg (fun v => v.getLsbD (j % 8)) (h (j / 8) (by omega))
  simpa [BitVec.getLsbD_extractLsb', Nat.mod_lt, Nat.div_add_mod] using hbit

/-- Byte b of a word's field n is byte 8 n + b of the word. -/
theorem byte_of_field (w : WideWord) (n : Nat) {b : Nat} (hb : b < 8) :
    (w.extractLsb' (64 * n) 64).extractLsb' (8 * b) 8 = w.extractLsb' (8 * (8 * n + b)) 8 := by
  apply BitVec.eq_of_getLsbD_eq
  intro j hj
  have hin : 8 * b + j < 64 := by omega
  simp only [BitVec.getLsbD_extractLsb', hj, hin, decide_true, Bool.true_and]
  congr 1
  omega

/-- The constant eight bytes times n above a word's address is the word's field n. -/
theorem readConst_field (m : Memory) (a : Nat) {n : Nat} (hn : n < 8) :
    m.readConst (a + 8 * n) = (m.readWord a).extractLsb' (64 * n) 64 := by
  refine eq_of_bytes fun b hb => ?_
  rw [byte_of_field _ _ (by omega), extractLsb'_readConst m _ (by omega), extractLsb'_readWord m a (by omega),
    add_assoc]

/-- Settles O26: a lane is bytes 2 l and 2 l + 1 of its word, a field bytes 8 m to 8 m + 7. -/
theorem lanesAndFieldsInMemory : Obligations.LanesAndFieldsInMemory := by
  refine ⟨fun p m i l => ?_, fun m r q s n hm => ?_⟩
  · have hl := l.isLt
    have hread : srcRead p m i = m.readWord (p.src.base + 64 * i) := rfl
    rw [hread, toNat_extractLsb'_sixteen, show 16 * l.val = 8 * (2 * l.val) by omega,
      show 8 * (2 * l.val) + 8 = 8 * (2 * l.val + 1) by omega, extractLsb'_readWord m _ (by omega),
      extractLsb'_readWord m _ (by omega), add_assoc _ (2 * l.val)]
  · have haddr : r.base + Config.constBytes * (8 * q + n.val) = r.base + 64 * q + 8 * n.val := by
      simp only [Config.constBytes]; omega
    rw [constRead, haddr, readConst_field _ _ n.isLt, Memory.readWord_writeWord hm]

/-! ### The canonical form -/

theorem addresses_rising {m : Memory} (hm : m.wf = true) : m.Pairwise fun c d => c.1 < d.1 := by
  induction m with
  | nil => exact List.Pairwise.nil
  | cons c m ih =>
    obtain ⟨-, hlt, hwf⟩ := (Memory.wf_cons_iff c m).1 hm
    exact List.pairwise_cons.2 ⟨hlt, ih hwf⟩

/-- Canonical memories that read the same list the same cells, in the one order of their addresses. -/
theorem memory_eq_of_read_eq {m k : Memory} (hm : m.wf = true) (hk : k.wf = true)
    (h : ∀ a, m.read a = k.read a) : m = k := by
  have distinct {m : Memory} (hm : m.wf = true) : m.Nodup :=
    (addresses_rising hm).imp fun hlt heq => hlt.ne (congrArg Prod.fst heq)
  have hcells (c : Host.Cell) : c ∈ m ↔ c ∈ k := by
    rw [Memory.cell_listed_iff hm, Memory.cell_listed_iff hk, h]
  exact ((List.perm_ext_iff_of_nodup (distinct hm) (distinct hk)).2 hcells).eq_of_pairwise
    (fun _ _ _ _ h1 h2 => absurd h1 h2.asymm) (addresses_rising hm) (addresses_rising hk)

/-- Settles O29. -/
theorem canonicalMemoryIsUnique : Obligations.CanonicalMemoryIsUnique :=
  ⟨fun _ _ hm hk h => memory_eq_of_read_eq hm hk h, fun _ a bs hm => Memory.writeBytes_wf hm a bs⟩

/-! ### What a host read answers -/

theorem covers_wordRange (r : Region) (n a : Nat) :
    (wordRange r n).covers a = true ↔ InBytes (r.base, 64 * n) a := by
  rw [Range.covers, Bool.and_eq_true, decide_eq_true_iff, decide_eq_true_iff]
  rfl

/-- The bytes the host cannot see: DST[0 .. NPACKETS) while RUNNING (R63). -/
theorem hides_iff (s : State) (a : Nat) :
    s.hides a = true ↔ s.phase = .running ∧ ∃ p, s.params = some p ∧ InBytes (dstBytes p) a := by
  rw [State.hides, Bool.and_eq_true, decide_eq_true_iff]
  refine and_congr_right fun _ => ?_
  cases s.params with
  | none => simp
  | some p =>
    simp only [Option.some.injEq, exists_eq_left']
    exact covers_wordRange p.dst p.count a

@[simp] theorem length_seenBytes (s : State) (a d n : Nat) : (s.seenBytes a d n).length = n := by
  induction n generalizing a d with
  | zero => rfl
  | succ n ih => rw [State.seenBytes, List.length_cons, ih]

/-- Byte k of a host read: the contents, or the draw of a number of its own. -/
theorem getElem?_seenBytes (s : State) (a d : Nat) {n k : Nat} (hk : k < n) :
    (s.seenBytes a d n)[k]? = some (if s.hides (a + k) then Config.drawByte (d + k) else s.mem.read (a + k)) := by
  induction n generalizing a d k with
  | zero => exact absurd hk k.not_lt_zero
  | succ n ih =>
    cases k with
    | zero => rfl
    | succ k =>
      rw [State.seenBytes, List.getElem?_cons_succ, ih (a + 1) (d + 1) (by omega), Nat.add_right_comm a,
        Nat.add_right_comm d]
      rfl

/-- Settles O38: the answer is the bytes seen on the popped agenda, each drawn exactly where it is hidden. -/
theorem hostReadSeesContentsOrDraws : Obligations.HostReadSeesContentsOrDraws := by
  intro s addr n rest ha
  refine ⟨State.seenBytes { s with agenda := rest } addr s.draws n, (step_of_host ha).trans rfl,
    length_seenBytes .., fun k hk => ?_⟩
  rw [getElem?_seenBytes _ _ _ hk, hides_agenda, ← hides_iff]
  exact ⟨fun hhid => by rw [if_pos hhid], fun hvis => by rw [if_neg hvis]⟩

end Sys2Proof.Proofs
end

section
/-! PROOFS. Packets on their way (spec/42_batch.md R153 to R156, R159): what a batch under way keeps, step by step,
and how many parts of each packet are done, so that the order in which packets are processed does not matter. -/

namespace Sys2Proof.Proofs

open Sys2Proof.Machine Sys2Proof.Safety

/-! ### Where the workers write -/

/-- The bytes of DST[i]. -/
def slot (p : Params) (i : Nat) : Nat × Nat := (p.dst.base + 64 * i, 64)

theorem inBytes_dst_of_slot {p : Params} {i a : Nat} (hi : i < p.npackets.toNat) (ha : InBytes (slot p i) a) :
    InBytes (dstBytes p) a := by
  simp only [InBytes, slot, dstBytes] at *
  omega

/-- In a clean batch DST lies below MEM_SIZE (R60, R172). -/
theorem lt_memSize_of_inBytes_dst {p : Params} {n a : Nat} (hc : Clean p n) (ha : InBytes (dstBytes p) a) : a < n :=
  Nat.lt_of_not_le fun hle => hc .outOfRange ⟨dstBytes p, List.mem_cons_of_mem _ List.mem_cons_self, a, ha, hle⟩

/-- A worker's move changes no byte, but while RUNNING those of a slot of DST[0 .. NPACKETS). -/
theorem workerMove_mem {choice : Option Nat} {s t : State} (hs : Inv s) (e : workerMove choice s = .next t) :
    t.mem = s.mem ∨ ∃ p i, s.params = some p ∧ Clean p s.memSize ∧ i < p.npackets.toNat ∧
      ∀ a, ¬ InBytes (slot p i) a → t.mem.read a = s.mem.read a := by
  rcases workerMove_cases choice s with ⟨_, _, _, e'⟩ | ⟨p, h, _, hr, hp, hh, -, e'⟩ <;> cases e'.symm.trans e
  · exact .inl rfl
  · obtain ⟨q, hq, hc, -⟩ := hs.runningAccepted hr
    cases hp.symm.trans hq
    refine .inr ⟨p, h.index, hp, hc, (hs.handsRunning hr p hp h hh).1, fun a ha => ?_⟩
    rw [State.finishPacket_mem]
    exact read_dstWrite_outside p s.mem h.index h.word ha

/-- Settles O58: the one slot a worker's move writes lies in DST, and DST below MEM_SIZE. -/
theorem workersWriteOnlyDestination : Obligations.WorkersWriteOnlyDestination := by
  intro s t rest hs hturn h
  obtain ⟨choice, e⟩ := step_of_workersTurn hturn
  rcases workerMove_mem (inv_popAgenda hs rest) (e.symm.trans h) with hm | ⟨p, i, hp, hc, hi, hm⟩
  · exact ⟨fun a _ => congrArg (Memory.read · a) hm, fun a _ => congrArg (Memory.read · a) hm⟩
  · exact ⟨fun a ha => hm a fun hslot => ha p hp (inBytes_dst_of_slot hi hslot),
      fun a ha => hm a fun hslot => (lt_memSize_of_inBytes_dst hc (inBytes_dst_of_slot hi hslot)).not_ge ha⟩

/-! ### How many parts of a packet are done -/

theorem one_le_parts (st : Stage) : 1 ≤ st.parts := by
  cases st <;> simp only [Stage.parts] <;> omega

theorem parts_le (st : Stage) : st.parts ≤ 35 := by
  cases st with
  | lane l => have := l.isLt; simp only [Stage.parts]; omega
  | unpack => decide
  | pack => decide
  | write => decide

/-- How many of the 36 parts of PROCESS(k) are done: all for a packet in DONESET, those of its stage for one in hand,
and none for another (log 1). -/
def partsDone (s : State) (k : Nat) : Nat :=
  if k ∈ s.doneSet then 36 else (s.inHand k).elim 0 fun h => h.stage.parts

theorem partsDone_of_mem {s : State} {k : Nat} (hk : k ∈ s.doneSet) : partsDone s k = 36 := if_pos hk

theorem partsDone_of_inHand {s : State} {k : Nat} {h : Hand} (hk : k ∉ s.doneSet) (hh : s.inHand k = some h) :
    partsDone s k = h.stage.parts := by rw [partsDone, if_neg hk, hh]; rfl

theorem partsDone_of_not_inHand {s : State} {k : Nat} (hk : k ∉ s.doneSet) (hh : s.inHand k = none) :
    partsDone s k = 0 := by rw [partsDone, if_neg hk, hh]; rfl

theorem partsDone_lt {s : State} {k : Nat} (hk : k ∉ s.doneSet) : partsDone s k < 36 := by
  cases hh : s.inHand k with
  | none => rw [partsDone_of_not_inHand hk hh]; omega
  | some h => rw [partsDone_of_inHand hk hh]; have := parts_le h.stage; omega

theorem partsDone_le (s : State) (k : Nat) : partsDone s k ≤ 36 := by
  by_cases hk : k ∈ s.doneSet
  · exact (partsDone_of_mem hk).le
  · exact (partsDone_lt hk).le

theorem partsDone_of_hands_nil {s : State} (hh : s.hands = []) (k : Nat) :
    partsDone s k = if k ∈ s.doneSet then 36 else 0 := by
  rw [partsDone, State.inHand, hh]
  rfl

theorem mem_doneSet_iff (s : State) (k : Nat) : k ∈ s.doneSet ↔ partsDone s k = 36 :=
  ⟨partsDone_of_mem, fun h => Classical.byContradiction fun hk => (partsDone_lt hk).ne h⟩

theorem partsDone_congr {s t : State} {k : Nat} (hd : k ∈ t.doneSet ↔ k ∈ s.doneSet)
    (hh : t.inHand k = s.inHand k) : partsDone t k = partsDone s k := by
  simp only [partsDone, hd, hh]

theorem inHand_putBack (s : State) (g : Hand) (k : Nat) :
    (s.putBack g).inHand k = (s.inHand k).map fun f => if f.index = g.index then g else f := by
  have hindex : (fun h : Hand => h.index == k) ∘ (fun f => if f.index = g.index then g else f) =
      fun h : Hand => h.index == k := by
    funext f
    by_cases hf : f.index = g.index <;> simp [hf]
  rw [State.inHand, State.putBack_hands, List.find?_map, hindex, State.inHand]

/-- A packet put back is the one in hand of its index; the others stay. -/
theorem inHand_putBack_same {s : State} {g h : Hand} (hh : s.inHand g.index = some h) :
    (s.putBack g).inHand g.index = some g := by
  rw [inHand_putBack, hh, Option.map_some, if_pos (inHand_some hh).2]

theorem inHand_putBack_other (s : State) {g : Hand} {k : Nat} (hk : k ≠ g.index) :
    (s.putBack g).inHand k = s.inHand k := by
  rw [inHand_putBack]
  cases hh : s.inHand k with
  | none => rfl
  | some f => rw [Option.map_some, if_neg ((inHand_some hh).2 ▸ hk)]

theorem inHand_finishPacket_other (s : State) (p : Params) {h : Hand} {k : Nat} (hk : k ≠ h.index) :
    (s.finishPacket p h).inHand k = s.inHand k := by
  rw [State.inHand, State.finishPacket_hands, List.find?_filter, State.inHand]
  congr 1
  funext g
  by_cases hg : g.index = k <;> simp [hg, hk]

/-- s with packet i taken up. -/
def takeUp (s : State) (i : Nat) : State := { s with hands := s.hands ++ [Hand.fresh i] }

theorem inHand_takeUp_same {s : State} {i : Nat} (hi : s.inHand i = none) :
    (takeUp s i).inHand i = some (Hand.fresh i) := by
  rw [State.inHand] at hi
  simp [State.inHand, takeUp, hi, Hand.fresh]

theorem inHand_takeUp_other (s : State) {i k : Nat} (hk : k ≠ i) : (takeUp s i).inHand k = s.inHand k := by
  simp [State.inHand, takeUp, Hand.fresh, hk.symm]

/-- From s to t packet i has one part more done, and every other packet as many. -/
def OnePartMore (s t : State) (i : Nat) : Prop := ∀ k, partsDone t k = partsDone s k + if i = k then 1 else 0

theorem onePartMore_putBack {s : State} {g h : Hand} (hd : g.index ∉ s.doneSet) (hh : s.inHand g.index = some h)
    (hg : g.stage.parts = h.stage.parts + 1) : OnePartMore s (s.putBack g) g.index := fun k => by
  by_cases hk : g.index = k
  · rw [if_pos hk, ← hk, partsDone_of_inHand (s := s.putBack g) hd (inHand_putBack_same hh),
      partsDone_of_inHand hd hh, hg]
  · rw [if_neg hk]
    exact partsDone_congr Iff.rfl (inHand_putBack_other s (Ne.symm hk))

theorem onePartMore_finishPacket {s : State} (p : Params) {h : Hand} (hd : h.index ∉ s.doneSet)
    (hh : s.inHand h.index = some h) (hw : h.stage = .write) :
    OnePartMore s (s.finishPacket p h) h.index := fun k => by
  have hmem (j : Nat) : j ∈ (s.finishPacket p h).doneSet ↔ j = h.index ∨ j ∈ s.doneSet :=
    mem_insertIndex h.index j s.doneSet
  by_cases hk : h.index = k
  · rw [if_pos hk, ← hk, partsDone_of_mem ((hmem _).2 (.inl rfl)), partsDone_of_inHand hd hh, hw]
    rfl
  · rw [if_neg hk]
    exact partsDone_congr ((hmem k).trans (or_iff_right (Ne.symm hk))) (inHand_finishPacket_other s p (Ne.symm hk))

theorem onePartMore_takeUp {s : State} {i : Nat} (hd : i ∉ s.doneSet) (hh : s.inHand i = none) :
    OnePartMore s (takeUp s i) i := fun k => by
  by_cases hk : i = k
  · rw [if_pos hk, ← hk, partsDone_of_inHand (s := takeUp s i) hd (inHand_takeUp_same hh),
      partsDone_of_not_inHand hd hh]
    rfl
  · rw [if_neg hk]
    exact partsDone_congr Iff.rfl (inHand_takeUp_other s (Ne.symm hk))

/-! ### A batch under way -/

/-- What holds of x when the workers have gone on with the batch p from s: the packets written since have their slots,
with the lane values that the memory of s gives, and no other byte has changed. -/
structure Progress (p : Params) (s x : State) : Prop where
  inv : Inv x
  /-- The batch is on, or has just ended. -/
  phase : x.phase = .running ∨ x.phase = .done
  params : x.params = some p
  below : ∀ i ∈ x.doneSet, i < p.npackets.toNat
  /-- DONESET loses no packet. -/
  keeps : ∀ i ∈ s.doneSet, i ∈ x.doneSet
  frame : ∀ a, (∀ i ∈ x.doneSet, i ∉ s.doneSet → ¬ InBytes (slot p i) a) → x.mem.read a = s.mem.read a
  written : ∀ i ∈ x.doneSet, i ∉ s.doneSet → ∀ (l : Fin 32) c,
    batchLane p s.mem i l.val = some c → dstLane p x.mem i l.val = c
  hands : ∀ h ∈ x.hands, HandOk p s.mem h

/-- At its start, with no packet in hand, and whatever the moves to come. -/
theorem progress_start {s : State} {p : Params} (hs : Inv s) (hr : s.phase = .running) (hp : s.params = some p)
    (hh : s.hands = []) (l : List Move) : Progress p s { s with agenda := l } where
  inv := inv_popAgenda hs l
  phase := .inl hr
  params := hp
  below := by
    obtain ⟨q, hq, -, hlt, -⟩ := hs.runningAccepted hr
    cases hp.symm.trans hq
    exact hlt
  keeps := fun _ => id
  frame := fun _ _ => rfl
  written := fun _ hi hn => absurd hi hn
  hands := fun h hm => by
    have hm : h ∈ s.hands := hm
    rw [hh] at hm
    cases hm

section Parts

variable {p : Params} {s x : State}

theorem Progress.popAgenda (hx : Progress p s x) (l : List Move) : Progress p s { x with agenda := l } :=
  { hx with inv := inv_popAgenda hx.inv l }

/-- While a packet is missing the batch is RUNNING. -/
theorem Progress.running (hx : Progress p s x) {i : Nat} (hi : i < p.npackets.toNat) (hd : i ∉ x.doneSet) :
    x.phase = .running :=
  hx.phase.resolve_right fun hdone => by
    obtain ⟨q, hq, hfull⟩ := hx.inv.doneFull hdone
    cases hx.params.symm.trans hq
    exact hd ((hfull i).2 hi)

/-- Outside DST nothing has changed. -/
theorem Progress.frame_dst (hx : Progress p s x) (a : Nat) (ha : ¬ InBytes (dstBytes p) a) :
    x.mem.read a = s.mem.read a :=
  hx.frame a fun i hi _ hslot => ha (inBytes_dst_of_slot (hx.below i hi) hslot)

/-- A packet in hand is not done. -/
theorem Progress.not_done (hx : Progress p s x) {h : Hand} (hh : h ∈ x.hands) :
    h.index < p.npackets.toNat ∧ h.index ∉ x.doneSet := by
  have hr : x.phase = .running := Classical.byContradiction fun hr => by
    rw [hx.inv.handsNone hr] at hh
    cases hh
  exact hx.inv.handsRunning hr p hx.params h hh

theorem Progress.putBack (hx : Progress p s x) {g : Hand} (hg : HandOk p s.mem g) (d : Nat) :
    Progress p s ((x.useDraws d).putBack g) :=
  { hx with
    inv := inv_putBack (inv_useDraws hx.inv d) g
    hands := fun f hf => by
      rcases mem_putBack hf with rfl | ⟨hf, -⟩
      · exact hg
      · exact hx.hands f hf }

theorem Progress.takeUp (hx : Progress p s x) {i : Nat} (hi : i < p.npackets.toNat) (hd : i ∉ x.doneSet)
    (hh : x.inHand i = none) (hw : x.hands.length < x.nworkers) : Progress p s (takeUp x i) :=
  { hx with
    inv := inv_takeUp hx.inv (hx.running hi hd) hx.params hh hi hd hw
    hands := fun f hf => by
      rcases List.mem_append.1 hf with hf | hf
      · exact hx.hands f hf
      · exact List.mem_singleton.1 hf ▸ handOk_fresh p s.mem i }

/-- The word write: a slot more, with the lanes the packet has computed (R153). -/
theorem Progress.finishPacket (hx : Progress p s x) {h : Hand} (hh : h ∈ x.hands) (hw : h.stage = .write) :
    Progress p s (x.finishPacket p h) := by
  obtain ⟨hi, hd⟩ := hx.not_done hh
  have hr : x.phase = .running := hx.running hi hd
  have hmem (j : Nat) : j ∈ (x.finishPacket p h).doneSet ↔ j = h.index ∨ j ∈ x.doneSet :=
    mem_insertIndex h.index j x.doneSet
  refine {
    inv := inv_finishPacket hx.inv hr hx.params hh
    phase := ?_
    params := hx.params
    below := insertIndex_below hx.inv hr hx.params hh
    keeps := fun i hi => (hmem i).2 (.inr (hx.keeps i hi))
    frame := fun a ha => ?_
    written := fun i hi hn l c hc => ?_
    hands := fun g hg => hx.hands g (List.mem_of_mem_filter hg) }
  · rcases finishPacket_phase_cases hx.inv.doneRising hr p h with ⟨e, -⟩ | ⟨e, -⟩
    · exact .inr e
    · exact .inl e
  · have hslot := ha h.index ((hmem _).2 (.inl rfl)) fun hs => hd (hx.keeps _ hs)
    rw [State.finishPacket_mem, read_dstWrite_outside p x.mem h.index h.word hslot]
    exact hx.frame a fun i hi hn => ha i ((hmem i).2 (.inr hi)) hn
  · rw [State.finishPacket_mem]
    by_cases he : i = h.index
    · subst he
      have hok := hx.hands h hh
      simp only [HandOk, hw] at hok
      rw [dstLane_dstWrite_same hx.inv.memCanonical, hok l c hc]
    · rw [dstLane_dstWrite_other p x.mem he]
      exact hx.written i (((hmem i).1 hi).resolve_left he) hn l c hc

/-- A worker on a packet that is not done, with room to take it up, does one part of it. -/
theorem Progress.workOn_part (hx : Progress p s x) {n : Nat} (hc : Clean p n) {i : Nat} (hi : i < p.npackets.toNat)
    (hd : i ∉ x.doneSet) (hroom : x.inHand i = none → x.hands.length < x.nworkers) :
    ∃ t, workOn p i x = .next t ∧ Progress p s t ∧ OnePartMore x t i ∧ t.agenda = x.agenda := by
  rcases workOn_cases p i x with ⟨h, hh, e⟩ | ⟨hh, -, -, hw, e⟩ | ⟨hh, hno, -⟩
  · obtain ⟨hm, rfl⟩ := inHand_some hh
    rcases processStep_ok hc hi hx.frame_dst (hx.hands h hm) with ⟨g, d, -, hg, hparts, hok, e'⟩ | ⟨hw, e'⟩
    · rw [← hg] at hd hh ⊢
      exact ⟨_, hg ▸ e.trans e', hx.putBack hok d, onePartMore_putBack (s := x.useDraws d) hd hh hparts, rfl⟩
    · exact ⟨_, e.trans e', hx.finishPacket hm hw, onePartMore_finishPacket p hd hh hw, rfl⟩
  · exact ⟨_, e, hx.takeUp hi hd hh hw, onePartMore_takeUp hd hh, rfl⟩
  · exact absurd ⟨hi, hd, hroom hh⟩ hno

/-- The phase the batch is in (R154). -/
theorem Progress.phase_eq (hx : Progress p s x) :
    x.phase = if ∀ i, i < p.npackets.toNat → i ∈ x.doneSet then .done else .running := by
  split
  · next hfull =>
    refine hx.phase.resolve_left fun hr => ?_
    obtain ⟨q, hq, -, -, i, hi, hn⟩ := hx.inv.runningAccepted hr
    cases hx.params.symm.trans hq
    exact hn (hfull i hi)
  · next hmiss =>
    push Not at hmiss
    obtain ⟨i, hi, hd⟩ := hmiss
    exact hx.running hi hd

theorem Progress.partsDone_hand (hx : Progress p s x) {h : Hand} (hh : h ∈ x.hands) :
    partsDone x h.index = h.stage.parts :=
  partsDone_of_inHand (hx.not_done hh).2 (inHand_of_mem hx.inv.handsDistinct hh)

end Parts

/-! ### Which packets are under way -/

/-- No packet but those of K is under way. -/
def UnderWayIn (K : List Nat) (x : State) : Prop := ∀ k, k ∉ K → partsDone x k = 0 ∨ partsDone x k = 36

theorem underWayIn_nil_of_hands_nil {x : State} (hh : x.hands = []) : UnderWayIn [] x := fun k _ => by
  rw [partsDone_of_hands_nil hh]
  exact (ite_eq_or_eq ..).symm

theorem UnderWayIn.mono {K L : List Nat} {x : State} (h : UnderWayIn K x) (hKL : K ⊆ L) : UnderWayIn L x :=
  fun k hk => h k fun hm => hk (hKL hm)

section Order

variable {p : Params} {s x : State}

theorem Progress.index_mem (hx : Progress p s x) {K : List Nat} (hK : UnderWayIn K x) {h : Hand}
    (hh : h ∈ x.hands) : h.index ∈ K := Classical.byContradiction fun hn => by
  have hlo := one_le_parts h.stage
  have hhi := parts_le h.stage
  rcases hx.partsDone_hand hh ▸ hK h.index hn with he | he <;> omega

theorem Progress.hands_nil (hx : Progress p s x) (h : UnderWayIn [] x) : x.hands = [] :=
  List.eq_nil_iff_forall_not_mem.2 fun _ hh => List.not_mem_nil (hx.index_mem h hh)

/-- Where no more packets are to be under way than there are workers, one that no worker has can be taken up. -/
theorem Progress.room (hx : Progress p s x) {K : List Nat} (hK : UnderWayIn K x) (hlen : K.length ≤ x.nworkers)
    {i : Nat} (hi : i ∈ K) (hh : x.inHand i = none) : x.hands.length < x.nworkers := by
  have hnew : i ∉ x.hands.map Hand.index := by simpa using inHand_none.1 hh
  have hsub : i :: x.hands.map Hand.index ⊆ K :=
    List.cons_subset.2 ⟨hi, List.forall_mem_map.2 fun h hm => hx.index_mem hK hm⟩
  have hle := ((List.nodup_cons.2 ⟨hnew, hx.inv.handsDistinct⟩).subperm hsub).length_le
  rw [List.length_cons, List.length_map] at hle
  exact hle.trans hlen

/-- A step whose move names a packet of K that is not done does one part of it. -/
theorem Progress.step_part (hx : Progress p s x) {n : Nat} (hc : Clean p n) {K : List Nat} (hK : UnderWayIn K x)
    (hlen : K.length ≤ x.nworkers) {i : Nat} {rest : List Move} (ha : x.agenda = .worker i :: rest) (hiK : i ∈ K)
    (hi : i < p.npackets.toNat) (hd : i ∉ x.doneSet) :
    ∃ t, step x = .next t ∧ Progress p s t ∧ OnePartMore x t i ∧ UnderWayIn K t ∧ t.agenda = rest ∧
      t.nworkers = x.nworkers := by
  obtain ⟨t, e, ht, hmore, hat⟩ := (hx.popAgenda rest).workOn_part hc hi hd (hx.room hK hlen hiK)
  have hstep : step x = .next t := (step_named (hx.running hi hd) hx.params ha).trans e
  refine ⟨t, hstep, ht, hmore, fun k hk => ?_, hat, (sameOpen_step hstep).1⟩
  have hparts : partsDone t k = partsDone x k + if i = k then 1 else 0 := hmore k
  rw [hparts, if_neg (ne_of_mem_of_not_mem hiK hk)]
  exact hK k hk

/-- A run whose moves name packets of K, each no more often than it has parts left, does a part with every step. -/
theorem Progress.run_order {n : Nat} (hc : Clean p n) {K : List Nat} {order : List Nat} {rest : List Move}
    (hx : Progress p s x) (hK : UnderWayIn K x) (hlen : K.length ≤ x.nworkers)
    (ha : x.agenda = order.map .worker ++ rest) (horder : ∀ i ∈ order, i ∈ K ∧ i < p.npackets.toNat)
    (hparts : ∀ k, partsDone x k + order.count k ≤ 36) :
    ∃ t, Host.Core.run core order.length x = .next t ∧ Progress p s t ∧
      (∀ k, partsDone t k = partsDone x k + order.count k) ∧ t.agenda = rest ∧ t.nworkers = x.nworkers := by
  induction order generalizing x with
  | nil => exact ⟨x, rfl, hx, fun k => rfl, ha, rfl⟩
  | cons i order ih =>
    obtain ⟨hiK, hi⟩ := horder i List.mem_cons_self
    have hd : i ∉ x.doneSet := fun hd => by
      have := hparts i
      rw [partsDone_of_mem hd, List.count_cons_self] at this
      omega
    obtain ⟨y, hstep, hy, hmore, hKy, hay, hwy⟩ := hx.step_part hc hK hlen ha hiK hi hd
    have hsum (k : Nat) : partsDone y k + order.count k = partsDone x k + (i :: order).count k := by
      simp only [hmore k, List.count_cons, beq_iff_eq]
      omega
    obtain ⟨t, hrun, ht, hcount, hat, hwt⟩ := ih hy hKy (hwy.symm ▸ hlen) hay
      (fun j hj => horder j (List.mem_cons_of_mem _ hj)) (fun k => (hsum k).trans_le (hparts k))
    exact ⟨t, (run_succ hstep _).trans hrun, ht, fun k => (hcount k).trans (hsum k), hat, hwt.trans hwy⟩

/-- One packet, with no other under way, from its taking to its word write (R153). -/
theorem Progress.run_packet (hx : Progress p s x) {n : Nat} (hc : Clean p n) (hnone : UnderWayIn [] x) {i : Nat}
    {rest : List Move} (hi : i < p.npackets.toNat) (hd : i ∉ x.doneSet)
    (ha : x.agenda = (List.replicate 36 i).map .worker ++ rest) :
    ∃ t, Host.Core.run core 36 x = .next t ∧ Progress p s t ∧
      (∀ k, partsDone t k = partsDone x k + if i = k then 36 else 0) ∧ t.agenda = rest := by
  have hcount (k : Nat) : (List.replicate 36 i).count k = if i = k then 36 else 0 := by
    simp only [List.count_replicate, beq_iff_eq]
  have hzero : partsDone x i = 0 := (hnone i List.not_mem_nil).resolve_right (partsDone_lt hd).ne
  obtain ⟨t, hrun, ht, hparts, hat, -⟩ := hx.run_order hc (K := [i]) (hnone.mono (List.nil_subset _))
    hx.inv.workers ha
    (fun j hj => by cases List.eq_of_mem_replicate hj; exact ⟨List.mem_singleton_self i, hi⟩)
    (fun k => by
      rw [hcount]
      split
      · next hk => rw [← hk, hzero]
      · rcases hnone k List.not_mem_nil with h | h <;> omega)
  exact ⟨t, hrun, ht, fun k => hcount k ▸ hparts k, hat⟩

/-- One packet after the other, with a worker for one. -/
theorem Progress.run_one_after_other (hx : Progress p s x) {n i j : Nat} (hc : Clean p n) (hnone : UnderWayIn [] x)
    (hi : i < p.npackets.toNat) (hj : j < p.npackets.toNat) (hid : i ∉ x.doneSet) (hjd : j ∉ x.doneSet) (hij : i ≠ j)
    (ha : x.agenda = (List.replicate 36 i ++ List.replicate 36 j).map .worker) :
    ∃ t, Host.Core.run core 72 x = .next t ∧ Progress p s t ∧
      ∀ k, partsDone t k = partsDone x k + (List.replicate 36 i ++ List.replicate 36 j).count k := by
  rw [List.map_append] at ha
  obtain ⟨y, hrun, hy, hparts, hay⟩ := hx.run_packet hc hnone hi hid ha
  have hother (k : Nat) (hk : i ≠ k) : partsDone y k = partsDone x k := by rw [hparts k, if_neg hk, add_zero]
  have hi36 : partsDone y i = 36 := by
    rw [hparts i, if_pos rfl, (hnone i List.not_mem_nil).resolve_right (partsDone_lt hid).ne]
  have hynone : UnderWayIn [] y := fun k hk => by
    by_cases hki : i = k
    · exact .inr (hki ▸ hi36)
    · exact hother k hki ▸ hnone k hk
  have hyd : j ∉ y.doneSet := fun hm => (partsDone_lt hjd).ne (hother j hij ▸ partsDone_of_mem hm)
  obtain ⟨t, hrun', ht, hparts', -⟩ := hy.run_packet hc hynone hj hyd (rest := []) (by rw [hay, List.append_nil])
  refine ⟨t, (run_add hrun 36).trans hrun', ht, fun k => ?_⟩
  rw [hparts', hparts, List.count_append, List.count_replicate, List.count_replicate, add_assoc]
  simp only [beq_iff_eq]

end Order

end Sys2Proof.Proofs
end

section
/-! PROOFS. Two packets in any order of their parts (spec/20_memory.md R62, spec/42_batch.md R155, R159): each order
ends with both packets written, and memory is then decided by the lanes. -/

namespace Sys2Proof.Proofs

open Sys2Proof.Machine Sys2Proof.Safety

/-! ### A slot is its lanes -/

/-- Slots of the same 32 lanes hold the same bytes. -/
theorem read_eq_of_dstLane_eq {p : Params} {m k : Memory} {i : Nat}
    (h : ∀ l : Fin 32, dstLane p m i l.val = dstLane p k i l.val) {a : Nat} (ha : InBytes (slot p i) a) :
    m.read a = k.read a := by
  have hword : m.readWord (p.dst.base + 64 * i) = k.readWord (p.dst.base + 64 * i) :=
    word_ext fun l b hb => by
      have hlane := congrArg (fun v => v.getLsbD b) (h l)
      simpa [dstLane, BitVec.getLsbD_extractLsb', hb] using hlane
  obtain ⟨hlo, hhi⟩ : p.dst.base + 64 * i ≤ a ∧ a < p.dst.base + 64 * i + 64 := ha
  obtain ⟨b, rfl⟩ := Nat.exists_eq_add_of_le hlo
  rw [← extractLsb'_readWord m _ (by omega), hword, extractLsb'_readWord k _ (by omega)]

/-! ### Both packets written -/

/-- From s the batch p has gone on by packets i and j, and no packet is under way. -/
structure BothWritten (p : Params) (s : State) (i j : Nat) (t : State) : Prop where
  progress : Progress p s t
  hands : t.hands = []
  doneSet : ∀ k, k ∈ t.doneSet ↔ (k = i ∨ k = j) ∨ k ∈ s.doneSet

theorem BothWritten.symm {p : Params} {s t : State} {i j : Nat} (h : BothWritten p s i j t) : BothWritten p s j i t :=
  { h with doneSet := fun k => (h.doneSet k).trans (or_congr_left or_comm) }

/-- So it is where 36 parts more of each of the two packets are done, and none of another. -/
theorem bothWritten_of_partsDone {p : Params} {s t : State} {i j : Nat} (hh : s.hands = []) (ht : Progress p s t)
    (hparts : ∀ k, partsDone t k = partsDone s k + (List.replicate 36 i ++ List.replicate 36 j).count k) :
    BothWritten p s i j t := by
  have hsum (k : Nat) : partsDone t k =
      (if k ∈ s.doneSet then 36 else 0) + ((if i = k then 36 else 0) + if j = k then 36 else 0) := by
    simp only [hparts, partsDone_of_hands_nil hh, List.count_append, List.count_replicate, beq_iff_eq]
  refine ⟨ht, ht.hands_nil fun k _ => ?_, fun k => ?_⟩
  · have hle := partsDone_le t k
    rw [hsum] at hle ⊢
    split_ifs at hle ⊢ <;> omega
  · have hle := partsDone_le t k
    rw [hsum] at hle
    rw [mem_doneSet_iff, hsum]
    constructor
    · intro h
      by_contra hn
      obtain ⟨⟨hi, hj⟩, hk⟩ : (k ≠ i ∧ k ≠ j) ∧ k ∉ s.doneSet := by simpa only [not_or] using hn
      rw [if_neg hk, if_neg hi.symm, if_neg hj.symm] at h
      omega
    · rintro ((rfl | rfl) | hk)
      · rw [if_pos rfl] at hle ⊢; omega
      · rw [if_pos (rfl : k = k)] at hle ⊢; omega
      · rw [if_pos hk] at hle ⊢; omega

/-- Every order of the two packets' moves writes both. -/
theorem run_orderOfTwo {p : Params} {s : State} {i j : Nat} (hs : Inv s) (hr : s.phase = .running)
    (hp : s.params = some p) (hh : s.hands = []) (hi : i < p.npackets.toNat) (hj : j < p.npackets.toNat)
    (hid : i ∉ s.doneSet) (hjd : j ∉ s.doneSet) (hij : i ≠ j) {order : List Nat}
    (horder : OrderOfTwo s.nworkers i j order) :
    ∃ t, Host.Core.run core 72 { s with agenda := order.map .worker } = .next t ∧ BothWritten p s i j t := by
  obtain ⟨q, hq, hc, -⟩ := hs.runningAccepted hr
  cases hp.symm.trans hq
  have hx := progress_start hs hr hp hh (order.map .worker)
  have hnone : UnderWayIn [] { s with agenda := order.map .worker } := underWayIn_nil_of_hands_nil hh
  rcases horder with rfl | rfl | ⟨htwo, hperm⟩
  · obtain ⟨t, hrun, ht, hparts⟩ := hx.run_one_after_other hc hnone hi hj hid hjd hij rfl
    exact ⟨t, hrun, bothWritten_of_partsDone hh ht hparts⟩
  · obtain ⟨t, hrun, ht, hparts⟩ := hx.run_one_after_other hc hnone hj hi hjd hid hij.symm rfl
    exact ⟨t, hrun, (bothWritten_of_partsDone hh ht hparts).symm⟩
  · have hmem : ∀ k ∈ order, k ∈ [i, j] ∧ k < p.npackets.toNat := fun k hk => by
      rcases List.mem_append.1 (hperm.mem_iff.1 hk) with hk | hk <;> cases List.eq_of_mem_replicate hk
      · exact ⟨List.mem_cons_self, hi⟩
      · exact ⟨List.mem_cons_of_mem _ List.mem_cons_self, hj⟩
    have hle (k : Nat) : partsDone s k + order.count k ≤ 36 := by
      rw [partsDone_of_hands_nil hh, hperm.count_eq, List.count_append, List.count_replicate, List.count_replicate]
      simp only [beq_iff_eq]
      by_cases hk : k ∈ s.doneSet
      · rw [if_pos hk, if_neg (ne_of_mem_of_not_mem hk hid).symm, if_neg (ne_of_mem_of_not_mem hk hjd).symm]
      · by_cases hki : i = k
        · rw [if_neg hk, if_pos hki, if_neg (hki ▸ hij.symm)]
        · rw [if_neg hk, if_neg hki]
          split <;> omega
    obtain ⟨t, hrun, ht, hparts, -, -⟩ := hx.run_order hc (K := [i, j]) (hnone.mono (List.nil_subset _)) htwo
      (rest := []) (List.append_nil _).symm hmem hle
    rw [hperm.length_eq] at hrun
    exact ⟨t, hrun, bothWritten_of_partsDone hh ht fun k => hperm.count_eq k ▸ hparts k⟩

/-! ### The order does not show -/

section Ends

variable {p : Params} {s t u : State} {i j : Nat}

theorem BothWritten.doneSet_eq (ht : BothWritten p s i j t) (hu : BothWritten p s i j u) : t.doneSet = u.doneSet :=
  rising_ext ht.progress.inv.doneRising hu.progress.inv.doneRising fun k => (ht.doneSet k).trans (hu.doneSet k).symm

theorem BothWritten.phase_eq (ht : BothWritten p s i j t) (hu : BothWritten p s i j u) : t.phase = u.phase := by
  rw [ht.progress.phase_eq, hu.progress.phase_eq, ht.doneSet_eq hu]

theorem Progress.faults_eq_nil (ht : Progress p s t) : t.faults = [] :=
  Proofs.faults_eq_nil ht.inv (by rcases ht.phase with h | h <;> simp [h])

theorem BothWritten.lane (ht : BothWritten p s i j t) {k : Nat} (hk : k = i ∨ k = j) (hkd : k ∉ s.doneSet)
    {l : Fin 32} {c : Lane} (hc : batchLane p s.mem k l.val = some c) : dstLane p t.mem k l.val = c :=
  ht.progress.written k ((ht.doneSet k).2 (.inl hk)) hkd l c hc

theorem BothWritten.frame (ht : BothWritten p s i j t) {a : Nat} (hi : ¬ InBytes (slot p i) a)
    (hj : ¬ InBytes (slot p j) a) : t.mem.read a = s.mem.read a :=
  ht.progress.frame a fun k hk hks => by
    rcases ((ht.doneSet k).1 hk).resolve_right hks with rfl | rfl
    · exact hi
    · exact hj

/-- Where no lane is a draw, memory is the same data: slot by slot its lanes, and elsewhere as in s (R159). -/
theorem BothWritten.mem_eq (ht : BothWritten p s i j t) (hu : BothWritten p s i j u) (hid : i ∉ s.doneSet)
    (hjd : j ∉ s.doneSet)
    (hfinite : ∀ l : Fin 32, (batchLane p s.mem i l.val).isSome ∧ (batchLane p s.mem j l.val).isSome) :
    t.mem = u.mem := by
  have hslot {k : Nat} (hk : k = i ∨ k = j) (hkd : k ∉ s.doneSet)
      (hsome : ∀ l : Fin 32, (batchLane p s.mem k l.val).isSome) (a : Nat) (ha : InBytes (slot p k) a) :
      t.mem.read a = u.mem.read a := by
    refine read_eq_of_dstLane_eq (fun l => ?_) ha
    obtain ⟨c, hc⟩ := Option.isSome_iff_exists.1 (hsome l)
    rw [ht.lane hk hkd hc, hu.lane hk hkd hc]
  refine memory_eq_of_read_eq ht.progress.inv.memCanonical hu.progress.inv.memCanonical fun a => ?_
  by_cases hi : InBytes (slot p i) a
  · exact hslot (.inl rfl) hid (fun l => (hfinite l).1) a hi
  by_cases hj : InBytes (slot p j) a
  · exact hslot (.inr rfl) hjd (fun l => (hfinite l).2) a hj
  rw [ht.frame hi hj, hu.frame hi hj]

end Ends

/-- Settles O48: both orders end with both packets written, and what that leaves open is the drawn lanes alone. -/
theorem packetOrderDoesNotMatter : Obligations.PacketOrderDoesNotMatter := by
  intro s p i j hs hr hp hh hi hj hid hjd hij order order' horder horder'
  obtain ⟨t, hrt, ht⟩ := run_orderOfTwo hs hr hp hh hi hj hid hjd hij horder
  obtain ⟨u, hru, hu⟩ := run_orderOfTwo hs hr hp hh hi hj hid hjd hij horder'
  have hparams : t.params = u.params := ht.progress.params.trans hu.progress.params.symm
  have hfaults : t.faults = u.faults := ht.progress.faults_eq_nil.trans hu.progress.faults_eq_nil.symm
  refine ⟨t, u, hrt, hru, ht.doneSet_eq hu, ht.phase_eq hu, hparams, hfaults, ht.hands, hu.hands,
    fun k hk l c hc => ?_, fun a hai haj => ⟨ht.frame hai haj, hu.frame hai haj⟩, ht.mem_eq hu hid hjd⟩
  have hkd : k ∉ s.doneSet := by rcases hk with rfl | rfl <;> assumption
  exact ⟨ht.lane hk hkd hc, hu.lane hk hkd hc⟩

end Sys2Proof.Proofs
end

section
/-! PROOFS. The encodings (spec/30_encoding.md R87 to R97): every key is a POLICY bit and a raw lane, which select
one row of the decode table; encoder and decoder are inverse to each other; the staging format. -/

namespace Sys2Proof.Proofs

open Sys2Proof.Machine

/-! ### Keys -/

theorem exists_policy_bit (b : BitVec 1) : ∃ policy : Policy, policy.bit = b := by
  have h : ∀ b : BitVec 1, (if b = 0 then Policy.single else Policy.multi).bit = b := by decide
  exact ⟨_, h b⟩

/-- Every key is {POLICY, raw} of some lane (R95). -/
theorem exists_laneKey (key : BitVec 17) : ∃ policy raw, key = laneKey policy raw := by
  obtain ⟨policy, hb⟩ := exists_policy_bit (key.extractLsb' 16 1)
  exact ⟨policy, keyRaw key, by rw [laneKey, hb]; exact key_eq key⟩

/-- The four mode codes (R84). -/
theorem rawMode_cases (raw : Lane) :
    rawMode raw = 0 ∨ rawMode raw = 1 ∨ rawMode raw = 2 ∨ rawMode raw = 3 := by
  have h : ∀ t : BitVec 2, t = 0 ∨ t = 1 ∨ t = 2 ∨ t = 3 := by decide
  exact h (rawMode raw)

/-- The row that a multi-mode lane's key selects, by its mode code (R84, R95). -/
theorem selectKey_of_mode {raw : Lane} {mode : BitVec 2} (hm : rawMode raw = mode) :
    selectKey (laneKey .multi raw) = some (topOp (1#1 ++ mode)) := hm ▸ selectKey_multi raw

/-- The rows that match are decided by the top three bits of the key; of these eight values each matches one row. -/
theorem existsUnique_row (key : BitVec 17) : ∃! r, r ∈ keyTable ∧ key &&& r.mask = r.pattern := by
  have htop : ∀ t : BitVec 3, ∃ r ∈ keyTable, maskedTop r.mask t = r.pattern ∧
      ∀ q ∈ keyTable, maskedTop q.mask t = q.pattern → q = r := by decide
  obtain ⟨r, hr, hmatch, honly⟩ := htop (keyTop key)
  refine ⟨r, ⟨hr, (and_mask (table_masks hr) key).trans hmatch⟩, fun q ⟨hq, hqm⟩ => honly q hq ?_⟩
  exact (and_mask (table_masks hq) key).symm.trans hqm

/-- Settles O21: one row by the key's top three bits, which under MULTI are 1 and the mode code. -/
theorem keyTableIsComplete : Obligations.KeyTableIsComplete := by
  refine ⟨existsUnique_row, selectKey_single, fun raw => ?_⟩
  rw [rawMode_toNat]
  rcases rawMode_cases raw with hm | hm | hm | hm <;> rw [selectKey_of_mode hm, hm] <;> rfl

/-! ### The decoder on a lane's key -/

/-- What the decoder answers for an operation that reads a constant pair (R87). -/
def withPair (op : ConstPair → Instr) : Option ConstPair → Except DecodeError Instr
  | some c => .ok (op c)
  | none => .error .missingConstants

/-- And for one that reads none (R87, R128). -/
def withoutPair (op : Instr) : Option ConstPair → Except DecodeError Instr
  | some _ => .error .unexpectedConstants
  | none => .ok op

theorem withPair_ok {op : ConstPair → Instr} {pair : Option ConstPair} {i : Instr} (h : withPair op pair = .ok i) :
    ∃ c, pair = some c ∧ i = op c := by
  cases pair with
  | some c => exact ⟨c, rfl, (Except.ok.inj h).symm⟩
  | none => cases h

theorem withoutPair_ok {op : Instr} {pair : Option ConstPair} {i : Instr} (h : withoutPair op pair = .ok i) :
    pair = none ∧ i = op := by
  cases pair with
  | some c => cases h
  | none => exact ⟨rfl, (Except.ok.inj h).symm⟩

/-- What the decoder answers for a key that selects an operation, by the operation and the raw lane (R87, R95). -/
def keyAnswer (raw : Lane) : KeyOp → Option ConstPair → Except DecodeError Instr
  | .s => withPair fun c => .xformS raw c.p c.g
  | .m0 => withPair fun c => .xformM0 raw c.p c.g
  | .m1 => withPair fun c => .xformM1 raw c.p c.g
  | .inv => withoutPair (.xformInv raw)
  | .m3 => withPair fun c => .xformM3 raw c.p c.g

theorem decode_key {key : BitVec 17} {op : KeyOp} (h : selectKey key = some op) (pair : Option ConstPair) :
    decode (.key key pair) = keyAnswer (keyRaw key) op pair := by
  simp only [decode, decodeKey, h]
  cases op <;> cases pair <;> rfl

theorem decode_single (raw : Lane) (pair : Option ConstPair) :
    decode (.key (laneKey .single raw) pair) = keyAnswer raw .s pair := by
  rw [decode_key (selectKey_single raw), keyRaw_laneKey]

theorem decode_multi {raw : Lane} {mode : BitVec 2} (hm : rawMode raw = mode) (pair : Option ConstPair) :
    decode (.key (laneKey .multi raw) pair) = keyAnswer raw (topOp (1#1 ++ mode)) pair := by
  rw [decode_key (selectKey_of_mode hm), keyRaw_laneKey]

/-- Settles O28: a lane is encoded by its own key, with the pair of its mode's arrays. -/
theorem laneDispatchAndOperands : Obligations.LaneDispatchAndOperands := by
  intro n src dst m raw i l
  refine ⟨fun P G => decode_single raw _, fun p0 g0 p1 g1 p2 g2 => ?_⟩
  rw [rawMode_toNat]
  simp only [laneEncoded, lanePair]
  rcases rawMode_cases raw with hm | hm | hm | hm <;> (rw [hm]; exact decode_multi hm _)

/-! ### Encoder and decoder -/

/-- Every format but INTERNAL has an encoding, of its own format (R80, R96). -/
theorem format_encode (i : Instr) : Laws.Shape.Statement i := by
  cases i
  exacts [Laws.Shape.unpack _, Laws.Shape.pack _, Laws.Shape.rnda _, Laws.Shape.narrow16 _,
    Laws.Shape.xformS _ _ _, Laws.Shape.xformM0 _ _ _, Laws.Shape.xformM1 _ _ _, Laws.Shape.xformInv _,
    Laws.Shape.xformM3 _ _ _, Laws.Shape.batchS _ _ _ _ _, Laws.Shape.batchM _ _ _ _ _ _ _ _ _]

/-- What the encoder gives for a well-formed operation decodes to it. -/
theorem decode_encode {i : Instr} {e : Encoded} (hw : i.wellFormed = true) (he : encode i = some e) :
    decode e = .ok i := by
  cases i with
  | unpack w => cases he
  | pack L => cases he
  | rnda v => cases he
  | narrow16 k => cases he
  | xformS raw p g => cases he; exact decode_single raw _
  | xformM0 raw p g => cases he; exact decode_multi (eq_of_beq hw) _
  | xformM1 raw p g => cases he; exact decode_multi (eq_of_beq hw) _
  | xformInv raw => cases he; exact decode_multi (eq_of_beq hw) _
  | xformM3 raw p g => cases he; exact decode_multi (eq_of_beq hw) _
  | batchS n src dst p g => cases he; rfl
  | batchM n src dst p0 g0 p1 g1 p2 g2 => cases he; rfl

/-- Settles O22: an encoding, where the format has one, is decoded back. -/
theorem decodeOfEncodeIsIdentity : Obligations.DecodeOfEncodeIsIdentity := by
  intro i hw
  have hf : (encode i).map Encoded.format = if i.format = .internal then none else some i.format :=
    format_encode i
  split
  · next hint => rwa [if_pos hint, Option.map_eq_none_iff] at hf
  · next hext =>
    rw [if_neg hext, Option.map_eq_some_iff] at hf
    obtain ⟨e, he, hformat⟩ := hf
    exact ⟨e, he, hformat, decode_encode hw he⟩

/-- The operation a key decodes to is well-formed, and the key with its constants is its encoding. -/
theorem encode_decode_key {key : BitVec 17} {pair : Option ConstPair} {i : Instr}
    (h : decode (.key key pair) = .ok i) : i.wellFormed = true ∧ encode i = some (.key key pair) := by
  obtain ⟨policy, raw, rfl⟩ := exists_laneKey key
  cases policy with
  | single =>
    obtain ⟨c, rfl, rfl⟩ := withPair_ok ((decode_single raw pair).symm.trans h)
    exact ⟨rfl, rfl⟩
  | multi =>
    rcases rawMode_cases raw with hm | hm | hm | hm
    · obtain ⟨c, rfl, rfl⟩ := withPair_ok ((decode_multi hm pair).symm.trans h)
      exact ⟨beq_of_eq hm, rfl⟩
    · obtain ⟨c, rfl, rfl⟩ := withPair_ok ((decode_multi hm pair).symm.trans h)
      exact ⟨beq_of_eq hm, rfl⟩
    · obtain ⟨rfl, rfl⟩ := withoutPair_ok ((decode_multi hm pair).symm.trans h)
      exact ⟨beq_of_eq hm, rfl⟩
    · obtain ⟨c, rfl, rfl⟩ := withPair_ok ((decode_multi hm pair).symm.trans h)
      exact ⟨beq_of_eq hm, rfl⟩

/-- The same of an INVOKE record: POLICY and the number of its arrays are those of the batch operation. -/
theorem encode_decode_invoke {r : InvokeRecord} {i : Instr} (h : decode (.invoke r) = .ok i) :
    i.wellFormed = true ∧ encode i = some (.invoke r) := by
  have hmulti : ∀ b : BitVec 1, b ≠ Policy.single.bit → b = Policy.multi.bit := by decide
  simp only [decode, decodeInvoke] at h
  split at h <;> split at h
  · next hpol _ p g hc =>
    cases h
    exact ⟨rfl, by rw [encode, ← hpol, ← hc]⟩
  · cases h
  · next hpol _ p0 g0 p1 g1 p2 g2 hc =>
    cases h
    exact ⟨rfl, by rw [encode, ← hmulti _ hpol, ← hc]⟩
  · cases h

/-- Every key decodes, with the constants its operation reads. -/
theorem decode_key_total (key : BitVec 17) (c : ConstPair) :
    ∃ i, decode (.key key (if selectKey key = some .inv then none else some c)) = .ok i := by
  obtain ⟨op, hop⟩ : ∃ op, selectKey key = some op := ⟨_, selectKey_eq key⟩
  rw [decode_key hop, hop]
  cases op with
  | s => exact ⟨.xformS (keyRaw key) c.p c.g, rfl⟩
  | m0 => exact ⟨.xformM0 (keyRaw key) c.p c.g, rfl⟩
  | m1 => exact ⟨.xformM1 (keyRaw key) c.p c.g, rfl⟩
  | inv => exact ⟨.xformInv (keyRaw key), rfl⟩
  | m3 => exact ⟨.xformM3 (keyRaw key) c.p c.g, rfl⟩

/-- Settles O23: by the two forms of an encoding, and by the number of arrays of a record. -/
theorem encodeOfDecodeIsIdentity : Obligations.EncodeOfDecodeIsIdentity := by
  refine ⟨fun e i h => ?_, decode_key_total, fun r hk => ?_, fun r hk => ?_⟩
  · cases e with
    | key key pair => exact encode_decode_key h
    | invoke r => exact encode_decode_invoke h
  · obtain ⟨-, p, hd⟩ := (decode_invoke_cases r).resolve_right fun hno => hno.1 hk
    exact ⟨_, hd⟩
  · exact ((decode_invoke_cases r).resolve_left fun hyes => hk hyes.1).2

/-- Settles O24, by running the decoder on each word. -/
theorem writtenOutWordsDecode : Obligations.WrittenOutWordsDecode := by
  refine ⟨?_, ?_, ?_, ?_, ?_, ?_, ?_⟩ <;> decide

/-! ### The staging format -/

/-- Settles O27: place j of the array is field j mod 8 of word j / 8, below N. -/
theorem stagingFormat : Obligations.StagingFormat := by
  refine ⟨fun words n q m s hs => ?_, fun words n hl => ?_, fun n => ?_, fun n => ?_,
    fun layout source n k j s hlt hs => ?_⟩
  · have hm := m.isLt
    rw [getElem?_stagedArray, show (8 * q + m.val) / 8 = q by omega, show (8 * q + m.val) % 8 = m.val by omega, hs]
    rfl
  · rw [length_stagedArray, hl, stagingWords]; omega
  · rw [stagingWords]; omega
  · rw [stagingWords]; omega
  · rw [stagedConst, getElem?_stagedArray, if_pos hlt, hs]; rfl

end Sys2Proof.Proofs
end

section
/-! PROOFS. A step runs the decoded operation (spec/30_encoding.md R91, R95, spec/42_batch.md R153): UNPACK and PACK at
their place in PROCESS, the host's START, and the word that withFetchWord places (log 12). -/

namespace Sys2Proof.Proofs

open Sys2Proof.Machine

/-! ### A part of PROCESS, by its stage -/

theorem step_of_inHand {s : State} {p : Params} {h : Hand} {rest : List Move} (hr : s.phase = .running)
    (hp : s.params = some p) (ha : s.agenda = .worker h.index :: rest) (hh : s.inHand h.index = some h) :
    step s = processStep p h { s with agenda := rest } :=
  (step_named hr hp ha).trans (workOn_of_inHand hh)

theorem processStep_unpack (p : Params) {h : Hand} (hs : h.stage = .unpack) (s : State) :
    processStep p h s = mapNext (State.retireUnpack h) (exec (.unpack (srcRead p s.mem h.index)) s) := by
  simp only [processStep, hs]

theorem processStep_lane {p : Params} {h : Hand} {l : Fin 32} {s : State} {op : Instr} (hs : h.stage = .lane l)
    (hd : decode (laneEncoded p s.mem (h.lanesIn[l.val]'l.isLt) (absIndex h.index l.val)) = .ok op) :
    processStep p h s = mapNext (State.retireLane h l) (exec op s) := by
  simp only [processStep, hs, hd]

theorem processStep_pack (p : Params) {h : Hand} (hs : h.stage = .pack) (s : State) :
    processStep p h s = mapNext (State.retirePack h) (exec (.pack h.lanesOut) s) := by
  simp only [processStep, hs]

theorem exec_unpack (w : WideWord) (s : State) : exec (.unpack w) s = .next (s.setLanesIn (unpackLanes w)) := rfl

theorem exec_pack (L : Lanes) (s : State) : exec (.pack L) s = .next (s.setWord (packLanes L)) := rfl

/-- Settles O41: the part's operation leaves its result in the datapath, and putting the packet back takes it over. -/
theorem stepRunsUnpackAndPack : Obligations.StepRunsUnpackAndPack := by
  intro s p h rest hr hp ha hh
  have hstep := step_of_inHand hr hp ha hh
  refine ⟨fun hs => ⟨_, exec_unpack _ _, ?_⟩, fun hs => ⟨_, exec_pack _ _, ?_⟩⟩
  · rw [hstep, processStep_unpack p hs, exec_unpack, srcRead, Config.wordBytes]
    -- which lanes they are does not matter; Lean need not compute them
    generalize unpackLanes _ = L
    rfl
  · rw [hstep, processStep_pack p hs, exec_pack]
    generalize packLanes _ = w
    rfl

/-! ### START -/

/-- Settles O42: the host's START is the decoder's answer on the popped agenda. -/
theorem stepRunsDecodedStart : Obligations.StepRunsDecodedStart := fun _ _ _ ha =>
  ⟨fun _ hd => by rw [step_of_host ha, hostAct]; simp only [hd],
    fun _ hd => by rw [step_of_host ha, hostAct]; simp only [hd]⟩

/-! ### Operand words of zero -/

theorem read_writeConst_zero {m : Memory} (hm : m.wf = true) (a : Nat) {b : Nat} (hb : b < 8) :
    (m.writeConst a 0).read (a + b) = 0 := by
  have hlen : b < (leBytes Config.constBytes (0 : Real64).toNat).length := by rwa [leBytes_length]
  rw [Memory.writeConst, Memory.read_writeBytes_inside hm a b _ hlen, getElem_leBytes]
  simp

/-- A zero byte is still zero after constants of zero are written, wherever they are. -/
theorem read_zeroConstants_of_zero {m : Memory} (hm : m.wf = true) {a : Nat} (h0 : m.read a = 0) (rs : List Region) :
    (zeroConstants m rs).read a = 0 := by
  induction rs generalizing m with
  | nil => exact h0
  | cons r rs ih =>
    refine ih (Memory.writeConst_wf hm r.base 0) ?_
    by_cases hin : r.base ≤ a ∧ a < r.base + 8
    · obtain ⟨b, rfl⟩ := Nat.exists_eq_add_of_le hin.1
      exact read_writeConst_zero hm r.base (by omega)
    · rw [Memory.read_writeConst_outside m 0 (by omega), h0]

/-- Element 0 of each array is the constant zero. -/
theorem readConst_zeroConstants {m : Memory} (hm : m.wf = true) {rs : List Region} {r : Region} (hr : r ∈ rs) :
    (zeroConstants m rs).readConst r.base = 0 := by
  induction rs generalizing m with
  | nil => cases hr
  | cons q rs ih =>
    have hq := Memory.writeConst_wf hm q.base 0
    rcases List.mem_cons.1 hr with rfl | hr
    · refine eq_of_bytes fun b hb => ?_
      have hzero : (0 : Real64).extractLsb' (8 * b) 8 = 0 := BitVec.extractLsb'_zero
      rw [extractLsb'_readConst _ _ (by omega), hzero]
      exact read_zeroConstants_of_zero hq (read_writeConst_zero hm r.base (by omega)) rs
    · exact ih hq hr

/-- With element 0 of every array zero, the constants that stand with lane 0's key are its operand words of zero. -/
theorem lanePair_eq_zeroOperands {p : Params} {m : Memory} (h0 : ∀ r ∈ p.arrays.regions, constRead m r 0 = 0)
    (raw : Lane) : lanePair p m raw 0 = zeroOperands (laneKey p.policy raw) := by
  rcases hp : p.arrays with ⟨P, G⟩ | ⟨p0, g0, p1, g1, p2, g2⟩ <;> rw [hp] at h0
  · have hpol : p.policy = .single := by rw [Params.policy, hp]; rfl
    simp only [Arrays.regions, List.forall_mem_cons] at h0
    simp [lanePair, hp, hpol, zeroOperands, selectKey_single, pairRead, h0, zeroPair]
  · have hpol : p.policy = .multi := by rw [Params.policy, hp]; rfl
    simp only [Arrays.regions, List.forall_mem_cons] at h0
    rcases rawMode_cases raw with hm | hm | hm | hm <;>
      simp [lanePair, hp, hpol, zeroOperands, selectKey_of_mode hm, hm, topOp, pairRead, h0, zeroPair]

/-! ### The placed word -/

theorem fetchParams_policy_bit (b : BitVec 1) : (fetchParams b).policy.bit = b := by
  revert b; decide

/-- Lane 0 of the placed batch is encoded by the placed key, with its operand words of zero. -/
theorem laneEncoded_placed {m : Memory} (hm : m.wf = true) (key : BitVec 17) :
    laneEncoded (fetchParams (key.extractLsb' 16 1))
      (zeroConstants m (fetchParams (key.extractLsb' 16 1)).arrays.regions) (keyRaw key) 0 =
      .key key (zeroOperands key) := by
  have hkey : laneKey (fetchParams (key.extractLsb' 16 1)).policy (keyRaw key) = key := by
    rw [laneKey, fetchParams_policy_bit]; exact (key_eq key).symm
  rw [laneEncoded, lanePair_eq_zeroOperands fun r hr => readConst_zeroConstants hm hr, hkey]

theorem keyRaw_ofNat (w : Nat) : keyRaw (BitVec.ofNat 17 w) = BitVec.ofNat 16 w := by
  apply BitVec.eq_of_toNat_eq
  simp only [keyRaw, BitVec.extractLsb'_toNat, BitVec.toNat_ofNat]
  omega

/-- What the decoder reads from a row's bits is what it answers for the encoded operation they are. -/
theorem exists_tableEncoded {nbits w : Nat} {op : Instr} (h : decodeTableWord nbits w = some op) :
    ∃ e, tableEncoded nbits w = some e ∧ decode e = .ok op := by
  obtain ⟨e, he, hd⟩ := Option.bind_eq_some_iff.1 h
  refine ⟨e, he, ?_⟩
  cases hde : decode e with
  | ok i => rw [hde] at hd; exact congrArg _ (Option.some.inj hd)
  | error err => rw [hde] at hd; cases hd

/-- Eight bits are an INVOKE record. -/
theorem tableEncoded_eight {w : Nat} {e : Encoded} (h : tableEncoded 8 w = some e) : ∃ r, e = .invoke r := by
  by_cases hw : w < 2
  · exact ⟨_, by simpa [tableEncoded, hw] using h.symm⟩
  · simp [tableEncoded, hw] at h

/-- Twenty-four bits are a key, with its operand words of zero. -/
theorem tableEncoded_twentyFour {w : Nat} {e : Encoded} (h : tableEncoded 24 w = some e) :
    e = .key (BitVec.ofNat 17 w) (zeroOperands (BitVec.ofNat 17 w)) := by
  by_cases hw : w < 131072
  · simpa [tableEncoded, hw] using h.symm
  · simp [tableEncoded, hw] at h

theorem withFetchWord_of_encoded (s : State) {nbits w : Nat} {e : Encoded} (h : tableEncoded nbits w = some e) :
    s.withFetchWord nbits w = s.placeEncoded e := by simp only [State.withFetchWord, h]

/-- A START placed is the host's next action. -/
theorem step_placed_invoke {r : InvokeRecord} {op : Instr} (hd : decode (.invoke r) = .ok op) (s : State) :
    step (s.placeEncoded (.invoke r)) = exec op s :=
  (stepRunsDecodedStart _ r s.agenda rfl).1 op hd

theorem format_of_laneEncoded {p : Params} {m : Memory} {raw : Lane} {j : Nat} {op : Instr}
    (hd : decode (laneEncoded p m raw j) = .ok op) : op.format = .key := by
  obtain ⟨i, hi, hf⟩ := decode_laneEncoded p m raw j
  cases hi.symm.trans hd
  exact hf

/-- Lane 0 done of the one packet in hand, which is put back in its place. -/
theorem retireLane_alone {h : Hand} {u : State} (hu : u.hands = [h]) :
    State.retireLane h 0 u = { u with
      dp := Datapath.zero
      hands := [{ h with stage := .lane 1, lanesOut := h.lanesOut.set 0 u.dp.lane }] } := by
  simp only [State.retireLane_eq, State.putBack, hu, List.map_cons, List.map_nil, if_true]
  rfl

/-- The packet in hand that a KEY with this raw lane is placed as (log 12). -/
def placedHand (raw : Lane) : Hand := ⟨0, .lane 0, zeroLanes.set 0 raw, zeroLanes, 0⟩

theorem processStep_placedHand {p : Params} {s : State} {raw : Lane} {op : Instr}
    (hd : decode (laneEncoded p s.mem raw 0) = .ok op) :
    processStep p (placedHand raw) s = mapNext (State.retireLane (placedHand raw) 0) (exec op s) := by
  have hraw : (placedHand raw).lanesIn[(0 : Fin 32).val] = raw := Vector.getElem_set_self _
  have hindex : absIndex (placedHand raw).index (0 : Fin 32).val = 0 := rfl
  exact processStep_lane rfl (by rw [hraw, hindex, hd])

/-- A KEY placed is the next part of the one packet in hand, its lane 0. -/
theorem step_placed_key {key : BitVec 17} {op : Instr} (hd : decode (.key key (zeroOperands key)) = .ok op)
    {s : State} (hm : s.mem.wf = true) (pair : Option ConstPair) :
    ∃ u, exec op { s.placeEncoded (.key key pair) with agenda := s.agenda } = .next u ∧
      step (s.placeEncoded (.key key pair)) = .next { u with
        dp := Datapath.zero
        hands := [⟨0, .lane 1, zeroLanes.set 0 (keyRaw key), zeroLanes.set 0 u.dp.lane, 0⟩] } := by
  have hlane : decode (laneEncoded (fetchParams (key.extractLsb' 16 1)) (s.placeEncoded (.key key pair)).mem
      (keyRaw key) 0) = .ok op := (congrArg decode (laneEncoded_placed hm key)).trans hd
  obtain ⟨c, d, -, hexec⟩ :=
    exec_key (format_of_laneEncoded hlane) { s.placeEncoded (.key key pair) with agenda := s.agenda }
  have hstep :=
    step_of_inHand (s := s.placeEncoded (.key key pair)) (h := placedHand (keyRaw key)) rfl rfl rfl rfl
  have hpart := processStep_placedHand (s := { s.placeEncoded (.key key pair) with agenda := s.agenda }) hlane
  exact ⟨_, hexec, hstep.trans (hpart.trans ((congrArg _ hexec).trans (congrArg _ (retireLane_alone rfl))))⟩

/-- Settles O43: the placed operation is the one the bits decode to. -/
theorem fetchedWordRunsNext : Obligations.FetchedWordRunsNext := by
  refine fun s w op => ⟨fun h => ?_, fun hm h => ?_⟩
  · obtain ⟨e, he, hd⟩ := exists_tableEncoded h
    obtain ⟨r, rfl⟩ := tableEncoded_eight he
    rw [withFetchWord_of_encoded s he, step_placed_invoke hd]
  · obtain ⟨e, he, hd⟩ := exists_tableEncoded h
    cases tableEncoded_twentyFour he
    rw [withFetchWord_of_encoded s he, ← keyRaw_ofNat]
    exact step_placed_key hd hm _

end Sys2Proof.Proofs
end

section
/-! PROOFS. The packed-word codec (spec/40_codec.md R110 to R114): UNPACK and PACK lane by lane, the frame of each,
and that each undoes the other. -/

namespace Sys2Proof.Proofs

open Sys2Proof.Machine

theorem toNat_wordLane (w : WideWord) (i : Nat) : (wordLane w i).toNat = w.toNat / 2 ^ (16 * i) % 2 ^ 16 := by
  rw [wordLane, BitVec.extractLsb'_toNat, Nat.shiftRight_eq_div_pow]

theorem unpackLanes_packLanes (L : Lanes) : unpackLanes (packLanes L) = L :=
  Vector.ext fun i hi => (getElem_unpackLanes _ i hi).trans (wordLane_packLanes L ⟨i, hi⟩)

/-- Settles O3: the word packed from a word's own lanes has that word's bits. -/
theorem packUndoesUnpack : Obligations.PackUndoesUnpack := fun w s =>
  ⟨_, _, exec_unpack w s, exec_pack _ _, packLanes_unpackLanes w⟩

/-- Settles O4: lane i of the packed word is the lane that PACK placed there. -/
theorem unpackUndoesPack : Obligations.UnpackUndoesPack := fun L s =>
  ⟨_, _, exec_pack L s, exec_unpack _ _, unpackLanes_packLanes L⟩

/-- Settles O1: UNPACK sets the lanes of the datapath, and each lane is sixteen bits of the word. -/
theorem unpackSplitsWordIntoLanes : Obligations.UnpackSplitsWordIntoLanes := by
  refine fun w s => ⟨_, exec_unpack w s, fun i => ?_, rfl, rfl⟩
  rw [State.setLanesIn_dp, getElem_unpackLanes, toNat_wordLane]

/-- Settles O2: PACK sets the word of the datapath, and its bits are those of the lanes. -/
theorem packPlacesEveryLane : Obligations.PackPlacesEveryLane := fun L s =>
  ⟨_, exec_pack L s, fun i _ hb => getLsbD_packLanes L i hb, rfl, rfl⟩

end Sys2Proof.Proofs
end

section
/-! PROOFS. The calibration transform (spec/41_transform.md R120 to R129): RNDA on exact values, NARROW16, what CAL
leaves, the keys of each transform, and the products of documented and of identity constants. -/

namespace Sys2Proof.Proofs

open Sys2Proof.Machine Sys2Proof.Safety Sys2Proof.Binary64

/-! ### RNDA -/

/-- Rounding half away from zero moves a value by at most 1/2, and a midpoint away from zero. -/
theorem awayFromZero_near (q : Rat) :
    |q - (awayFromZero q : Rat)| ≤ 1 / 2 ∧
      (|q - (awayFromZero q : Rat)| = 1 / 2 → |q| < |(awayFromZero q : Rat)|) := by
  rw [awayFromZero]
  split
  · next hq =>
    have hle := Int.floor_le (q + 1 / 2)
    have hlt := Int.lt_floor_add_one (q + 1 / 2)
    refine ⟨abs_le.2 ⟨by linarith, by linarith⟩, fun htie => ?_⟩
    rw [abs_of_nonneg hq]
    rcases eq_or_eq_neg_of_abs_eq htie with h | h
    · linarith
    · exact lt_of_lt_of_le (by linarith) (le_abs_self _)
  · next hq =>
    have hle := Int.le_ceil (q - 1 / 2)
    have hlt := Int.ceil_lt_add_one (q - 1 / 2)
    refine ⟨abs_le.2 ⟨by linarith, by linarith⟩, fun htie => ?_⟩
    rw [abs_of_neg (not_le.1 hq)]
    rcases eq_or_eq_neg_of_abs_eq htie with h | h
    · exact lt_of_lt_of_le (by linarith) (neg_le_abs _)
    · linarith

/-- A bound that is a whole number is kept. -/
theorem natAbs_awayFromZero_le {q : Rat} {n : Nat} (hq : |q| ≤ n) : (awayFromZero q).natAbs ≤ n := by
  obtain ⟨hnear, -⟩ := awayFromZero_near q
  have habs : |(awayFromZero q : Rat)| < n + 1 := by
    rw [abs_sub_comm] at hnear
    linarith [abs_sub_abs_le_abs_sub (awayFromZero q : Rat) q]
  rw [← Int.cast_abs, ← Nat.cast_natAbs] at habs
  exact Nat.lt_succ_iff.1 (by exact_mod_cast habs)

theorem awayFromZero_natCast (n : Nat) : awayFromZero (n : Rat) = n := by
  rw [awayFromZero, if_pos n.cast_nonneg, Int.floor_natCast_add]
  norm_num

/-- A finite value has 53 bits and an exponent field of at most 2046, so its magnitude is below 2^1024. -/
theorem abs_real_le {v : Real64} (hv : isFinite v = true) : |real v| ≤ 2 ^ 1024 := by
  have hexp : expField v < 2048 := (v.extractLsb' 52 11).isLt
  have hmax : expField v ≠ 2047 := bne_iff_ne.1 hv
  have hmag : fixedMag v ≤ 2 ^ (1024 + 1074) :=
    calc fixedMag v ≤ 2 ^ 53 * 2 ^ (expField v - 1) := Nat.mul_le_mul_right _ (significand_lt v).le
      _ = 2 ^ (53 + (expField v - 1)) := (pow_add 2 53 _).symm
      _ ≤ 2 ^ (1024 + 1074) := pow_le_pow_right₀ one_le_two (by omega)
  have habs : |(fixed v : Rat)| = fixedMag v := by
    rw [fixed]
    split <;> simp
  rw [real_eq_fixed, abs_div, abs_of_pos (by positivity : (0 : Rat) < 2 ^ 1074), habs,
    div_le_iff₀ (by positivity), ← pow_add]
  exact_mod_cast hmag

theorem exec_rnda_finite {v : Real64} (hv : isFinite v = true) (s : State) :
    exec (.rnda v) s = .next (s.setRounded (awayFromZero (real v))) := by
  rw [← roundHalfAway_eq]
  exact if_pos hv

/-- Settles O5: RNDA is the exact rounding, and 2^1024 bounds every finite value. -/
theorem rndaRoundsExactly : Obligations.RndaRoundsExactly := fun v s hv =>
  ⟨awayFromZero (real v), exec_rnda_finite hv s, rfl,
    natAbs_awayFromZero_le (by exact_mod_cast abs_real_le hv), rfl⟩

/-- Settles O6, by the distance of the exact rounding from its argument. -/
theorem rndaIsNearestAwayAtTies : Obligations.RndaIsNearestAwayAtTies := fun v s hv =>
  ⟨_, exec_rnda_finite hv s, awayFromZero_near (real v)⟩

/-- Settles O7: the branch of values that are not finite. -/
theorem rndaOfNonFiniteIsFree : Obligations.RndaOfNonFiniteIsFree := fun _ _ hv =>
  if_neg (by rw [hv]; exact Bool.false_ne_true)

/-! ### NARROW16 -/

theorem narrow16_toInt (k : Int) :
    (narrow16 k).toInt = if k % 65536 < 32768 then k % 65536 else k % 65536 - 65536 := by
  have hk := narrow16_toNat k
  rw [BitVec.toInt_eq_toNat_cond]
  split <;> split <;> omega

/-- A lane read unsigned narrows to itself. -/
theorem narrow16_toNat_lane (raw : Lane) : narrow16 (raw.toNat : Int) = raw := by
  rw [narrow16, BitVec.ofInt_natCast, BitVec.ofNat_toNat, BitVec.setWidth_eq]

/-- Settles O8: the 16 bits are k mod 2^16, and the upper half of them reads as negative. -/
theorem narrow16Wraps : Obligations.Narrow16Wraps := fun k s =>
  ⟨s.setLane (narrow16 k), rfl, narrow16_toNat k, narrow16_toInt k, rfl, rfl⟩

/-! ### CAL -/

theorem calibrate_finite {a : Lane} {p g : Real64} (hv : isFinite (calProduct a p g) = true) (s : State) :
    calibrate a p g s = s.setLane (narrow16 (awayFromZero (real (calProduct a p g)))) := by
  rw [calibrate_eq, if_pos hv, roundHalfAway_eq]

theorem calibrate_nonFinite {a : Lane} {p g : Real64} (hv : ¬ isFinite (calProduct a p g) = true) (s : State) :
    calibrate a p g s = (s.setLane (Config.drawLane s.draws)).useDraws 1 := by
  rw [calibrate_eq, if_neg hv]

/-- CAL leaves what R122 says. -/
theorem calibrated_calibrate (a : Lane) (p g : Real64) (s : State) :
    Calibrated a.toNat p g s (calibrate a p g s) := by
  by_cases hv : isFinite (calProduct a p g) = true
  · rw [calibrate_finite hv]
    exact (if_pos hv).mpr ⟨narrow16_toNat _, rfl⟩
  · rw [calibrate_nonFinite hv]
    exact (if_neg hv).mpr rfl

/-- The magnitude field is bits 13:0 of the lane (R83). -/
theorem toNat_magnitude14 (raw : Lane) : (magnitude14 raw).toNat = raw.toNat % 16384 := by
  simp only [magnitude14, BitVec.toNat_setWidth, BitVec.extractLsb'_toNat, Nat.shiftRight_zero]
  omega

theorem calibrated_magnitude (raw : Lane) (p g : Real64) (s : State) :
    Calibrated (raw.toNat % 16384) p g s (calibrate (magnitude14 raw) p g s) :=
  toNat_magnitude14 raw ▸ calibrated_calibrate (magnitude14 raw) p g s

/-! ### The transforms and their keys -/

theorem exec_xformS (raw : Lane) (p g : Real64) (s : State) :
    exec (.xformS raw p g) s = .next (calibrate raw p g s) := rfl

theorem exec_xformM0 (raw : Lane) (p g : Real64) (s : State) :
    exec (.xformM0 raw p g) s = .next (calibrate (magnitude14 raw) p g s) := rfl

theorem exec_xformM1 (raw : Lane) (p g : Real64) (s : State) :
    exec (.xformM1 raw p g) s = .next (calibrate (magnitude14 raw) p g s) := rfl

theorem exec_xformM3 (raw : Lane) (p g : Real64) (s : State) :
    exec (.xformM3 raw p g) s = .next (calibrate (magnitude14 raw) p g s) := rfl

theorem exec_xformInv (raw : Lane) (s : State) : exec (.xformInv raw) s = .next (s.setLane Config.sentinel) := rfl

/-- A key that matches a row of the table decodes to that row's operation (R95). -/
theorem decode_of_row {r : KeyRow} (hr : r ∈ keyTable) {key : BitVec 17} (hk : key &&& r.mask = r.pattern)
    (pair : Option ConstPair) : decode (.key key pair) = keyAnswer (keyRaw key) r.op pair := by
  have htop : ∀ r ∈ keyTable, ∀ t : BitVec 3, maskedTop r.mask t = r.pattern → topOp t = r.op := by decide
  have hop : topOp (keyTop key) = r.op := htop r hr _ ((and_mask (table_masks hr) key).symm.trans hk)
  exact decode_key ((selectKey_eq key).trans (congrArg some hop)) pair

/-- Settles O13, by what CAL leaves and the first row of the table. -/
theorem xformSCalibratesWholeLane : Obligations.XformSCalibratesWholeLane := fun raw p g s =>
  ⟨_, exec_xformS raw p g s, calibrated_calibrate raw p g s, fun _ c hk =>
    decode_of_row (r := ⟨.s, 0x00000, 0x10000⟩) (by decide) hk (some c)⟩

/-- Settles O14, by what CAL leaves of the magnitude and the row of mode code 0. -/
theorem xformM0CalibratesMagnitude : Obligations.XformM0CalibratesMagnitude := fun raw p g s =>
  ⟨_, exec_xformM0 raw p g s, calibrated_magnitude raw p g s, fun _ c hk =>
    decode_of_row (r := ⟨.m0, 0x10000, 0x1C000⟩) (by decide) hk (some c)⟩

/-- Settles O15, by what CAL leaves of the magnitude and the row of mode code 1. -/
theorem xformM1CalibratesMagnitude : Obligations.XformM1CalibratesMagnitude := fun raw p g s =>
  ⟨_, exec_xformM1 raw p g s, calibrated_magnitude raw p g s, fun _ c hk =>
    decode_of_row (r := ⟨.m1, 0x14000, 0x1C000⟩) (by decide) hk (some c)⟩

/-- Settles O16, by what CAL leaves of the magnitude and the row of mode code 3. -/
theorem xformM3CalibratesMagnitude : Obligations.XformM3CalibratesMagnitude := fun raw p g s =>
  ⟨_, exec_xformM3 raw p g s, calibrated_magnitude raw p g s, fun _ c hk =>
    decode_of_row (r := ⟨.m3, 0x1C000, 0x1C000⟩) (by decide) hk (some c)⟩

/-- Settles O17: the sentinel, and the row of mode code 2. -/
theorem xformInvGivesSentinel : Obligations.XformInvGivesSentinel := fun raw s =>
  ⟨_, exec_xformInv raw s, rfl, (by decide : Config.sentinel.toInt = -32676), rfl, fun _ hk =>
    decode_of_row (r := ⟨.inv, 0x18000, 0x1C000⟩) (by decide) hk none⟩

/-- Whether CAL draws, and its lane where it does not, are decided by its operands (R122, R129). -/
theorem calibrate_uniform (a : Lane) (p g : Real64) : ∃ (free : Bool) (c : Lane), ∀ s : State,
    (.next (calibrate a p g s) : Host.Outcome State Fault Refusal) =
      if free then .next { s with
        dp := { s.dp with lane := Config.drawLane s.draws }, draws := s.draws + 1 }
      else .next { s with dp := { s.dp with lane := c } } := by
  by_cases hv : isFinite (calProduct a p g) = true
  · exact ⟨false, _, fun s => congrArg _ (calibrate_finite hv s)⟩
  · exact ⟨true, 0, fun s => congrArg _ (calibrate_nonFinite hv s)⟩

/-- Settles O18: four of the transforms are CAL, and XFORM.INV gives the sentinel in every state. -/
theorem transformsAreFunctionsOfOperands : Obligations.TransformsAreFunctionsOfOperands := by
  intro i hi
  cases i with
  | unpack w => cases hi
  | pack L => cases hi
  | rnda v => cases hi
  | narrow16 k => cases hi
  | xformS raw p g => exact calibrate_uniform raw p g
  | xformM0 raw p g => exact calibrate_uniform (magnitude14 raw) p g
  | xformM1 raw p g => exact calibrate_uniform (magnitude14 raw) p g
  | xformInv raw => exact ⟨false, Config.sentinel, exec_xformInv raw⟩
  | xformM3 raw p g => exact calibrate_uniform (magnitude14 raw) p g
  | batchS n src dst p g => cases hi
  | batchM n src dst p0 g0 p1 g1 p2 g2 => cases hi

/-! ### Small products -/

/-- What is rounded below the overflow threshold is finite, and no finite value is nearer (R13). -/
theorem roundsTo_small {q : Rat} {r : Real64} (h : RoundsTo q r) (hq : |q| ≤ 2 ^ 20) :
    isFinite r = true ∧ ∀ y, isFinite y = true → |real r - q| ≤ |real y - q| := by
  have hpow : (2 : Rat) ^ 20 < 2 ^ 970 := pow_lt_pow_right₀ one_lt_two (by norm_num)
  have hthreshold : |q| < 2 ^ 1024 - 2 ^ 970 := lt_sub_iff_add_lt.2 <|
    calc |q| + 2 ^ 970 < 2 ^ 970 + 2 ^ 970 := by gcongr; exact hq.trans_lt hpow
      _ = 2 ^ 971 := by rw [← two_mul, ← pow_succ']
      _ ≤ 2 ^ 1024 := pow_le_pow_right₀ one_le_two (by norm_num)
  obtain ⟨hfin, hnear⟩ := (if_neg hthreshold.not_ge).mp h
  exact ⟨hfin, fun y hy => (hnear y hy).1⟩

/-- A small binary64 value is its own rounding. -/
theorem roundsTo_real {y r : Real64} (hy : isFinite y = true) (h : RoundsTo (real y) r) (hq : |real y| ≤ 2 ^ 20) :
    isFinite r = true ∧ real r = real y := by
  obtain ⟨hfin, hnear⟩ := roundsTo_small h hq
  have hzero : |real r - real y| ≤ 0 := by simpa using hnear y hy
  exact ⟨hfin, sub_eq_zero.1 (abs_nonpos_iff.1 hzero)⟩

theorem real_zero : real 0 = 0 := (real_eq_zero_iff 0).2 (by decide)

theorem real_one : real 0x3FF0000000000000 = 1 := by
  have hsign : sign 0x3FF0000000000000 = false := by decide
  have hexp : expField 0x3FF0000000000000 = 1023 := by decide
  have hfrac : fraction 0x3FF0000000000000 = 0 := by decide
  rw [real, hsign, hexp, hfrac]
  norm_num

/-- Zero is a binary64 value, so a rounding at most doubles the magnitude. -/
theorem roundsTo_abs_le {q : Rat} {r : Real64} (h : RoundsTo q r) (hq : |q| ≤ 2 ^ 20) : |real r| ≤ 2 * |q| := by
  have hnear := (roundsTo_small h hq).2 0 (by decide)
  rw [real_zero, zero_sub, abs_neg] at hnear
  linarith [abs_sub_abs_le_abs_sub (real r) q]

theorem toNat_lane_le (a : Lane) : a.toNat ≤ 65535 := Nat.le_of_lt_succ a.isLt

/-- The difference of a lane and a documented pedestal is small, and so is its product with a documented gain (R88). -/
theorem calProduct_isFinite (a : Lane) {p g : Real64} (hp : isFinite p = true) (hg : isFinite g = true)
    (hp0 : 0 ≤ real p) (hp1 : real p ≤ 16384) (hg2 : |real g| ≤ 2) : isFinite (calProduct a p g) = true := by
  obtain ⟨hafin, hareal⟩ := conversionIsExact a.toNat (toNat_lane_le a)
  have ha : (a.toNat : Rat) ≤ 65535 := by exact_mod_cast toNat_lane_le a
  have hdiff : |real (to64 a.toNat) - real p| ≤ 65535 := by
    rw [hareal, abs_le]
    constructor <;> linarith [(a.toNat.cast_nonneg : (0 : Rat) ≤ a.toNat)]
  have hsub := (subtractionRoundsOnce _ p hafin hp).1
  have hsmall : |real (to64 a.toNat) - real p| ≤ 2 ^ 20 := by linarith
  have hdiff64 : |real (sub64 (to64 a.toNat) p)| ≤ 2 * 65535 :=
    (roundsTo_abs_le hsub hsmall).trans (mul_le_mul_of_nonneg_left hdiff zero_le_two)
  have hprod : |real (sub64 (to64 a.toNat) p) * real g| ≤ 2 ^ 20 :=
    calc |real (sub64 (to64 a.toNat) p) * real g|
        = |real (sub64 (to64 a.toNat) p)| * |real g| := abs_mul _ _
      _ ≤ (2 * 65535) * 2 := mul_le_mul hdiff64 hg2 (abs_nonneg _) (by norm_num)
      _ ≤ 2 ^ 20 := by norm_num
  have hmul := (multiplicationRoundsOnce _ g (roundsTo_small hsub hsmall).1 hg).1
  exact (roundsTo_small hmul hprod).1

/-- Settles O19: each product is finite, and the multi-mode transforms calibrate one magnitude. -/
theorem documentedConstantsNeverDraw : Obligations.DocumentedConstantsNeverDraw := by
  intro raw p g hp hg hp0 hp1 hg2 s
  have hcal : ∀ a : Lane, ∃ c, calibrate a p g s = s.setLane c := fun a =>
    ⟨_, calibrate_finite (calProduct_isFinite a hp hg hp0 hp1 hg2) s⟩
  obtain ⟨c, hc⟩ := hcal raw
  obtain ⟨d, hd⟩ := hcal (magnitude14 raw)
  exact ⟨c, congrArg _ hc, rfl, rfl, d, congrArg _ hd⟩

/-- With pedestal 0 and gain 1 both operations are exact. -/
theorem calProduct_identity (a : Lane) :
    isFinite (calProduct a 0x0000000000000000 0x3FF0000000000000) = true ∧
      real (calProduct a 0x0000000000000000 0x3FF0000000000000) = a.toNat := by
  obtain ⟨hafin, hareal⟩ := conversionIsExact a.toNat (toNat_lane_le a)
  have hsmall : |real (to64 a.toNat)| ≤ 2 ^ 20 := by
    rw [hareal, Nat.abs_cast]
    exact_mod_cast (toNat_lane_le a).trans (by norm_num)
  have hsub := (subtractionRoundsOnce (to64 a.toNat) 0x0000000000000000 hafin (by decide)).1
  rw [real_zero, sub_zero] at hsub
  obtain ⟨hsfin, hsreal⟩ := roundsTo_real hafin hsub hsmall
  have hmul := (multiplicationRoundsOnce _ 0x3FF0000000000000 hsfin (by decide)).1
  rw [real_one, mul_one, hsreal] at hmul
  obtain ⟨hmfin, hmreal⟩ := roundsTo_real hafin hmul hsmall
  exact ⟨hmfin, hmreal.trans hareal⟩

/-- Settles O20: the product is the raw lane, a whole number, which rounds and narrows to itself. -/
theorem xformSIdentityConstants : Obligations.XformSIdentityConstants := by
  intro raw s
  obtain ⟨hfin, hreal⟩ := calProduct_identity raw
  rw [exec_xformS, calibrate_finite hfin, hreal, awayFromZero_natCast, narrow16_toNat_lane]
  rfl

/-! ### A step on a lane -/

/-- Settles O40: the lane's operation leaves its result in the datapath, and putting the packet back takes it over. -/
theorem stepRunsDecodedTransform : Obligations.StepRunsDecodedTransform := by
  intro s p h l rest op hr hp ha hh hs hd
  obtain ⟨c, d, -, hexec⟩ := exec_key (format_of_laneEncoded hd) { s with agenda := rest }
  refine ⟨_, hexec, ?_⟩
  rw [step_of_inHand hr hp ha hh, processStep_lane (s := { s with agenda := rest }) hs hd, hexec]
  rfl

end Sys2Proof.Proofs
end

section
/-! PROOFS. The parts of a batch by themselves (spec/42_batch.md R153 to R158): the START of an empty batch, which packet
a worker goes on with, and the word write that ends a packet. -/

namespace Sys2Proof.Proofs

open Sys2Proof.Machine Sys2Proof.Safety

/-! ### An empty batch -/

/-- With some check failed, a START in IDLE or DONE is the fault of the failing checks (R172, R174). -/
theorem start_of_not_clean {s : State} {p : Params} (hp : s.phase = .idle ∨ s.phase = .done)
    (hc : ¬ Clean p s.memSize) : s.start p = s.enterFault (failingChecks p s.memSize) := by
  rcases start_cases s p with ⟨-, hf, -⟩ | ⟨-, -, e⟩ | ⟨hr, -⟩ | ⟨hr, -⟩
  · exact absurd ((clean_iff p _).2 hf) hc
  · exact e
  · rcases hp with hp | hp <;> cases hp.symm.trans hr
  · rcases hp with hp | hp <;> cases hp.symm.trans hr

/-- The used ranges of an empty batch hold no address. -/
theorem not_inBytes_of_empty {p : Params} (h0 : p.npackets = 0) {x : Nat × Nat} (hx : x ∈ usedBytes p) (a : Nat) :
    ¬ InBytes x a := by
  have hn : p.npackets.toNat = 0 := congrArg BitVec.toNat h0
  simp only [usedBytes, hn, List.mem_cons, List.mem_map] at hx
  rcases hx with rfl | rfl | ⟨r, -, rfl⟩ <;> simp only [InBytes] <;> omega

/-- Of an empty batch no check but MISALIGNED can fail (R158). -/
theorem violates_of_empty {p : Params} (h0 : p.npackets = 0) {n : Nat} {r : Reason} (hv : Violates p n r) :
    r = .misaligned := by
  have hn : p.npackets.toNat = 0 := congrArg BitVec.toNat h0
  cases r with
  | misaligned => rfl
  | srcExtent => simp only [Violates, hn] at hv; omega
  | dstExtent => simp only [Violates, hn] at hv; omega
  | constExtent => obtain ⟨r, -, hlt⟩ := hv; omega
  | overlap =>
    exact absurd (List.pairwise_of_forall_mem_list fun _ hx _ _ a ha => absurd ha (not_inBytes_of_empty h0 hx a)) hv
  | outOfRange => obtain ⟨x, hx, a, ha, -⟩ := hv; exact absurd ha (not_inBytes_of_empty h0 hx a)
  | busy => cases hv
  | hostWrite => cases hv

/-- A misaligned empty batch fails that check alone. -/
theorem failingChecks_of_empty {p : Params} (h0 : p.npackets = 0) {n : Nat} (hv : Violates p n .misaligned) :
    failingChecks p n = [.misaligned] := by
  have honly (r : Reason) : checkFails p n r = decide (r = .misaligned) := by
    rw [Bool.eq_iff_iff, checkFails_iff, decide_eq_true_iff]
    exact ⟨violates_of_empty h0, fun hr => hr ▸ hv⟩
  rw [failingChecks, List.filter_congr fun r _ => honly r]
  decide

/-- Settles O33: an empty batch is clean where it is aligned, and else fails MISALIGNED alone. -/
theorem emptyBatchIsDoneAtOnce : Obligations.EmptyBatchIsDoneAtOnce := by
  intro p s h0 hp
  refine ⟨_, exec_batchOf p s, ?_⟩
  by_cases halign : ∀ r ∈ p.src :: p.dst :: p.arrays.regions, 64 ∣ r.base
  · have hclean : Clean p s.memSize := fun r hv => by
      cases violates_of_empty h0 hv
      obtain ⟨r, hr, hno⟩ := hv
      exact hno (halign r hr)
    rw [start_of_clean hp hclean, if_pos halign]
    exact ⟨rfl, if_pos ((count_eq_zero_iff p).2 h0), rfl, rfl⟩
  · have hv : Violates p s.memSize .misaligned := by
      simpa only [Violates, not_forall, exists_prop] using halign
    rw [start_of_not_clean hp fun hclean => hclean _ hv, if_neg halign, failingChecks_of_empty h0 hv]
    exact ⟨rfl, rfl, rfl⟩

/-! ### The packet a worker goes on with -/

/-- Settles O45, by the cases of a worker told to go on with a packet that no worker has in hand. -/
theorem anyEnabledPacketMayBeNext : Obligations.AnyEnabledPacketMayBeNext := by
  intro s p i rest hr hp hnew ha
  have hnone : State.inHand { s with agenda := rest } i = none := inHand_none.2 hnew
  rw [step_named hr hp ha]
  rcases workOn_cases p i { s with agenda := rest } with ⟨h, hh, -⟩ | ⟨-, hi, hd, hw, e⟩ | ⟨-, hno, e⟩
  · rw [hnone] at hh; cases hh
  · have hyes : i < p.npackets.toNat ∧ i ∉ s.doneSet ∧ s.hands.length < s.nworkers := ⟨hi, hd, hw⟩
    rw [e, if_pos hyes]
    rfl
  · have hno : ¬ (i < p.npackets.toNat ∧ i ∉ s.doneSet ∧ s.hands.length < s.nworkers) := hno
    rw [e, if_neg hno]

/-- A worker may go on with packet i: it is in hand, or enabled with a worker free to take it up (R153, R179). -/
def MayGoOn (s : State) (p : Params) (i : Nat) : Prop :=
  (∃ h ∈ s.hands, h.index = i) ∨
    (i < p.npackets.toNat ∧ i ∉ s.doneSet ∧ (∀ h ∈ s.hands, h.index ≠ i) ∧ s.hands.length < s.nworkers)

/-- While RUNNING there is a candidate: a packet in hand or, with none in hand, a missing one, for R8's worker. -/
theorem candidates_pos {s : State} {p : Params} (hs : Inv s) (hr : s.phase = .running) (hp : s.params = some p) :
    0 < s.hands.length + s.untaken p := by
  obtain ⟨q, hq, -, -, i, hi, hd⟩ := hs.runningAccepted hr
  cases hp.symm.trans hq
  rcases Nat.eq_zero_or_pos s.hands.length with h0 | hpos
  · have hnil : s.hands = [] := List.eq_nil_of_length_eq_zero h0
    have hmiss : i ∉ s.taken := by simpa [mem_taken, hnil] using hd
    have huntaken : s.untaken p = remaining p.count s.taken := if_pos (h0 ▸ hs.workers)
    rw [huntaken]
    exact Nat.add_pos_right _ (remaining_pos_of_missing (taken_rising hs.doneRising) hi hmiss)
  · exact Nat.add_pos_left hpos _

theorem mayGoOn_candidate {s : State} {p : Params} (hs : Inv s) {k : Nat} (hk : k < s.hands.length + s.untaken p) :
    MayGoOn s p (s.candidate k) := by
  refine (candidate_cases hs.doneRising hk).imp_right fun ⟨hlt, hfree, hw⟩ => ?_
  rw [mem_taken, not_or] at hfree
  obtain ⟨hd, hnew⟩ := hfree
  exact ⟨hlt, hd, fun h hh he => hnew ⟨h, hh, he⟩, hw⟩

/-- While RUNNING a worker whose move names no packet goes on with one that it may go on with (R155, log 4). -/
theorem workAny_goesOn {s : State} {p : Params} (hs : Inv s) (hr : s.phase = .running) (hp : s.params = some p) :
    ∃ i d, d ≤ 1 ∧ workAny p s = workOn p i (s.useDraws d) ∧ MayGoOn s p i := by
  rcases workAny_eq p s with ⟨h0, -⟩ | ⟨k, d, hk, hd, e⟩
  · exact absurd h0 (candidates_pos hs hr hp).ne'
  · exact ⟨s.candidate k, d, hd, e, mayGoOn_candidate hs hk⟩

/-- Settles O46: the candidate chosen might as well have been named by the agenda. -/
theorem somePacketIsAlwaysWorkedOn : Obligations.SomePacketIsAlwaysWorkedOn := by
  intro s p hs hr hp ha
  obtain ⟨i, d, hd, e, hi⟩ := workAny_goesOn hs hr hp
  have hnamed : step { s with agenda := [.worker i], draws := s.draws + d } =
      workOn p i { s with agenda := [], draws := s.draws + d } :=
    step_named hr hp rfl
  have hpop : { s with agenda := [], draws := s.draws + d } = s.useDraws d := by rw [← ha]; rfl
  exact ⟨i, d, hd, by rw [step_free hr hp ha, e, hnamed, hpop], hi⟩

/-! ### The word write -/

theorem mem_finishPacket_doneSet (s : State) (p : Params) (h : Hand) (j : Nat) :
    j ∈ (s.finishPacket p h).doneSet ↔ j = h.index ∨ j ∈ s.doneSet :=
  mem_insertIndex h.index j s.doneSet

theorem read_finishPacket_outside (s : State) (p : Params) (h : Hand) {a : Nat} (ha : ¬ InBytes (slot p h.index) a) :
    (s.finishPacket p h).mem.read a = s.mem.read a := by
  rw [State.finishPacket_mem]
  exact read_dstWrite_outside p s.mem h.index h.word ha

/-- The word write is DONE exactly when it leaves no packet missing (R154). -/
theorem finishPacket_phase_eq {s : State} (hrise : s.doneSet.Pairwise (· < ·)) (hr : s.phase = .running) (p : Params)
    (h : Hand) : (s.finishPacket p h).phase =
      if ∀ j, j < p.npackets.toNat → j ∈ (s.finishPacket p h).doneSet then .done else .running := by
  rcases finishPacket_phase_cases hrise hr p h with ⟨e, hall⟩ | ⟨e, j, hj, hmiss⟩
  · exact e.trans (if_pos hall).symm
  · exact e.trans (if_neg fun hall => hmiss (hall j hj)).symm

/-- Of the packets in hand the word write takes out its own alone. -/
theorem mem_finishPacket_hands {s : State} (hd : (s.hands.map Hand.index).Nodup) (p : Params) {h : Hand}
    (hh : h ∈ s.hands) (g : Hand) : g ∈ (s.finishPacket p h).hands ↔ g ∈ s.hands ∧ g ≠ h := by
  rw [State.finishPacket_hands, List.mem_filter, bne_iff_ne]
  exact and_congr_right fun hg => not_congr ⟨List.inj_on_of_nodup_map hd hg hh, congrArg Hand.index⟩

/-- The word write changes memory, DONESET, phase and the packets in hand, and leaves no result. -/
theorem finishPacket_frame (s : State) (p : Params) (h : Hand) : s.finishPacket p h = { s with
    mem := (s.finishPacket p h).mem, doneSet := (s.finishPacket p h).doneSet, phase := (s.finishPacket p h).phase,
    hands := (s.finishPacket p h).hands, dp := Datapath.zero } := by
  simp only [State.finishPacket]

/-- A step on a packet that is at its word write ends it. -/
theorem step_write {s : State} {p : Params} {h : Hand} {rest : List Move} (hr : s.phase = .running)
    (hp : s.params = some p) (ha : s.agenda = .worker h.index :: rest) (hh : s.inHand h.index = some h)
    (hw : h.stage = .write) : step s = .next (State.finishPacket { s with agenda := rest } p h) := by
  rw [step_of_inHand hr hp ha hh]
  simp only [processStep, hw]

/-- Settles O44: the step is the word write of the packet in hand. -/
theorem packetWriteCompletes : Obligations.PacketWriteCompletes := by
  intro s p h rest hs hr hp hh hw ha
  refine ⟨_, step_write hr hp ha (inHand_of_mem hs.handsDistinct hh) hw, ?_,
    fun a hout => read_finishPacket_outside _ p h hout, mem_finishPacket_doneSet _ p h,
    finishPacket_phase_eq (s := { s with agenda := rest }) hs.doneRising hr p h,
    mem_finishPacket_hands (s := { s with agenda := rest }) hs.handsDistinct p hh, finishPacket_frame _ p h⟩
  rw [State.finishPacket_mem]
  exact Memory.readWord_writeWord hs.memCanonical _ h.word

/-- Settles O59: a move writes the slot of a packet in hand, which is not in DONESET, and outside RUNNING it rests. -/
theorem destinationSlotWrittenOnce : Obligations.DestinationSlotWrittenOnce := by
  refine ⟨fun s t rest hs hturn h i hi => ?_, fun s rest hturn hr => ?_⟩
  · obtain ⟨choice, e⟩ := step_of_workersTurn hturn
    rcases workerMove_cases choice { s with agenda := rest } with ⟨_, _, _, e'⟩ | ⟨q, g, _, hr, hq, hg, -, e'⟩ <;>
      cases (e.trans e').symm.trans h
    · exact ⟨hi, fun _ _ _ _ => rfl⟩
    · refine ⟨(mem_finishPacket_doneSet _ q g i).2 (.inr hi), fun p hp a ha => ?_⟩
      cases hq.symm.trans hp
      have hne : i ≠ g.index := ne_of_mem_of_not_mem hi (hs.handsRunning hr q hq g hg).2
      refine read_finishPacket_outside _ q g ?_
      simp only [InBytes, slot] at *
      omega
  · obtain ⟨choice, e⟩ := step_of_workersTurn hturn
    exact e.trans (workerMove_rests choice hr)

end Sys2Proof.Proofs
end

section
/-! PROOFS. PROCESS(i) as a whole (spec/42_batch.md R150 to R154): one packet from its taking to its word write, beside
whatever other packets are in hand. -/

namespace Sys2Proof.Proofs

open Sys2Proof.Machine Sys2Proof.Safety

/-! ### One packet beside the others -/

/-- g is packet i with k of its 36 parts done, and what they have computed is right for a batch whose inputs lie in
memory m. -/
structure HandAt (p : Params) (m : Memory) (i k : Nat) (g : Hand) : Prop where
  index : g.index = i
  parts : g.stage.parts = k
  ok : HandOk p m g

theorem handAt_fresh (p : Params) (m : Memory) (i : Nat) : HandAt p m i 1 (Hand.fresh i) :=
  ⟨rfl, rfl, handOk_fresh p m i⟩

/-- Once 35 parts are done the word write is next. -/
theorem HandAt.stage_write {p : Params} {m : Memory} {i : Nat} {g : Hand} (h : HandAt p m i 35 g) :
    g.stage = .write := by
  have hparts := h.parts
  cases hs : g.stage with
  | write => rfl
  | unpack => rw [hs] at hparts; cases hparts
  | pack => rw [hs] at hparts; cases hparts
  | lane l =>
    rw [hs] at hparts
    simp only [Stage.parts] at hparts
    have := l.isLt
    omega

/-- s with one more packet in hand, another count of free values and other moves to come. -/
def withPacket (s : State) (g : Hand) (draws : Nat) (agenda : List Move) : State :=
  { s with hands := s.hands ++ [g], dp := Datapath.zero, draws := draws, agenda := agenda }

section Beside

variable {s : State} {p : Params} {i : Nat} {g : Hand}

theorem inHand_withPacket (hnew : ∀ h ∈ s.hands, h.index ≠ g.index) (draws : Nat) (agenda : List Move) :
    (withPacket s g draws agenda).inHand g.index = some g := by
  have hnone : s.hands.find? (fun h => h.index == g.index) = none := inHand_none.2 hnew
  simp [State.inHand, withPacket, hnone]

/-- Putting the packet back leaves those beside it. -/
theorem putBack_withPacket (hnew : ∀ h ∈ s.hands, h.index ≠ i) {g' : Hand} (hg : g.index = i) (hg' : g'.index = i)
    (draws d : Nat) (agenda : List Move) :
    ((withPacket s g draws agenda).useDraws d).putBack g' = withPacket s g' (draws + d) agenda := by
  have hkeep : (s.hands.map fun h => if h.index = i then g' else h) = s.hands :=
    (List.map_congr_left fun h hh => if_neg (hnew h hh)).trans (List.map_id _)
  simp only [State.putBack, State.useDraws, withPacket, List.map_append, hkeep, List.map_cons, List.map_nil, hg, hg',
    if_true]

/-- Ending it leaves them too. -/
theorem finishPacket_withPacket_hands (hnew : ∀ h ∈ s.hands, h.index ≠ g.index) (draws : Nat) (agenda : List Move) :
    ((withPacket s g draws agenda).finishPacket p g).hands = s.hands := by
  have hkeep : s.hands.filter (fun h => h.index != g.index) = s.hands :=
    List.filter_eq_self.2 fun h hh => bne_iff_ne.2 (hnew h hh)
  simp [withPacket, hkeep]

/-- A step on the packet before its word write does one part of it. -/
theorem step_withPacket (hr : s.phase = .running) (hp : s.params = some p) {n : Nat} (hc : Clean p n)
    (hi : i < p.npackets.toNat) (hnew : ∀ h ∈ s.hands, h.index ≠ i) {k : Nat} (hg : HandAt p s.mem i k g)
    (hk : k < 35) (draws : Nat) (rest : List Move) :
    ∃ g' draws', HandAt p s.mem i (k + 1) g' ∧
      step (withPacket s g draws (.worker i :: rest)) = .next (withPacket s g' draws' rest) := by
  obtain ⟨rfl, hparts, hok⟩ := hg
  have hstep : step (withPacket s g draws (.worker g.index :: rest)) = processStep p g (withPacket s g draws rest) :=
    step_of_inHand hr hp rfl (inHand_withPacket hnew _ _)
  have hmem : (withPacket s g draws rest).mem = s.mem := rfl
  rcases processStep_ok hc hi (fun a _ => by rw [hmem]) hok with ⟨g', d, -, hindex, hparts', hok', e⟩ | ⟨hw, -⟩
  · refine ⟨g', draws + d, ⟨hindex, by rw [hparts', hparts], hok'⟩, hstep.trans (e.trans ?_)⟩
    rw [putBack_withPacket hnew rfl hindex]
  · rw [hw, Stage.parts] at hparts
    omega

/-- The steps on the packet up to its word write do its parts one by one. -/
theorem run_withPacket (hr : s.phase = .running) (hp : s.params = some p) {n : Nat} (hc : Clean p n)
    (hi : i < p.npackets.toNat) (hnew : ∀ h ∈ s.hands, h.index ≠ i) (rest : List Move) {j k : Nat}
    (hg : HandAt p s.mem i k g) (hk : k + j = 35) (draws : Nat) :
    ∃ g' draws', HandAt p s.mem i 35 g' ∧
      Host.Core.run core j (withPacket s g draws (List.replicate j (.worker i) ++ rest)) =
        .next (withPacket s g' draws' rest) := by
  induction j generalizing g k draws with
  | zero =>
    cases hk
    exact ⟨g, draws, hg, rfl⟩
  | succ j ih =>
    obtain ⟨g₁, draws₁, hg₁, hstep⟩ :=
      step_withPacket hr hp hc hi hnew hg (by omega) draws (List.replicate j (.worker i) ++ rest)
    obtain ⟨g', draws', hg', hrun⟩ := ih hg₁ (by omega) draws₁
    exact ⟨g', draws', hg', (run_succ hstep j).trans hrun⟩

/-- 36 steps on an enabled packet take it up, do its parts and end it with its word write. -/
theorem run_packet_beside (hs : Inv s) (hr : s.phase = .running) (hp : s.params = some p) (hi : i < p.npackets.toNat)
    (hd : i ∉ s.doneSet) (hnew : ∀ h ∈ s.hands, h.index ≠ i) (hw : s.hands.length < s.nworkers)
    (ha : s.agenda = List.replicate 36 (.worker i)) :
    ∃ g draws, HandAt p s.mem i 35 g ∧
      Host.Core.run core 36 s = .next ((withPacket s g draws []).finishPacket p g) := by
  obtain ⟨q, hq, hc, -⟩ := hs.runningAccepted hr
  cases hp.symm.trans hq
  have htake : step s = .next (withPacket s (Hand.fresh i) s.draws (List.replicate 34 (.worker i) ++ [.worker i])) := by
    have hif : i < p.npackets.toNat ∧ i ∉ s.doneSet ∧ s.hands.length < s.nworkers := ⟨hi, hd, hw⟩
    rw [anyEnabledPacketMayBeNext s p i (List.replicate 35 (.worker i)) hr hp hnew ha, if_pos hif, withPacket,
      ← hs.dpClear]
    rfl
  obtain ⟨g, draws, hg, hrun⟩ :=
    run_withPacket hr hp hc hi hnew [.worker i] (j := 34) (handAt_fresh p s.mem i) rfl s.draws
  have hend : step (withPacket s g draws [.worker i]) = .next ((withPacket s g draws []).finishPacket p g) :=
    step_write hr hp (congrArg (fun k => [Move.worker k]) hg.index.symm)
      (inHand_withPacket (fun h hh => hg.index ▸ hnew h hh) _ _) hg.stage_write
  refine ⟨g, draws, hg, ?_⟩
  calc Host.Core.run core 36 s
      = Host.Core.run core (34 + 1) _ := run_succ htake 35
    _ = Host.Core.run core 1 (withPacket s g draws [.worker i]) := run_add hrun 1
    _ = .next ((withPacket s g draws []).finishPacket p g) := run_succ hend 0

end Beside

/-- Settles O47: the 36 steps end in the word write of a packet whose lanes are R150's. -/
theorem processPacketWritesItsWord : Obligations.ProcessPacketWritesItsWord := by
  intro s p i hs hr hp hi hd hnew hw ha
  obtain ⟨g, draws, hg, hrun⟩ := run_packet_beside hs hr hp hi hd hnew hw ha
  have hlanes := hg.ok
  simp only [HandOk, hg.stage_write] at hlanes
  obtain ⟨rfl, -, -⟩ := hg
  refine ⟨_, hrun, fun l c hc => ?_, fun a hout => read_finishPacket_outside _ p g hout,
    mem_finishPacket_doneSet _ p g, finishPacket_phase_eq (s := withPacket s g draws []) hs.doneRising hr p g,
    hp, rfl, finishPacket_withPacket_hands hnew draws [], rfl, rfl⟩
  rw [State.finishPacket_mem, dstLane_dstWrite_same (m := (withPacket s g draws []).mem) hs.memCanonical, hlanes l c hc]

end Sys2Proof.Proofs
end

section
/-! PROOFS. A batch left to the workers (spec/42_batch.md R150 to R155, R159, R160): every step does one part of some
packet, whichever the workers go on with, so 36 NPACKETS steps do all of them. -/

namespace Sys2Proof.Proofs

open Sys2Proof.Machine Sys2Proof.Safety

/-! ### The parts of a batch -/

/-- How many parts of packets [0, n) are done. -/
def totalParts (n : Nat) (s : State) : Nat := ∑ k ∈ Finset.range n, partsDone s k

/-- All of them are done exactly when DONESET holds every packet. -/
theorem totalParts_eq_iff (n : Nat) (s : State) : totalParts n s = n * 36 ↔ ∀ k, k < n → k ∈ s.doneSet := by
  have hall : n * 36 = ∑ k ∈ Finset.range n, 36 := by rw [Finset.sum_const, Finset.card_range, smul_eq_mul]
  rw [totalParts, hall, Finset.sum_eq_sum_iff_of_le fun k _ => partsDone_le s k]
  simp only [Finset.mem_range, mem_doneSet_iff]

theorem totalParts_of_onePartMore {s t : State} {i n : Nat} (h : OnePartMore s t i) (hi : i < n) :
    totalParts n t = totalParts n s + 1 := by
  simp only [totalParts, h _, Finset.sum_add_distrib, Finset.sum_ite_eq, Finset.mem_range, hi, if_true]

theorem totalParts_of_nothing_done {s : State} (hh : s.hands = []) (hd : s.doneSet = []) (n : Nat) :
    totalParts n s = 0 :=
  Finset.sum_eq_zero fun k _ => by rw [partsDone_of_hands_nil hh, hd, if_neg List.not_mem_nil]

/-! ### A batch from its START to DONE -/

/-- An accepted START is a batch under way of which nothing is done, empty or not. -/
theorem progress_latch {s : State} {p : Params} (hs : Inv s) (hp : s.phase = .idle ∨ s.phase = .done)
    (hc : Clean p s.memSize) : Progress p (s.latch p) (s.latch p) where
  inv := inv_latch hs hp hc
  phase := latch_phase_cases s p
  params := rfl
  below := fun _ hi => nomatch hi
  keeps := fun _ => id
  frame := fun _ _ => rfl
  written := fun _ hi => nomatch hi
  hands := fun _ hh => nomatch hh

section Left

variable {p : Params} {s x : State}

theorem Progress.useDraws (hx : Progress p s x) (d : Nat) : Progress p s (x.useDraws d) :=
  { hx with inv := inv_useDraws hx.inv d }

/-- While a packet is missing, a step with no move named does one part of some packet. -/
theorem Progress.step_free (hx : Progress p s x) {n : Nat} (hc : Clean p n) (ha : x.agenda = []) {k : Nat}
    (hk : k < p.npackets.toNat) (hd : k ∉ x.doneSet) :
    ∃ t i, step x = .next t ∧ Progress p s t ∧ i < p.npackets.toNat ∧ OnePartMore x t i ∧ t.agenda = [] := by
  have hr : x.phase = .running := hx.running hk hd
  obtain ⟨i, d, -, e, hgo⟩ := workAny_goesOn hx.inv hr hx.params
  have hmissing : (i < p.npackets.toNat ∧ i ∉ x.doneSet) ∧ (x.inHand i = none → x.hands.length < x.nworkers) := by
    rcases hgo with ⟨h, hh, rfl⟩ | ⟨hi, hid, -, hw⟩
    · exact ⟨hx.not_done hh, fun hnone => absurd rfl (inHand_none.1 hnone h hh)⟩
    · exact ⟨⟨hi, hid⟩, fun _ => hw⟩
  obtain ⟨⟨hi, hid⟩, hroom⟩ := hmissing
  obtain ⟨t, e', ht, hmore, hat⟩ := (hx.useDraws d).workOn_part hc hi hid hroom
  exact ⟨t, i, (Machine.step_free hr hx.params ha).trans (e.trans e'), ht, hi, hmore, hat.trans ha⟩

/-- Left to the workers a batch takes as many steps as it has parts left. -/
theorem Progress.run_left {n j : Nat} (hx : Progress p s x) (hc : Clean p n) (ha : x.agenda = [])
    (hj : totalParts p.npackets.toNat x + j = p.npackets.toNat * 36) :
    ∃ t, Host.Core.run core j x = .next t ∧ Progress p s t ∧ ∀ k, k < p.npackets.toNat → k ∈ t.doneSet := by
  induction j generalizing x with
  | zero => exact ⟨x, rfl, hx, (totalParts_eq_iff _ x).1 hj⟩
  | succ j ih =>
    obtain ⟨k, hk, hd⟩ : ∃ k, k < p.npackets.toNat ∧ k ∉ x.doneSet := by
      by_contra hfull
      push Not at hfull
      have := (totalParts_eq_iff _ x).2 hfull
      omega
    obtain ⟨y, i, hstep, hy, hi, hmore, hay⟩ := hx.step_free hc ha hk hd
    obtain ⟨t, hrun, ht⟩ := ih hy hay (by rw [totalParts_of_onePartMore hmore hi]; omega)
    exact ⟨t, (run_succ hstep j).trans hrun, ht⟩

end Left

/-- Settles O49: the START latches the record, and 36 steps for each packet do all of its parts. -/
theorem cleanBatchReachesItsResult : Obligations.CleanBatchReachesItsResult := by
  intro s r p hs hp hd hc ha
  have hstart : step s = .next (State.latch { s with agenda := [] } p) := by
    rw [step_of_host ha, hostAct_start hd, start_of_clean (s := { s with agenda := [] }) hp hc]
  have hx := progress_latch (inv_popAgenda hs []) hp hc
  have hnone := totalParts_of_nothing_done (s := State.latch { s with agenda := [] } p) rfl rfl p.npackets.toNat
  obtain ⟨t, hrun, ht, hfull⟩ := hx.run_left (j := 36 * p.npackets.toNat) hc rfl (by omega)
  refine ⟨t, ?_, ht.phase_eq.trans (if_pos hfull), ht.params, ht.faults_eq_nil,
    fun i hi => ht.written i (hfull i hi) List.not_mem_nil, ht.frame_dst⟩
  rw [Nat.add_comm, run_succ hstart, hrun]

end Sys2Proof.Proofs
end

section
/-! PROOFS. Faults (spec/60_exceptions.md R170 to R176, R184): what a failed START records, what a host write does, that
FAULT is sticky, and that no operation but START raises a fault. -/

namespace Sys2Proof.Proofs

open Sys2Proof.Machine Sys2Proof.Safety

/-! ### A failed START -/

/-- Settles O31: the START enters FAULT with the failing checks, which are those whose violation is there. -/
theorem failedStartRecordsEveryReason : Obligations.FailedStartRecordsEveryReason := fun p s hp hc =>
  ⟨s.enterFault (failingChecks p s.memSize), by rw [exec_batchOf, start_of_not_clean hp hc],
    mem_failingChecks p s.memSize, rfl⟩

/-! ### Host writes -/

/-- The writes that are a fault: those of a used byte while RUNNING (R61, R64, R176). -/
theorem disturbs_iff (s : State) (addr n : Nat) :
    s.disturbs addr n = true ↔ s.phase = .running ∧ ∃ p, s.params = some p ∧
      ∃ x ∈ usedBytes p, ∃ a, InBytes x a ∧ InBytes (addr, n) a := by
  rw [State.disturbs, Bool.and_eq_true, decide_eq_true_iff]
  refine and_congr_right fun _ => ?_
  cases s.params with
  | none => simp
  | some p =>
    simp only [List.any_eq_true, Range.overlaps_iff, usedBytes_eq, List.mem_map, exists_exists_and_eq_and,
      Option.some.injEq, exists_eq_left']

theorem step_writeMem {s : State} {addr : Nat} {bytes : List Byte} {rest : List Move}
    (ha : s.agenda = .host (.writeMem addr bytes) :: rest) :
    step s = .next (State.hostWrite { s with agenda := rest } addr bytes) := step_of_host ha

/-- A host write, a fault or not, leaves its bytes where it put them. -/
theorem read_hostWrite_inside {s : State} (hm : s.mem.wf = true) (addr : Nat) (bytes : List Byte) (k : Nat)
    (hk : k < bytes.length) : (s.hostWrite addr bytes).mem.read (addr + k) = bytes[k] := by
  rw [State.hostWrite_mem, Memory.read_writeBytes_inside hm]

/-- It changes no other byte. -/
theorem read_hostWrite_outside (s : State) (addr : Nat) (bytes : List Byte) (a : Nat)
    (ha : ¬ InBytes (addr, bytes.length) a) : (s.hostWrite addr bytes).mem.read a = s.mem.read a := by
  rw [State.hostWrite_mem, Memory.read_writeBytes_outside]
  simp only [InBytes] at ha
  omega

/-- Settles O36: the write disturbs the batch, so that it enters FAULT on the memory written. -/
theorem hostWriteWhileRunningFaults : Obligations.HostWriteWhileRunningFaults := by
  intro s p addr bytes rest hm hr hp ha hused
  have hd : State.disturbs { s with agenda := rest } addr bytes.length = true :=
    (disturbs_iff _ _ _).2 ⟨hr, p, hp, hused⟩
  refine ⟨_, step_writeMem ha, ?_, ?_, read_hostWrite_inside (s := { s with agenda := rest }) hm addr bytes,
    read_hostWrite_outside _ addr bytes, ?_⟩
  · rw [State.hostWrite_phase, if_pos hd]
  · rw [State.hostWrite_faults, if_pos hd]
  · rw [State.hostWrite, if_pos hd]
    rfl

/-- Settles O37: the write disturbs no batch, so that memory alone changes. -/
theorem otherHostWritesJustLand : Obligations.OtherHostWritesJustLand := by
  intro s addr bytes rest hm ha hfree
  have hd : ¬ State.disturbs { s with agenda := rest } addr bytes.length = true := fun hd => by
    obtain ⟨hr, p, hp, x, hx, a, hin, hwritten⟩ := (disturbs_iff _ _ _).1 hd
    exact hfree hr p hp x hx a hin hwritten
  refine ⟨_, step_writeMem ha, read_hostWrite_inside (s := { s with agenda := rest }) hm addr bytes,
    read_hostWrite_outside _ addr bytes, ?_⟩
  rw [State.hostWrite, if_neg hd]

/-! ### FAULT is sticky -/

/-- Of the host's actions reset alone leaves FAULT or changes what the block holds there (R175). -/
theorem hostAct_of_fault {a : HostAction} {s t : State} (hf : s.phase = .fault) (hne : a ≠ .reset)
    (h : hostAct a s = .next t) :
    t.phase = .fault ∧ t.faults = s.faults ∧ t.params = s.params ∧ t.doneSet = s.doneSet := by
  rcases hostAct_next h with ⟨rfl, -⟩ | ⟨r, p, -, rfl⟩ | ⟨r, n, rfl⟩ | ⟨addr, bytes, -, rfl⟩
  · exact absurd rfl hne
  · rw [start_of_fault p hf]
    exact ⟨hf, rfl, rfl, rfl⟩
  · exact ⟨hf, rfl, rfl, rfl⟩
  · have hd : ¬ s.disturbs addr bytes.length = true := fun hd => by cases (phase_of_disturbs hd).symm.trans hf
    rw [State.hostWrite, if_neg hd]
    exact ⟨hf, rfl, rfl, rfl⟩

/-- Settles O57: outside RUNNING a worker's move rests, and the host's actions but reset keep FAULT. -/
theorem faultIsSticky : Obligations.FaultIsSticky := by
  intro s t hf hno h
  have hidle : s.phase ≠ .running := by simp [hf]
  rcases step_eq s with ⟨-, e⟩ | ⟨i, rest, -, e⟩ | ⟨a, rest, ha, e⟩
  · cases (e.trans (workerMove_rests none hidle)).symm.trans h
    exact ⟨hf, rfl, rfl, rfl⟩
  · cases (e.trans (workerMove_rests (some i) hidle)).symm.trans h
    exact ⟨hf, rfl, rfl, rfl⟩
  · exact hostAct_of_fault (s := { s with agenda := rest }) hf (fun hreset => hno rest (hreset ▸ ha))
      (e.symm.trans h)

/-! ### What raises no fault -/

/-- An operation of the codec or of the transform completes, and changes no more than its result and the counter of
free values (R11, R170). -/
theorem exec_frame {i : Instr} (hi : i.format ≠ .invoke) (s : State) :
    ∃ dp draws, exec i s = .next { s with dp := dp, draws := draws } := by
  have hkey (hk : i.format = .key) : ∃ dp draws, exec i s = .next { s with dp := dp, draws := draws } := by
    obtain ⟨c, d, -, e⟩ := exec_key hk s
    exact ⟨_, _, e⟩
  cases i with
  | unpack w => exact ⟨_, _, rfl⟩
  | pack L => exact ⟨_, _, rfl⟩
  | rnda v =>
    by_cases hv : Binary64.isFinite v = true
    · exact ⟨_, _, exec_rnda_finite hv s⟩
    · exact ⟨_, _, rndaOfNonFiniteIsFree v s (Bool.eq_false_iff.2 hv)⟩
  | narrow16 k => exact ⟨_, _, rfl⟩
  | xformS raw p g => exact hkey rfl
  | xformM0 raw p g => exact hkey rfl
  | xformM1 raw p g => exact hkey rfl
  | xformInv raw => exact hkey rfl
  | xformM3 raw p g => exact hkey rfl
  | batchS n src dst p g => exact absurd rfl hi
  | batchM n src dst p0 g0 p1 g1 p2 g2 => exact absurd rfl hi

/-- A worker's move records no reason, and neither enters FAULT nor leaves it (R151, R152). -/
theorem workerMove_keeps_faults {choice : Option Nat} {s t : State} (e : workerMove choice s = .next t) :
    t.faults = s.faults ∧ (t.phase = .fault ↔ s.phase = .fault) := by
  refine ⟨?_, ?_⟩
  · rcases workerMove_cases choice s with ⟨_, _, _, e'⟩ | ⟨_, _, _, _, _, _, _, e'⟩ <;>
      cases e'.symm.trans e <;> rfl
  · rcases workerMove_phase e with hkept | ⟨_, -, -, hr, hdone⟩
    · rw [hkept]
    · simp [hr, hdone]

/-- Settles O52: a START answers a next state in every phase, every other operation changes results alone, and a
worker's move raises nothing. -/
theorem noOperationStops : Obligations.NoOperationStops := by
  refine ⟨fun i s => ?_, fun s rest hturn => ?_⟩
  · by_cases hi : i.format = .invoke
    · obtain ⟨p, e⟩ := exec_invoke hi s
      exact ⟨_, e, fun hno => absurd hi hno⟩
    · obtain ⟨dp, draws, e⟩ := exec_frame hi s
      exact ⟨_, e, fun _ => ⟨rfl, rfl⟩⟩
  · obtain ⟨choice, hstep⟩ := step_of_workersTurn hturn
    obtain ⟨t, e⟩ := workerMove_answers choice { s with agenda := rest }
    exact ⟨t, hstep.trans e, workerMove_keeps_faults (s := { s with agenda := rest }) e⟩

end Sys2Proof.Proofs
end

section
/-! PROOFS. Reset by the host (spec/70_reset_and_hazards.md R190, R191). -/

namespace Sys2Proof.Proofs

open Sys2Proof.Machine Sys2Proof.Safety

/-- A reset completes in every phase (R190): the agenda is popped, and the block is reset. -/
theorem step_reset {s : State} {rest : List Move} (ha : s.agenda = .host .reset :: rest) :
    step s = .next (State.resetBlock { s with agenda := rest }) := step_of_host ha

/-- Settles O35: resetBlock sets the fields of R190 and drops the transient values, and it writes no other field,
so memory stays (R191). -/
theorem resetLeavesMemory : Obligations.ResetLeavesMemory := by
  intro s rest ha
  rw [step_reset ha]
  simp only [State.resetBlock, State.dropTransient]

end Sys2Proof.Proofs
end
